-- ==== Sys2Proof/Word.lean ====
section
/-! DEFINITION. The words of the block: a buffer cell, a checksum word, a register, a length register. -/

namespace Sys2Proof

/-- One cell of the packet buffer (20_memory.md R61). -/
abbrev Byte := BitVec 8

/-- A 16-bit wire field, checksum word or buffer address (00_scope.md R10, R16). -/
abbrev Half := BitVec 16

/-- A register slot, a command word, the accumulator (00_scope.md R10, 30_encoding.md R80). -/
abbrev Word := BitVec 32

/-- A length register, or a buffer address that may be one past the end (00_scope.md R10). -/
abbrev Len := BitVec 17

end Sys2Proof
end

