-- ==== Sys2Proof/Syntax.lean ====
section
/-! DEFINITION. The command words as syntax: the protocol family, the one format C with its three fields,
and one constructor of `Instr` for each of the fourteen legal words (30_encoding.md R81, R84, R86). -/

namespace Sys2Proof

/-- The closed set of protocol families (00_scope.md R3). -/
inductive Family where
  | v4
  | v6
deriving DecidableEq, Repr

/-- Format C, the only format (30_encoding.md R81). -/
structure CmdFields where
  /-- bits 7:0 -/
  op : BitVec 8
  /-- bit 8 -/
  f : BitVec 1
  /-- bits 31:9 -/
  rsv : BitVec 23
deriving DecidableEq, Repr

/-- The fourteen legal command words, in the order of spec/opcode_table.json. The words carry no
operand: every operand is a register (30_encoding.md R84, R87). -/
inductive Instr where
  | nop
  | csumClr
  | csumAddw
  | csumAddb
  | csumFin
  | csumBuf
  | icmpEnc
  | echoBuildV4
  | echoBuildV6
  | icmpDec
  | ipv4Dec
  | ipv6Dec
  | rxParseV4
  | rxParseV6
deriving DecidableEq, Repr

end Sys2Proof
end

