-- ==== Sys2Proof/WellFormed.lean ====
section
/-! DEFINITION. When the fields of a command word are well-formed: the three clauses of 30_encoding.md R85,
each a check of its own. `Instr` itself has no operand, so every constructor of it is well-formed; the
decoder does not use these checks, so that the two can be held against each other. -/

namespace Sys2Proof

/-- R85 (a): `OP` is one of the values of R84's table; the unassigned values are 0x06-0x0F, 0x12-0x1F
and 0x24-0xFF. -/
def CmdFields.opAssigned (c : CmdFields) : Bool :=
  c.op.toNat ≤ 0x05 || (0x10 ≤ c.op.toNat && c.op.toNat ≤ 0x11)
    || (0x20 ≤ c.op.toNat && c.op.toNat ≤ 0x23)

/-- R85 (b): `F = 1` only on `ECHO_BUILD` (0x11) and `RX_PARSE` (0x23). -/
def CmdFields.familyOk (c : CmdFields) : Bool :=
  c.f == 0#1 || c.op == 0x11#8 || c.op == 0x23#8

/-- R85 (c), R83: `RSV` is 0. -/
def CmdFields.rsvZero (c : CmdFields) : Bool :=
  c.rsv == 0#23

/-- A command word with these fields is legal (30_encoding.md R85). -/
def CmdFields.wf (c : CmdFields) : Bool :=
  c.opAssigned && c.familyOk && c.rsvZero

end Sys2Proof
end

