-- ==== Sys2Proof/Decode.lean ====
section
/-! DEFINITION. The decoder, total on every 32-bit word and rejecting by name, and after it the encoder,
both written from the tables of 30_encoding.md (R81, R84, R86). -/

namespace Sys2Proof

/-- Why a command word is illegal: the clauses of 30_encoding.md R85. The block reports all three as
`ILLEGAL_COMMAND`. -/
inductive DecodeReject where
  /-- R85 (a) -/
  | unassignedOpcode
  /-- R85 (b) -/
  | familyOnPlainCommand
  /-- R85 (c) -/
  | reservedBits
deriving DecidableEq, Repr

/-- The fields of format C (30_encoding.md R81). -/
def fieldsOf (w : Word) : CmdFields where
  op := w.extractLsb' 0 8
  f := w.extractLsb' 8 1
  rsv := w.extractLsb' 9 23

/-- The family a set or clear `F` selects (00_scope.md R3, 30_encoding.md R82). -/
def familyOf (f : BitVec 1) : Family :=
  if f = 0#1 then .v4 else .v6

/-- The operation codes whose `F` must be 0 (30_encoding.md R82, R84). -/
def plainInstr (op : BitVec 8) : Option Instr :=
  match op.toNat with
  | 0x00 => some .nop
  | 0x01 => some .csumClr
  | 0x02 => some .csumAddw
  | 0x03 => some .csumAddb
  | 0x04 => some .csumFin
  | 0x05 => some .csumBuf
  | 0x10 => some .icmpEnc
  | 0x20 => some .icmpDec
  | 0x21 => some .ipv4Dec
  | 0x22 => some .ipv6Dec
  | _ => none

/-- The operation codes whose meaning `F` selects: `ECHO_BUILD` and `RX_PARSE` (30_encoding.md R82, R84). -/
def familyInstr (op : BitVec 8) (f : Family) : Option Instr :=
  match op.toNat, f with
  | 0x11, .v4 => some .echoBuildV4
  | 0x11, .v6 => some .echoBuildV6
  | 0x23, .v4 => some .rxParseV4
  | 0x23, .v6 => some .rxParseV6
  | _, _ => none

/-- Decoding of the fields (30_encoding.md R84, R85). -/
def decodeFields (c : CmdFields) : Except DecodeReject Instr :=
  if c.rsv ≠ 0#23 then .error .reservedBits
  else
    match familyInstr c.op (familyOf c.f) with
    | some i => .ok i
    | none =>
      match plainInstr c.op with
      | none => .error .unassignedOpcode
      | some i => if c.f = 0#1 then .ok i else .error .familyOnPlainCommand

/-- The decoder: one verdict for every 32-bit word (30_encoding.md R80, R86). -/
def decode (w : Word) : Except DecodeReject Instr :=
  decodeFields (fieldsOf w)

/-- The operation code and the `F` bit of each command (30_encoding.md R84). -/
def opcodeOf : Instr → BitVec 8 × BitVec 1
  | .nop => (0x00#8, 0#1)
  | .csumClr => (0x01#8, 0#1)
  | .csumAddw => (0x02#8, 0#1)
  | .csumAddb => (0x03#8, 0#1)
  | .csumFin => (0x04#8, 0#1)
  | .csumBuf => (0x05#8, 0#1)
  | .icmpEnc => (0x10#8, 0#1)
  | .echoBuildV4 => (0x11#8, 0#1)
  | .echoBuildV6 => (0x11#8, 1#1)
  | .icmpDec => (0x20#8, 0#1)
  | .ipv4Dec => (0x21#8, 0#1)
  | .ipv6Dec => (0x22#8, 0#1)
  | .rxParseV4 => (0x23#8, 0#1)
  | .rxParseV6 => (0x23#8, 1#1)

/-- The encoder: format C with `RSV = 0` (30_encoding.md R81, R83). -/
def encode (i : Instr) : Word :=
  0#23 ++ (opcodeOf i).2 ++ (opcodeOf i).1

/-- The instruction the decoder reads from a row of spec/opcode_table.json: bit 0 of `w` is bit 0 of the
command word, and every bit above `nbits` is 0. -/
def decodeTableWord (nbits w : Nat) : Option Instr :=
  match decode (BitVec.ofNat 32 (w % 2 ^ nbits)) with
  | .ok i => some i
  | .error _ => none

end Sys2Proof
end

