-- ==== Sys2Proof/Config.lean ====
section
/-! DEFINITION. What an implementation or the platform fixes, and the values the spec leaves open.
The opaque constants have no body: nothing can be proved of their values. -/

namespace Sys2Proof

/-- Bytes of the packet buffer, decided by the spec (00_scope.md R10). -/
def Config.bufSize : Nat := 65536

/-- Where a platform puts the two spaces: `REG_BASE`, the host address of register offset 0, and `BUF_BASE`, the
host address of buffer byte 0. Both are OPEN; what depends on them takes a platform as an argument
(00_scope.md R10, 20_memory.md R60, R77, log 12). -/
structure Config.Platform where
  regBase : Nat
  bufBase : Nat
deriving DecidableEq, Repr

/-- Free value: what a register read made while `BUSY = 1` returns, for a register other than STATUS
and CMD (70_reset_and_hazards.md R241, log 4). The argument is the state's counter `host.freeIndex`. -/
opaque Config.freeWord : Nat → Word

/-- Free value: what a buffer read made while `BUSY = 1` returns (70_reset_and_hazards.md R241, log 4). -/
opaque Config.freeByte : Nat → Byte

end Sys2Proof
end

