-- ==== Sys2Proof/Machine/State.lean ====
section
/-! DEFINITION. The state of the block as plain data (10_state.md R20-R52), the model's own fields beside it
(`HostSide`), the reasons a step can stop, and the state after reset (70_reset_and_hazards.md R230, R231). -/

namespace Sys2Proof.Machine

/-- Why a run stops: the model faults of 60_exceptions.md R219. They are not STATUS.ERR codes; the chip
reports nothing for them. All three are safe: the model stops where the hardware goes on (log 9). -/
inductive Fault where
  /-- Raised by a command or a host read that reads an unwritten buffer cell (20_memory.md R62). Safe. -/
  | uninitRead
  /-- Raised by a host access to the register space that is not a whole aligned word, or to the buffer
  that is not one byte (20_memory.md R61, R64). Safe. -/
  | hostBadAccess
  /-- Raised by a host write of a register or a buffer byte while `BUSY = 1`
  (70_reset_and_hazards.md R240). Safe. -/
  | hostBusyViolation
deriving DecidableEq, Repr

/-- Why a step has no meaning. -/
inductive Refusal where
  /-- Raised by an arm of `exec` whose instruction has no meaning yet; no arm of this model raises it. Safe. -/
  | notModelled (mnemonic : String)
deriving DecidableEq, Repr

/-- The errors a command completes with, by name (60_exceptions.md R201). -/
inductive BlockError where
  | truncatedInput
  | malformedHeader
  | unsupportedVersion
  | illegalCommand
  | bounds
deriving DecidableEq, Repr

/-- The fields of `STATUS` (10_state.md R25). The reserved bits have no storage: they read 0. -/
structure Status where
  /-- bit 0 (R26) -/
  busy : Bool
  /-- bit 1 (R27) -/
  done : Bool
  /-- bits 7:4 (R28) -/
  err : BitVec 4
  /-- bit 8 (R29) -/
  cz : Bool
  /-- bit 9 (R30) -/
  ovf : Bool
  /-- bit 10 (R31) -/
  estg : Bool
deriving DecidableEq, Repr

/-- The operand registers the host writes and no command writes (10_state.md R33-R42). -/
structure OperandRegs where
  opa : Half
  srcAddr : Half
  srcLen : Len
  dstAddr : Half
  bodyLen : Len
  txType : BitVec 8
  txCode : BitVec 8
  txCsum : Half
  txIdent : Half
  txSeq : Half
deriving DecidableEq, Repr

/-- The ICMP result bank, `RX_TYPE` to `RX_BODY_LEN` (10_state.md R21, R46). -/
structure IcmpBank where
  type : BitVec 8
  code : BitVec 8
  csum : Half
  ident : Half
  seq : Half
  bodyAddr : Len
  bodyLen : Len
deriving DecidableEq, Repr

/-- The IPv4 result bank, `V4_VERSION` to `V4_PAYLOAD_LEN` (10_state.md R21, R47). -/
structure Ipv4Bank where
  version : BitVec 4
  ihl : BitVec 4
  tos : BitVec 8
  totalLen : Half
  ident : Half
  flagsOff : Half
  ttl : BitVec 8
  proto : BitVec 8
  hdrCsum : Half
  src : Word
  dst : Word
  hdrLen : BitVec 6
  optAddr : Len
  optLen : BitVec 6
  payloadAddr : Len
  payloadLen : Len
deriving DecidableEq, Repr

/-- The IPv6 result bank, `V6_VERSION` to `V6_DST3` (10_state.md R21, R48). -/
structure Ipv6Bank where
  version : BitVec 4
  tclass : BitVec 8
  flow : BitVec 20
  plen : Half
  nxt : BitVec 8
  hoplim : BitVec 8
  payloadAddr : Len
  payloadLen : Len
  src0 : Word
  src1 : Word
  src2 : Word
  src3 : Word
  dst0 : Word
  dst1 : Word
  dst2 : Word
  dst3 : Word
deriving DecidableEq, Repr

/-- The packet buffer: the written cells, by rising buffer address. An address that is not listed is
*unwritten* (10_state.md R52). -/
abbrev Memory := List Host.Cell

/-- One access of the host (20_memory.md R60, R61, R64). `width` is in bits. An ill-formed access can be
named too, so that the model can fault on it (60_exceptions.md R219). -/
inductive HostAccess where
  | regRead (off : BitVec 8) (width : Nat)
  | regWrite (off : BitVec 8) (width : Nat) (v : Word)
  | bufRead (addr : Half) (width : Nat)
  /-- A one-byte write carries the low 8 bits of `v` (log 12). -/
  | bufWrite (addr : Half) (width : Nat) (v : Word)
deriving DecidableEq, Repr

/-- A move of one agent (00_scope.md R11, log 1). -/
inductive Event where
  /-- the host makes an access -/
  | host (a : HostAccess)
  /-- the block's turn: it runs the pending command, if there is one -/
  | block
  /-- the platform asserts reset (70_reset_and_hazards.md R230, R232) -/
  | reset
deriving DecidableEq, Repr

/-- What the host's last access returned (log 3). -/
inductive Reply where
  | nothing
  | word (v : Word)
  | byte (b : Byte)
deriving DecidableEq, Repr

/-- The MODEL's own fields, not the block's state: the outside world's moves to come (log 1), what the
host's last access returned (log 3), and the counter of the free values (log 4). -/
structure HostSide where
  agenda : List Event
  reply : Reply
  freeIndex : Nat
deriving DecidableEq, Repr

/-- The state (10_state.md R20). `CMD` is also the pending command while `BUSY = 1`, as R50 permits (log 11);
`irq` is a function of it (R49). -/
structure State where
  /-- `CTRL` bit 0 (R24) -/
  irqEn : Bool
  status : Status
  /-- `CMD` (R32), and the pending command (R50) -/
  cmd : Word
  opnd : OperandRegs
  /-- `CSUM_ACC` (R43) -/
  csumAcc : Word
  /-- `CSUM_RES` (R44) -/
  csumRes : Half
  /-- `FRAME_LEN` (R45) -/
  frameLen : Len
  rx : IcmpBank
  v4 : Ipv4Bank
  v6 : Ipv6Bank
  /-- the packet buffer (R52) -/
  mem : Memory
  /-- the model's own fields -/
  host : HostSide
deriving DecidableEq, Repr

/-- `STATUS` after reset (70_reset_and_hazards.md R230). -/
def Status.reset : Status where
  busy := false
  done := false
  err := 0#4
  cz := false
  ovf := false
  estg := false

/-- The operand registers after reset (70_reset_and_hazards.md R230). -/
def OperandRegs.reset : OperandRegs where
  opa := 0#16
  srcAddr := 0#16
  srcLen := 0#17
  dstAddr := 0#16
  bodyLen := 0#17
  txType := 0#8
  txCode := 0#8
  txCsum := 0#16
  txIdent := 0#16
  txSeq := 0#16

/-- The ICMP result bank after reset (70_reset_and_hazards.md R230). -/
def IcmpBank.reset : IcmpBank where
  type := 0#8
  code := 0#8
  csum := 0#16
  ident := 0#16
  seq := 0#16
  bodyAddr := 0#17
  bodyLen := 0#17

/-- The IPv4 result bank after reset (70_reset_and_hazards.md R230). -/
def Ipv4Bank.reset : Ipv4Bank where
  version := 0#4
  ihl := 0#4
  tos := 0#8
  totalLen := 0#16
  ident := 0#16
  flagsOff := 0#16
  ttl := 0#8
  proto := 0#8
  hdrCsum := 0#16
  src := 0#32
  dst := 0#32
  hdrLen := 0#6
  optAddr := 0#17
  optLen := 0#6
  payloadAddr := 0#17
  payloadLen := 0#17

/-- The IPv6 result bank after reset (70_reset_and_hazards.md R230). -/
def Ipv6Bank.reset : Ipv6Bank where
  version := 0#4
  tclass := 0#8
  flow := 0#20
  plen := 0#16
  nxt := 0#8
  hoplim := 0#8
  payloadAddr := 0#17
  payloadLen := 0#17
  src0 := 0#32
  src1 := 0#32
  src2 := 0#32
  src3 := 0#32
  dst0 := 0#32
  dst1 := 0#32
  dst2 := 0#32
  dst3 := 0#32

/-- The model's own fields at reset: no move to come, no reply, the counter at 0. DESIGN CHOICE
(log 1, log 3, log 4). -/
def HostSide.reset : HostSide where
  agenda := []
  reply := .nothing
  freeIndex := 0

/-- The block after reset: every register field 0, no command pending, every buffer cell unwritten
(70_reset_and_hazards.md R230, R231). -/
def State.reset : State where
  irqEn := false
  status := Status.reset
  cmd := 0#32
  opnd := OperandRegs.reset
  csumAcc := 0#32
  csumRes := 0#16
  frameLen := 0#17
  rx := IcmpBank.reset
  v4 := Ipv4Bank.reset
  v6 := Ipv6Bank.reset
  mem := []
  host := HostSide.reset

end Sys2Proof.Machine
end

