-- ==== Sys2Proof/Machine/Flags.lean ====
section
/-! DEFINITION. Flag computations and checksum arithmetic: the accumulator's sum with its wrap, the fold,
the finished checksum and its zero flag, the error codes, the STATUS word and the interrupt level
(00_scope.md R17, 40_checksum.md R100, R104, 60_exceptions.md R201, 10_state.md R25, R49). -/

namespace Sys2Proof.Machine

/-- The loop of `AccAdd` with the wrap flag carried along (40_checksum.md R100). -/
def accAddFrom (acc : Word) (ovf : Bool) : List Half → Word × Bool
  | [] => (acc, ovf)
  | w :: ws =>
    accAddFrom (BitVec.ofNat 32 (acc.toNat + w.toNat))
      (ovf || decide (2 ^ 32 ≤ acc.toNat + w.toNat)) ws

/-- `AccAdd(acc, ws)`: the accumulator after the words, and whether any addition wrapped
(40_checksum.md R100). -/
def accAdd (acc : Word) (ws : List Half) : Word × Bool :=
  accAddFrom acc false ws

/-- One pass of the carry fold (00_scope.md R17). -/
def foldPass (n : Nat) : Nat :=
  n / 2 ^ 16 + n % 2 ^ 16

/-- `Fold(s)`: exactly two passes (00_scope.md R17). -/
def fold (s : Word) : Nat :=
  foldPass (foldPass s.toNat)

/-- `Cks(s) = ~Fold(s)` within 16 bits (00_scope.md R17). -/
def cks (s : Word) : Half :=
  ~~~ BitVec.ofNat 16 (fold s)

/-- `STATUS.CZ` for a new `CSUM_RES` (10_state.md R29). -/
def czOf (res : Half) : Bool :=
  res == 0#16

/-- The four header words of a checksum: type and code, the checksum field as 0, identifier, sequence
(40_checksum.md R104). -/
def headerWords (type code : BitVec 8) (ident seq : Half) : List Half :=
  [type ++ code, 0#16, ident, seq]

/-- `ComputeChecksum` over a body given as its checksum words (40_checksum.md R104). -/
def computeChecksum (type code : BitVec 8) (ident seq : Half) (body : List Half) : Half :=
  cks (accAdd 0#32 (headerWords type code ident seq ++ body)).1

/-- The codes of STATUS.ERR (60_exceptions.md R201); 0 is `NONE`. -/
def BlockError.toCode : BlockError → BitVec 4
  | .truncatedInput => 1#4
  | .malformedHeader => 2#4
  | .unsupportedVersion => 3#4
  | .illegalCommand => 4#4
  | .bounds => 5#4

/-- A one-bit field as a bit vector. -/
def bitOf (b : Bool) : BitVec 1 :=
  BitVec.ofBool b

/-- The STATUS word the host reads (10_state.md R25). -/
def Status.toWord (st : Status) : Word :=
  0#21 ++ bitOf st.estg ++ bitOf st.ovf ++ bitOf st.cz ++ st.err ++ 0#2 ++ bitOf st.done ++ bitOf st.busy

/-- The interrupt output level (10_state.md R49, 60_exceptions.md R207). -/
def State.irq (s : State) : Bool :=
  s.irqEn && s.status.done

end Sys2Proof.Machine
end

