-- ==== Sys2Proof/Machine/Ops.lean ====
section
/-! DEFINITION. The shared operations: the packet buffer (20_memory.md R62, R63, 00_scope.md R14), the
bounds check (20_memory.md R68), the staged commits of a command, its completion and its error
(60_exceptions.md R203, 00_scope.md R13, R15), the command start (60_exceptions.md R204) and reset
(70_reset_and_hazards.md R232).

Raising an error is this block's only form of exception: there is no trap entry and no return from one
(60_exceptions.md R209, R210); `State.fail` is the one operation that reports an error, and the next
`State.start` is what clears it. -/

namespace Sys2Proof.Machine

/-! ### The packet buffer -/

/-- What a cell holds; an address that is not listed is unwritten and has no value (10_state.md R52). -/
def Memory.byteAt : Memory → Nat → Option Byte
  | [], _ => none
  | (k, b) :: m, a => if k = a then some b else Memory.byteAt m a

/-- The canonical form from an address on: addresses strictly rising and inside the buffer. -/
def Memory.wfFrom (lo : Nat) : Memory → Bool
  | [] => true
  | (k, _) :: m => decide (lo ≤ k) && decide (k < Config.bufSize) && Memory.wfFrom (k + 1) m

/-- The canonical form: addresses strictly rising, each a buffer address (10_state.md R52). An unlisted
cell has no value, so no listed byte equals what an unlisted address reads as. -/
def Memory.wf (m : Memory) : Bool :=
  Memory.wfFrom 0 m

/-- A committed write of one cell (10_state.md R52). -/
def Memory.write : Memory → Nat → Byte → Memory
  | [], a, b => [(a, b)]
  | (k, c) :: m, a, b =>
    if a < k then (a, b) :: (k, c) :: m
    else if a = k then (a, b) :: m
    else (k, c) :: Memory.write m a b

/-- Bytes written at consecutive addresses. -/
def Memory.writeBytes : Memory → Nat → List Byte → Memory
  | m, _, [] => m
  | m, a, b :: bs => Memory.writeBytes (m.write a b) (a + 1) bs

/-- The `n` big-endian bytes of a value (00_scope.md R14, 20_memory.md R63). -/
def beBytes : Nat → Nat → List Byte
  | 0, _ => []
  | n + 1, v => BitVec.ofNat 8 (v / 256 ^ n) :: beBytes n v

/-- `MemWrite(addr, n, v)` (00_scope.md R14). -/
def Memory.writeBe (m : Memory) (a n v : Nat) : Memory :=
  m.writeBytes a (beBytes n v)

/-- How a command's rule ends before its commit: it raises an error (00_scope.md R15), in the ICMP stage of
`RX_PARSE` V4 or not (44_chain_and_nop.md R181), or it is a run the spec gives no meaning (60_exceptions.md R219). -/
inductive Stop where
  | raised (e : BlockError) (icmpStage : Bool)
  | fault (f : Fault)
deriving DecidableEq, Repr

/-- `MemByte(addr)`: an unwritten cell is the model fault `UninitRead` (20_memory.md R62). -/
def memByte (m : Memory) (a : Nat) : Except Stop Byte :=
  match m.byteAt a with
  | some b => .ok b
  | none => .error (.fault .uninitRead)

/-- `MemRead(addr, n)`: `n` bytes as one big-endian unsigned integer (00_scope.md R14). -/
def memRead (m : Memory) (a : Nat) : Nat → Except Stop Nat
  | 0 => .ok 0
  | n + 1 => do
    let hi ← memRead m a n
    let b ← memByte m (a + n)
    return hi * 256 + b.toNat

/-! ### Spans -/

/-- A pair (address, length) naming consecutive buffer bytes (00_scope.md section 7). -/
structure Span where
  addr : Nat
  len : Nat
deriving DecidableEq, Repr

/-- The bounds check, computed exactly (20_memory.md R68). -/
def checkSpan (a n : Nat) : Except Stop Span :=
  if a + n ≤ Config.bufSize then .ok ⟨a, n⟩ else .error (.raised .bounds false)

/-! ### Staged commits

A command's rule reads the state it began in and builds the state with all its writes; nothing of it is
kept unless the command completes without error (00_scope.md R13). -/

/-- `CSUM_ACC` and `STATUS.OVF` written. -/
def State.withAccumulator (s : State) (acc : Word) (ovf : Bool) : State :=
  { s with csumAcc := acc, status := { s.status with ovf := ovf } }

/-- `CSUM_RES` written, and with it `STATUS.CZ` (10_state.md R29). -/
def State.withResult (s : State) (res : Half) : State :=
  { s with csumRes := res, status := { s.status with cz := czOf res } }

/-- `FRAME_LEN` written. -/
def State.withFrameLen (s : State) (n : Nat) : State :=
  { s with frameLen := BitVec.ofNat 17 n }

/-- The ICMP result bank written as a whole (10_state.md R46). -/
def State.withRx (s : State) (b : IcmpBank) : State :=
  { s with rx := b }

/-- The IPv4 result bank written as a whole (10_state.md R47). -/
def State.withV4 (s : State) (b : Ipv4Bank) : State :=
  { s with v4 := b }

/-- The IPv6 result bank written as a whole (10_state.md R48). -/
def State.withV6 (s : State) (b : Ipv6Bank) : State :=
  { s with v6 := b }

/-- Buffer bytes written. -/
def State.withMem (s : State) (m : Memory) : State :=
  { s with mem := m }

/-- The model's own fields replaced. -/
def State.withHost (s : State) (h : HostSide) : State :=
  { s with host := h }

/-! ### Completion, start, reset -/

/-- The end of `BlockStep`: ERR, DONE and BUSY (60_exceptions.md R203). -/
def State.complete (s : State) (code : BitVec 4) : State :=
  { s with status := { s.status with err := code, done := true, busy := false } }

/-- A command that raised: every staged write discarded but `STATUS.ESTG`, which is set by the ICMP stage
of `RX_PARSE` V4 and otherwise left (60_exceptions.md R203, 44_chain_and_nop.md R181). -/
def State.fail (s : State) (e : BlockError) (icmpStage : Bool) : State :=
  { s with status :=
    { s.status with
      estg := s.status.estg || icmpStage
      err := e.toCode
      done := true
      busy := false } }

/-- `BlockStep` around the rule of a legal command (60_exceptions.md R203): commit and complete, or discard
and report, or stop on a model fault. -/
def runCommand (s : State) (rule : Except Stop State) : Host.Outcome State Fault Refusal :=
  match rule with
  | .ok t => .next (t.complete 0#4)
  | .error (.raised e icmpStage) => .next (s.fail e icmpStage)
  | .error (.fault f) => .fault f

/-- Command start: the host's write of a word to `CMD` (60_exceptions.md R204). -/
def State.start (s : State) (w : Word) : State :=
  { s with
    cmd := w
    status := { s.status with done := false, err := 0#4, estg := false, busy := true } }

/-- Reset at any time: the block's state is exactly the reset state; the outside world's side stays
(70_reset_and_hazards.md R230-R232, log 10). -/
def State.resetBlock (s : State) : State :=
  { State.reset with host := s.host }

end Sys2Proof.Machine
end

