-- ==== Sys2Proof/Machine/Operands.lean ====
section
/-! DEFINITION. Every operand form: the source span, the frame span, the checksum words of a span, the ICMP
header's bytes, and the constants of a family (00_scope.md R3, R16, 20_memory.md R68, 41_icmp_codec.md R120). -/

namespace Sys2Proof.Machine

/-- The source span `(SRC_ADDR, SRC_LEN)` after its bounds check (10_state.md R34, R35, 20_memory.md R68). -/
def srcSpan (s : State) : Except Stop Span :=
  checkSpan s.opnd.srcAddr.toNat s.opnd.srcLen.toNat

/-- The header span `(DST_ADDR, 8)` of `ICMP_ENC` after its bounds check (20_memory.md R68). -/
def hdrSpan (s : State) : Except Stop Span :=
  checkSpan s.opnd.dstAddr.toNat 8

/-- The frame span `(DST_ADDR, 8 + BODY_LEN)` of `ECHO_BUILD` after its bounds check (20_memory.md R68). -/
def frameSpan (s : State) : Except Stop Span :=
  checkSpan s.opnd.dstAddr.toNat (8 + s.opnd.bodyLen.toNat)

/-- `Words(addr, n)`: big-endian words paired from the start of the span; an odd last byte is the high
byte of a word with a zero low byte (00_scope.md R16, 20_memory.md R66). -/
def words (m : Memory) : Nat → Nat → Except Stop (List Half)
  | _, 0 => .ok []
  | a, 1 => do
    let b ← memByte m a
    return [b ++ 0#8]
  | a, n + 2 => do
    let w ← memRead m a 2
    let ws ← words m (a + 2) n
    return BitVec.ofNat 16 w :: ws

/-- The 8 bytes of an ICMP echo header: type, code, checksum, identifier, sequence number
(41_icmp_codec.md R120). -/
def icmpHeader (type code : BitVec 8) (csum ident seq : Half) : List Byte :=
  beBytes 1 type.toNat ++ beBytes 1 code.toNat ++ beBytes 2 csum.toNat ++ beBytes 2 ident.toNat
    ++ beBytes 2 seq.toNat

end Sys2Proof.Machine

namespace Sys2Proof

/-- The family's echo-request type (00_scope.md R3). -/
def Machine.requestType : Family → BitVec 8
  | .v4 => 8#8
  | .v6 => 128#8

/-- The family's echo-reply type. The block itself never uses it; it is the host's, for matching
(00_scope.md R3, 41_icmp_codec.md R125). -/
def Machine.replyType : Family → BitVec 8
  | .v4 => 0#8
  | .v6 => 129#8

end Sys2Proof
end

