-- ==== Sys2Proof/Machine/Checksum.lean ====
section
/-! DEFINITION. The checksum accumulator commands (40_checksum.md R101-R106). -/

namespace Sys2Proof.Machine

/-- `CSUM_CLR` (40_checksum.md R101). -/
def execCsumClr (s : State) : Host.Outcome State Fault Refusal :=
  runCommand s (.ok (s.withAccumulator 0#32 false))

/-- Words added to the accumulator, the wrap flag sticky (40_checksum.md R102, R103). -/
def State.addWords (s : State) (ws : List Half) : State :=
  s.withAccumulator (accAdd s.csumAcc ws).1 (s.status.ovf || (accAdd s.csumAcc ws).2)

/-- `CSUM_ADDW` (40_checksum.md R102). -/
def execCsumAddw (s : State) : Host.Outcome State Fault Refusal :=
  runCommand s (.ok (s.addWords [s.opnd.opa]))

/-- The rule of `CSUM_ADDB` (40_checksum.md R103). -/
def csumAddbRule (s : State) : Except Stop State := do
  let sp ← srcSpan s
  let ws ← words s.mem sp.addr sp.len
  return s.addWords ws

/-- `CSUM_ADDB` (40_checksum.md R103). -/
def execCsumAddb (s : State) : Host.Outcome State Fault Refusal :=
  runCommand s (csumAddbRule s)

/-- `CSUM_FIN`: the accumulator is left unfolded (40_checksum.md R105). -/
def execCsumFin (s : State) : Host.Outcome State Fault Refusal :=
  runCommand s (.ok (s.withResult (cks s.csumAcc)))

/-- A sum that starts from 0, finished at once: `CSUM_ACC`, `OVF`, `CSUM_RES`, `CZ`
(40_checksum.md R106, 41_icmp_codec.md R122). -/
def State.oneShot (s : State) (ws : List Half) : State :=
  (s.withAccumulator (accAdd 0#32 ws).1 (accAdd 0#32 ws).2).withResult (cks (accAdd 0#32 ws).1)

/-- The rule of `CSUM_BUF` (40_checksum.md R106). -/
def csumBufRule (s : State) : Except Stop State := do
  let sp ← srcSpan s
  let ws ← words s.mem sp.addr sp.len
  return s.oneShot ws

/-- `CSUM_BUF` (40_checksum.md R106). -/
def execCsumBuf (s : State) : Host.Outcome State Fault Refusal :=
  runCommand s (csumBufRule s)

end Sys2Proof.Machine
end

