-- ==== Sys2Proof/Machine/IcmpCodec.lean ====
section
/-! DEFINITION. The ICMP codec and echo-request encoder commands (41_icmp_codec.md R121, R122, R124). -/

namespace Sys2Proof.Machine

/-- The rule of `ICMP_ENC`: the fields as given (41_icmp_codec.md R121). -/
def icmpEncRule (s : State) : Except Stop State := do
  let sp ← hdrSpan s
  return s.withMem (s.mem.writeBytes sp.addr
    (icmpHeader s.opnd.txType s.opnd.txCode s.opnd.txCsum s.opnd.txIdent s.opnd.txSeq))

/-- `ICMP_ENC` (41_icmp_codec.md R121). -/
def execIcmpEnc (s : State) : Host.Outcome State Fault Refusal :=
  runCommand s (icmpEncRule s)

/-- The checksum words of an echo request: the family's type, code 0, and the body (41_icmp_codec.md R122). -/
def requestWords (fam : Family) (s : State) (body : List Half) : List Half :=
  headerWords (requestType fam) 0#8 s.opnd.txIdent s.opnd.txSeq ++ body

/-- The checksum field of an echo request (41_icmp_codec.md R122, 40_checksum.md R104). -/
def requestCsum (fam : Family) (s : State) (body : List Half) : Half :=
  computeChecksum (requestType fam) 0#8 s.opnd.txIdent s.opnd.txSeq body

/-- The rule of `ECHO_BUILD` for a family (41_icmp_codec.md R122). -/
def echoBuildRule (fam : Family) (s : State) : Except Stop State := do
  let sp ← frameSpan s
  let body ← words s.mem (sp.addr + 8) s.opnd.bodyLen.toNat
  let hdr := icmpHeader (requestType fam) 0#8 (requestCsum fam s body) s.opnd.txIdent s.opnd.txSeq
  return ((s.withMem (s.mem.writeBytes sp.addr hdr)).oneShot (requestWords fam s body)).withFrameLen sp.len

/-- `ECHO_BUILD` with `F = 0` (41_icmp_codec.md R122). -/
def execEchoBuildV4 (s : State) : Host.Outcome State Fault Refusal :=
  runCommand s (echoBuildRule .v4 s)

/-- `ECHO_BUILD` with `F = 1` (41_icmp_codec.md R122). -/
def execEchoBuildV6 (s : State) : Host.Outcome State Fault Refusal :=
  runCommand s (echoBuildRule .v6 s)

/-- `IcmpFields(s, n)`; `icmpStage` says that it runs as the second stage of `RX_PARSE` V4
(41_icmp_codec.md R124, 44_chain_and_nop.md R181). Fewer than 8 bytes are not read (log 8). -/
def icmpFields (m : Memory) (a n : Nat) (icmpStage : Bool) : Except Stop IcmpBank :=
  if n < 8 then .error (.raised .truncatedInput icmpStage)
  else do
    let type ← memRead m a 1
    let code ← memRead m (a + 1) 1
    let csum ← memRead m (a + 2) 2
    let ident ← memRead m (a + 4) 2
    let seq ← memRead m (a + 6) 2
    return {
      type := BitVec.ofNat 8 type
      code := BitVec.ofNat 8 code
      csum := BitVec.ofNat 16 csum
      ident := BitVec.ofNat 16 ident
      seq := BitVec.ofNat 16 seq
      bodyAddr := BitVec.ofNat 17 (a + 8)
      bodyLen := BitVec.ofNat 17 (n - 8) }

/-- The rule of `ICMP_DEC` (41_icmp_codec.md R124). -/
def icmpDecRule (s : State) : Except Stop State := do
  let sp ← srcSpan s
  let bank ← icmpFields s.mem sp.addr sp.len false
  return s.withRx bank

/-- `ICMP_DEC` (41_icmp_codec.md R124). -/
def execIcmpDec (s : State) : Host.Outcome State Fault Refusal :=
  runCommand s (icmpDecRule s)

end Sys2Proof.Machine
end

