-- ==== Sys2Proof/Machine/IpHeaders.lean ====
section
/-! DEFINITION. The IPv4 and IPv6 header decoder commands (42_ipv4_decoder.md R141, 43_ipv6_decoder.md R161).
The header layouts are those of R140 and R160, which the spec marks as general knowledge (log 15). -/

namespace Sys2Proof.Machine

/-- `b0[7:4]`, the version nibble (42_ipv4_decoder.md R140, 43_ipv6_decoder.md R160). -/
def hiNibble (b : Byte) : BitVec 4 :=
  b.extractLsb' 4 4

/-- `b0[3:0]` (42_ipv4_decoder.md R140, 43_ipv6_decoder.md R160). -/
def loNibble (b : Byte) : BitVec 4 :=
  b.extractLsb' 0 4

/-- `hl`, the header length in bytes for an `IHL` (42_ipv4_decoder.md R141). -/
def hdrBytes (ihl : BitVec 4) : Nat :=
  ihl.toNat * 4

/-- The part of `V4Fields` after its checks: the fixed 20-byte prefix read into the bank; the option bytes are
not read (42_ipv4_decoder.md R141, R145). -/
def v4Bank (m : Memory) (a n : Nat) (ihl : BitVec 4) : Except Stop Ipv4Bank := do
  let tos ← memRead m (a + 1) 1
  let totalLen ← memRead m (a + 2) 2
  let ident ← memRead m (a + 4) 2
  let flagsOff ← memRead m (a + 6) 2
  let ttl ← memRead m (a + 8) 1
  let proto ← memRead m (a + 9) 1
  let hdrCsum ← memRead m (a + 10) 2
  let src ← memRead m (a + 12) 4
  let dst ← memRead m (a + 16) 4
  return {
    version := 4#4
    ihl := ihl
    tos := BitVec.ofNat 8 tos
    totalLen := BitVec.ofNat 16 totalLen
    ident := BitVec.ofNat 16 ident
    flagsOff := BitVec.ofNat 16 flagsOff
    ttl := BitVec.ofNat 8 ttl
    proto := BitVec.ofNat 8 proto
    hdrCsum := BitVec.ofNat 16 hdrCsum
    src := BitVec.ofNat 32 src
    dst := BitVec.ofNat 32 dst
    hdrLen := BitVec.ofNat 6 (hdrBytes ihl)
    optAddr := BitVec.ofNat 17 (a + 20)
    optLen := BitVec.ofNat 6 (hdrBytes ihl - 20)
    payloadAddr := BitVec.ofNat 17 (a + hdrBytes ihl)
    payloadLen := BitVec.ofNat 17 (n - hdrBytes ihl) }

/-- `V4Fields(s, n)`: empty span, version, fixed prefix, IHL, options, in this order
(42_ipv4_decoder.md R141-R143, 60_exceptions.md R205). A failed check reads nothing after the first byte, as the
pseudocode of R141 has it: DEDUCED, its Operands line would read 20 bytes where IHL is too small or the options do
not fit (log 16). -/
def v4Fields (m : Memory) (a n : Nat) : Except Stop Ipv4Bank :=
  if n < 1 then .error (.raised .truncatedInput false)
  else do
    let b0 ← memByte m a
    if hiNibble b0 ≠ 4#4 then .error (.raised .unsupportedVersion false)
    else if n < 20 then .error (.raised .truncatedInput false)
    else if hdrBytes (loNibble b0) < 20 then .error (.raised .malformedHeader false)
    else if n < hdrBytes (loNibble b0) then .error (.raised .truncatedInput false)
    else v4Bank m a n (loNibble b0)

/-- The rule of `IPV4_DEC` (42_ipv4_decoder.md R141). -/
def ipv4DecRule (s : State) : Except Stop State := do
  let sp ← srcSpan s
  let bank ← v4Fields s.mem sp.addr sp.len
  return s.withV4 bank

/-- `IPV4_DEC` (42_ipv4_decoder.md R141). -/
def execIpv4Dec (s : State) : Host.Outcome State Fault Refusal :=
  runCommand s (ipv4DecRule s)

/-- The part of the IPv6 rule after its checks: the fixed 40-byte header read into the bank
(43_ipv6_decoder.md R161, R165). -/
def v6Bank (m : Memory) (a n : Nat) (b0 : Byte) : Except Stop Ipv6Bank := do
  let b1 ← memByte m (a + 1)
  let flowLow ← memRead m (a + 2) 2
  let plen ← memRead m (a + 4) 2
  let nxt ← memRead m (a + 6) 1
  let hoplim ← memRead m (a + 7) 1
  let src0 ← memRead m (a + 8) 4
  let src1 ← memRead m (a + 12) 4
  let src2 ← memRead m (a + 16) 4
  let src3 ← memRead m (a + 20) 4
  let dst0 ← memRead m (a + 24) 4
  let dst1 ← memRead m (a + 28) 4
  let dst2 ← memRead m (a + 32) 4
  let dst3 ← memRead m (a + 36) 4
  return {
    version := 6#4
    tclass := loNibble b0 ++ hiNibble b1
    flow := loNibble b1 ++ BitVec.ofNat 16 flowLow
    plen := BitVec.ofNat 16 plen
    nxt := BitVec.ofNat 8 nxt
    hoplim := BitVec.ofNat 8 hoplim
    payloadAddr := BitVec.ofNat 17 (a + 40)
    payloadLen := BitVec.ofNat 17 (n - 40)
    src0 := BitVec.ofNat 32 src0
    src1 := BitVec.ofNat 32 src1
    src2 := BitVec.ofNat 32 src2
    src3 := BitVec.ofNat 32 src3
    dst0 := BitVec.ofNat 32 dst0
    dst1 := BitVec.ofNat 32 dst1
    dst2 := BitVec.ofNat 32 dst2
    dst3 := BitVec.ofNat 32 dst3 }

/-- The checks and the read of the IPv6 rule: empty span, version, length, in this order; no other check
(43_ipv6_decoder.md R161-R164). -/
def v6Fields (m : Memory) (a n : Nat) : Except Stop Ipv6Bank :=
  if n < 1 then .error (.raised .truncatedInput false)
  else do
    let b0 ← memByte m a
    if hiNibble b0 ≠ 6#4 then .error (.raised .unsupportedVersion false)
    else if n < 40 then .error (.raised .truncatedInput false)
    else v6Bank m a n b0

/-- The rule of `IPV6_DEC` (43_ipv6_decoder.md R161). -/
def ipv6DecRule (s : State) : Except Stop State := do
  let sp ← srcSpan s
  let bank ← v6Fields s.mem sp.addr sp.len
  return s.withV6 bank

/-- `IPV6_DEC` (43_ipv6_decoder.md R161). -/
def execIpv6Dec (s : State) : Host.Outcome State Fault Refusal :=
  runCommand s (ipv6DecRule s)

end Sys2Proof.Machine
end

