-- ==== Sys2Proof/Machine/Chain.lean ====
section
/-! DEFINITION. The receive decoder chain and the null command (44_chain_and_nop.md R180-R183). -/

namespace Sys2Proof.Machine

/-- The rule of `RX_PARSE` V4: the IPv4 stage, then the ICMP stage at the payload; both banks commit
together (44_chain_and_nop.md R180, R181). -/
def rxParseV4Rule (s : State) : Except Stop State := do
  let sp ← srcSpan s
  let v4 ← v4Fields s.mem sp.addr sp.len
  let rx ← icmpFields s.mem (sp.addr + hdrBytes v4.ihl) (sp.len - hdrBytes v4.ihl) true
  return (s.withV4 v4).withRx rx

/-- `RX_PARSE` with `F = 0` (44_chain_and_nop.md R180, R181). -/
def execRxParseV4 (s : State) : Host.Outcome State Fault Refusal :=
  runCommand s (rxParseV4Rule s)

/-- The rule of `RX_PARSE` V6: the ICMP stage alone (44_chain_and_nop.md R180, R182). -/
def rxParseV6Rule (s : State) : Except Stop State := do
  let sp ← srcSpan s
  let rx ← icmpFields s.mem sp.addr sp.len false
  return s.withRx rx

/-- `RX_PARSE` with `F = 1` (44_chain_and_nop.md R180, R182). -/
def execRxParseV6 (s : State) : Host.Outcome State Fault Refusal :=
  runCommand s (rxParseV6Rule s)

/-- `NOP`: only completes (44_chain_and_nop.md R183). -/
def execNop (s : State) : Host.Outcome State Fault Refusal :=
  runCommand s (.ok s)

end Sys2Proof.Machine
end

