-- ==== Sys2Proof/Machine/Dispatch.lean ====
section
/-! DEFINITION. One arm for each command, each a direct call of its meaning. -/

namespace Sys2Proof.Machine

def exec (i : Instr) (s : State) : Host.Outcome State Fault Refusal :=
  match i with
  -- 44_chain_and_nop.md
  | .nop => Sys2Proof.Machine.execNop s
  -- 40_checksum.md
  | .csumClr => Sys2Proof.Machine.execCsumClr s
  | .csumAddw => Sys2Proof.Machine.execCsumAddw s
  | .csumAddb => Sys2Proof.Machine.execCsumAddb s
  | .csumFin => Sys2Proof.Machine.execCsumFin s
  | .csumBuf => Sys2Proof.Machine.execCsumBuf s
  -- 41_icmp_codec.md
  | .icmpEnc => Sys2Proof.Machine.execIcmpEnc s
  | .echoBuildV4 => Sys2Proof.Machine.execEchoBuildV4 s
  | .echoBuildV6 => Sys2Proof.Machine.execEchoBuildV6 s
  | .icmpDec => Sys2Proof.Machine.execIcmpDec s
  -- 42_ipv4_decoder.md, 43_ipv6_decoder.md
  | .ipv4Dec => Sys2Proof.Machine.execIpv4Dec s
  | .ipv6Dec => Sys2Proof.Machine.execIpv6Dec s
  -- 44_chain_and_nop.md
  | .rxParseV4 => Sys2Proof.Machine.execRxParseV4 s
  | .rxParseV6 => Sys2Proof.Machine.execRxParseV6 s

end Sys2Proof.Machine
end

