-- ==== Sys2Proof/Machine/RegMap.lean ====
section
/-! DEFINITION. The register map: the 55 registers of 10_state.md R21 with their offsets, widths and access
types, and the host's read and write of one (10_state.md R22-R25, R32). -/

namespace Sys2Proof.Machine

/-- The 55 registers, in the order of their offsets (10_state.md R21). -/
inductive Reg where
  | ctrl
  | status
  | cmd
  | opa
  | srcAddr
  | srcLen
  | dstAddr
  | bodyLen
  | txType
  | txCode
  | txCsum
  | txIdent
  | txSeq
  | csumAcc
  | csumRes
  | frameLen
  | rxType
  | rxCode
  | rxCsum
  | rxIdent
  | rxSeq
  | rxBodyAddr
  | rxBodyLen
  | v4Version
  | v4Ihl
  | v4Tos
  | v4TotalLen
  | v4Ident
  | v4FlagsOff
  | v4Ttl
  | v4Proto
  | v4HdrCsum
  | v4Src
  | v4Dst
  | v4HdrLen
  | v4OptAddr
  | v4OptLen
  | v4PayloadAddr
  | v4PayloadLen
  | v6Version
  | v6Tclass
  | v6Flow
  | v6Plen
  | v6Nxt
  | v6Hoplim
  | v6PayloadAddr
  | v6PayloadLen
  | v6Src0
  | v6Src1
  | v6Src2
  | v6Src3
  | v6Dst0
  | v6Dst1
  | v6Dst2
  | v6Dst3
deriving DecidableEq, Repr

/-- The access types of 10_state.md R22, with `STATUS` (RO, bit 1 W1C) and `CMD` (a write starts a command)
apart. -/
inductive RegAccess where
  | rw
  | ro
  | statusW1c
  | startsCommand
deriving DecidableEq, Repr

/-- Byte offsets from `REG_BASE` (10_state.md R21). -/
def Reg.offset : Reg → BitVec 8
  | .ctrl => 0x00#8
  | .status => 0x04#8
  | .cmd => 0x08#8
  | .opa => 0x0C#8
  | .srcAddr => 0x10#8
  | .srcLen => 0x14#8
  | .dstAddr => 0x18#8
  | .bodyLen => 0x1C#8
  | .txType => 0x20#8
  | .txCode => 0x24#8
  | .txCsum => 0x28#8
  | .txIdent => 0x2C#8
  | .txSeq => 0x30#8
  | .csumAcc => 0x34#8
  | .csumRes => 0x38#8
  | .frameLen => 0x3C#8
  | .rxType => 0x40#8
  | .rxCode => 0x44#8
  | .rxCsum => 0x48#8
  | .rxIdent => 0x4C#8
  | .rxSeq => 0x50#8
  | .rxBodyAddr => 0x54#8
  | .rxBodyLen => 0x58#8
  | .v4Version => 0x60#8
  | .v4Ihl => 0x64#8
  | .v4Tos => 0x68#8
  | .v4TotalLen => 0x6C#8
  | .v4Ident => 0x70#8
  | .v4FlagsOff => 0x74#8
  | .v4Ttl => 0x78#8
  | .v4Proto => 0x7C#8
  | .v4HdrCsum => 0x80#8
  | .v4Src => 0x84#8
  | .v4Dst => 0x88#8
  | .v4HdrLen => 0x8C#8
  | .v4OptAddr => 0x90#8
  | .v4OptLen => 0x94#8
  | .v4PayloadAddr => 0x98#8
  | .v4PayloadLen => 0x9C#8
  | .v6Version => 0xA0#8
  | .v6Tclass => 0xA4#8
  | .v6Flow => 0xA8#8
  | .v6Plen => 0xAC#8
  | .v6Nxt => 0xB0#8
  | .v6Hoplim => 0xB4#8
  | .v6PayloadAddr => 0xB8#8
  | .v6PayloadLen => 0xBC#8
  | .v6Src0 => 0xC0#8
  | .v6Src1 => 0xC4#8
  | .v6Src2 => 0xC8#8
  | .v6Src3 => 0xCC#8
  | .v6Dst0 => 0xD0#8
  | .v6Dst1 => 0xD4#8
  | .v6Dst2 => 0xD8#8
  | .v6Dst3 => 0xDC#8

/-- Field widths in bits (10_state.md R21). -/
def Reg.width : Reg → Nat
  | .ctrl => 1
  | .status => 11
  | .cmd => 32
  | .opa => 16
  | .srcAddr => 16
  | .srcLen => 17
  | .dstAddr => 16
  | .bodyLen => 17
  | .txType => 8
  | .txCode => 8
  | .txCsum => 16
  | .txIdent => 16
  | .txSeq => 16
  | .csumAcc => 32
  | .csumRes => 16
  | .frameLen => 17
  | .rxType => 8
  | .rxCode => 8
  | .rxCsum => 16
  | .rxIdent => 16
  | .rxSeq => 16
  | .rxBodyAddr => 17
  | .rxBodyLen => 17
  | .v4Version => 4
  | .v4Ihl => 4
  | .v4Tos => 8
  | .v4TotalLen => 16
  | .v4Ident => 16
  | .v4FlagsOff => 16
  | .v4Ttl => 8
  | .v4Proto => 8
  | .v4HdrCsum => 16
  | .v4Src => 32
  | .v4Dst => 32
  | .v4HdrLen => 6
  | .v4OptAddr => 17
  | .v4OptLen => 6
  | .v4PayloadAddr => 17
  | .v4PayloadLen => 17
  | .v6Version => 4
  | .v6Tclass => 8
  | .v6Flow => 20
  | .v6Plen => 16
  | .v6Nxt => 8
  | .v6Hoplim => 8
  | .v6PayloadAddr => 17
  | .v6PayloadLen => 17
  | .v6Src0 => 32
  | .v6Src1 => 32
  | .v6Src2 => 32
  | .v6Src3 => 32
  | .v6Dst0 => 32
  | .v6Dst1 => 32
  | .v6Dst2 => 32
  | .v6Dst3 => 32

/-- Access types (10_state.md R21, R22). -/
def Reg.access : Reg → RegAccess
  | .ctrl => .rw
  | .status => .statusW1c
  | .cmd => .startsCommand
  | .opa => .rw
  | .srcAddr => .rw
  | .srcLen => .rw
  | .dstAddr => .rw
  | .bodyLen => .rw
  | .txType => .rw
  | .txCode => .rw
  | .txCsum => .rw
  | .txIdent => .rw
  | .txSeq => .rw
  | .csumAcc => .ro
  | .csumRes => .ro
  | .frameLen => .ro
  | .rxType => .ro
  | .rxCode => .ro
  | .rxCsum => .ro
  | .rxIdent => .ro
  | .rxSeq => .ro
  | .rxBodyAddr => .ro
  | .rxBodyLen => .ro
  | .v4Version => .ro
  | .v4Ihl => .ro
  | .v4Tos => .ro
  | .v4TotalLen => .ro
  | .v4Ident => .ro
  | .v4FlagsOff => .ro
  | .v4Ttl => .ro
  | .v4Proto => .ro
  | .v4HdrCsum => .ro
  | .v4Src => .ro
  | .v4Dst => .ro
  | .v4HdrLen => .ro
  | .v4OptAddr => .ro
  | .v4OptLen => .ro
  | .v4PayloadAddr => .ro
  | .v4PayloadLen => .ro
  | .v6Version => .ro
  | .v6Tclass => .ro
  | .v6Flow => .ro
  | .v6Plen => .ro
  | .v6Nxt => .ro
  | .v6Hoplim => .ro
  | .v6PayloadAddr => .ro
  | .v6PayloadLen => .ro
  | .v6Src0 => .ro
  | .v6Src1 => .ro
  | .v6Src2 => .ro
  | .v6Src3 => .ro
  | .v6Dst0 => .ro
  | .v6Dst1 => .ro
  | .v6Dst2 => .ro
  | .v6Dst3 => .ro

/-- The registers in the order of their offsets, the control, operand and checksum registers first. -/
def Reg.hostAndChecksum : List Reg :=
  [.ctrl, .status, .cmd, .opa, .srcAddr, .srcLen, .dstAddr, .bodyLen, .txType, .txCode, .txCsum,
   .txIdent, .txSeq, .csumAcc, .csumRes, .frameLen]

/-- The result banks' registers in the order of their offsets. -/
def Reg.banks : List Reg :=
  [.rxType, .rxCode, .rxCsum, .rxIdent, .rxSeq, .rxBodyAddr, .rxBodyLen, .v4Version, .v4Ihl, .v4Tos,
   .v4TotalLen, .v4Ident, .v4FlagsOff, .v4Ttl, .v4Proto, .v4HdrCsum, .v4Src, .v4Dst, .v4HdrLen,
   .v4OptAddr, .v4OptLen, .v4PayloadAddr, .v4PayloadLen, .v6Version, .v6Tclass, .v6Flow, .v6Plen,
   .v6Nxt, .v6Hoplim, .v6PayloadAddr, .v6PayloadLen, .v6Src0, .v6Src1, .v6Src2, .v6Src3, .v6Dst0,
   .v6Dst1, .v6Dst2, .v6Dst3]

/-- All 55 registers. -/
def Reg.all : List Reg :=
  Reg.hostAndChecksum ++ Reg.banks

/-- The register at an offset; none at the nine reserved slots and between slots (10_state.md R21, R23). -/
def Reg.ofOffset (off : BitVec 8) : Option Reg :=
  Reg.all.find? (fun r => r.offset == off)

/-- What a register holds, zero-extended to 32 bits (10_state.md R22). -/
def readReg (s : State) : Reg → Word
  | .ctrl => (bitOf s.irqEn).setWidth 32
  | .status => s.status.toWord
  | .cmd => s.cmd
  | .opa => (s.opnd.opa).setWidth 32
  | .srcAddr => (s.opnd.srcAddr).setWidth 32
  | .srcLen => (s.opnd.srcLen).setWidth 32
  | .dstAddr => (s.opnd.dstAddr).setWidth 32
  | .bodyLen => (s.opnd.bodyLen).setWidth 32
  | .txType => (s.opnd.txType).setWidth 32
  | .txCode => (s.opnd.txCode).setWidth 32
  | .txCsum => (s.opnd.txCsum).setWidth 32
  | .txIdent => (s.opnd.txIdent).setWidth 32
  | .txSeq => (s.opnd.txSeq).setWidth 32
  | .csumAcc => s.csumAcc
  | .csumRes => (s.csumRes).setWidth 32
  | .frameLen => (s.frameLen).setWidth 32
  | .rxType => (s.rx.type).setWidth 32
  | .rxCode => (s.rx.code).setWidth 32
  | .rxCsum => (s.rx.csum).setWidth 32
  | .rxIdent => (s.rx.ident).setWidth 32
  | .rxSeq => (s.rx.seq).setWidth 32
  | .rxBodyAddr => (s.rx.bodyAddr).setWidth 32
  | .rxBodyLen => (s.rx.bodyLen).setWidth 32
  | .v4Version => (s.v4.version).setWidth 32
  | .v4Ihl => (s.v4.ihl).setWidth 32
  | .v4Tos => (s.v4.tos).setWidth 32
  | .v4TotalLen => (s.v4.totalLen).setWidth 32
  | .v4Ident => (s.v4.ident).setWidth 32
  | .v4FlagsOff => (s.v4.flagsOff).setWidth 32
  | .v4Ttl => (s.v4.ttl).setWidth 32
  | .v4Proto => (s.v4.proto).setWidth 32
  | .v4HdrCsum => (s.v4.hdrCsum).setWidth 32
  | .v4Src => s.v4.src
  | .v4Dst => s.v4.dst
  | .v4HdrLen => (s.v4.hdrLen).setWidth 32
  | .v4OptAddr => (s.v4.optAddr).setWidth 32
  | .v4OptLen => (s.v4.optLen).setWidth 32
  | .v4PayloadAddr => (s.v4.payloadAddr).setWidth 32
  | .v4PayloadLen => (s.v4.payloadLen).setWidth 32
  | .v6Version => (s.v6.version).setWidth 32
  | .v6Tclass => (s.v6.tclass).setWidth 32
  | .v6Flow => (s.v6.flow).setWidth 32
  | .v6Plen => (s.v6.plen).setWidth 32
  | .v6Nxt => (s.v6.nxt).setWidth 32
  | .v6Hoplim => (s.v6.hoplim).setWidth 32
  | .v6PayloadAddr => (s.v6.payloadAddr).setWidth 32
  | .v6PayloadLen => (s.v6.payloadLen).setWidth 32
  | .v6Src0 => s.v6.src0
  | .v6Src1 => s.v6.src1
  | .v6Src2 => s.v6.src2
  | .v6Src3 => s.v6.src3
  | .v6Dst0 => s.v6.dst0
  | .v6Dst1 => s.v6.dst1
  | .v6Dst2 => s.v6.dst2
  | .v6Dst3 => s.v6.dst3

/-- What a read of an offset returns: a reserved slot reads as 0 (10_state.md R23). -/
def readOffset (s : State) (off : BitVec 8) : Word :=
  match Reg.ofOffset off with
  | some r => readReg s r
  | none => 0#32

/-- A host write of `STATUS`: bit 1 set clears `DONE`, nothing else happens (10_state.md R22, R27). -/
def State.ackDone (s : State) (v : Word) : State :=
  { s with status := { s.status with done := s.status.done && !v.getLsbD 1 } }

/-- A host write of a register while `BUSY = 0`: an RW field stores the value cut to its width, an RO
register ignores it, `STATUS` clears `DONE`, `CMD` starts a command (10_state.md R22, R24, R27, R32,
60_exceptions.md R204). -/
def writeReg (s : State) (v : Word) : Reg → State
  | .ctrl => { s with irqEn := v.getLsbD 0 }
  | .status => s.ackDone v
  | .cmd => s.start v
  | .opa => { s with opnd := { s.opnd with opa := v.setWidth 16 } }
  | .srcAddr => { s with opnd := { s.opnd with srcAddr := v.setWidth 16 } }
  | .srcLen => { s with opnd := { s.opnd with srcLen := v.setWidth 17 } }
  | .dstAddr => { s with opnd := { s.opnd with dstAddr := v.setWidth 16 } }
  | .bodyLen => { s with opnd := { s.opnd with bodyLen := v.setWidth 17 } }
  | .txType => { s with opnd := { s.opnd with txType := v.setWidth 8 } }
  | .txCode => { s with opnd := { s.opnd with txCode := v.setWidth 8 } }
  | .txCsum => { s with opnd := { s.opnd with txCsum := v.setWidth 16 } }
  | .txIdent => { s with opnd := { s.opnd with txIdent := v.setWidth 16 } }
  | .txSeq => { s with opnd := { s.opnd with txSeq := v.setWidth 16 } }
  | .csumAcc => s
  | .csumRes => s
  | .frameLen => s
  | .rxType => s
  | .rxCode => s
  | .rxCsum => s
  | .rxIdent => s
  | .rxSeq => s
  | .rxBodyAddr => s
  | .rxBodyLen => s
  | .v4Version => s
  | .v4Ihl => s
  | .v4Tos => s
  | .v4TotalLen => s
  | .v4Ident => s
  | .v4FlagsOff => s
  | .v4Ttl => s
  | .v4Proto => s
  | .v4HdrCsum => s
  | .v4Src => s
  | .v4Dst => s
  | .v4HdrLen => s
  | .v4OptAddr => s
  | .v4OptLen => s
  | .v4PayloadAddr => s
  | .v4PayloadLen => s
  | .v6Version => s
  | .v6Tclass => s
  | .v6Flow => s
  | .v6Plen => s
  | .v6Nxt => s
  | .v6Hoplim => s
  | .v6PayloadAddr => s
  | .v6PayloadLen => s
  | .v6Src0 => s
  | .v6Src1 => s
  | .v6Src2 => s
  | .v6Src3 => s
  | .v6Dst0 => s
  | .v6Dst1 => s
  | .v6Dst2 => s
  | .v6Dst3 => s

/-- A host write at an offset: a reserved slot ignores it (10_state.md R23). -/
def writeOffset (s : State) (off : BitVec 8) (v : Word) : State :=
  match Reg.ofOffset off with
  | some r => writeReg s v r
  | none => s

end Sys2Proof.Machine
end

