-- ==== Sys2Proof/Machine/HostPort.lean ====
section
/-! DEFINITION. The host's accesses: which are part of the interface, what they do while the block is idle
and while it is busy, and where the two spaces sit in the host's address map
(20_memory.md R60-R64, R70, 70_reset_and_hazards.md R240, R241, 60_exceptions.md R219). -/

namespace Sys2Proof.Machine

/-- A register access is a whole aligned 32-bit word (20_memory.md R64). -/
def regAccessOk (off : BitVec 8) (width : Nat) : Bool :=
  width == 32 && off.toNat % 4 == 0

/-- A buffer access is one byte (20_memory.md R61). -/
def bufAccessOk (width : Nat) : Bool :=
  width == 8

/-- The offsets whose read while `BUSY = 1` returns the current value: `STATUS` and `CMD`
(70_reset_and_hazards.md R240). No other read is defined then, of a reserved offset either (20_memory.md R69,
log 5). -/
def readableWhileBusy (off : BitVec 8) : Bool :=
  match Reg.ofOffset off with
  | some .status => true
  | some .cmd => true
  | some _ => false
  | none => false

/-- The host receives what a read returned (log 3). -/
def State.replied (s : State) (r : Reply) : State :=
  s.withHost { s.host with reply := r }

/-- The host receives a free value, and the counter of free values advances (log 4). -/
def State.repliedFree (s : State) (r : Reply) : State :=
  s.withHost { s.host with reply := r, freeIndex := s.host.freeIndex + 1 }

/-- A host read of a register or of a reserved offset (10_state.md R22, R23, 70_reset_and_hazards.md R240, R241, log 5). An ill-formed read is
`HostBadAccess` while busy too: DESIGN CHOICE, the spec gives neither rule precedence (log 7). -/
def hostRegRead (off : BitVec 8) (width : Nat) (s : State) : Host.Outcome State Fault Refusal :=
  if !regAccessOk off width then .fault .hostBadAccess
  else if s.status.busy && !readableWhileBusy off then
    .next (s.repliedFree (.word (Config.freeWord s.host.freeIndex)))
  else .next (s.replied (.word (readOffset s off)))

/-- A host write of a register; the fault of one both ill-formed and made while busy is log 7
(10_state.md R22, 70_reset_and_hazards.md R240). -/
def hostRegWrite (off : BitVec 8) (width : Nat) (v : Word) (s : State) : Host.Outcome State Fault Refusal :=
  if !regAccessOk off width then .fault .hostBadAccess
  else if s.status.busy then .fault .hostBusyViolation
  else .next ((writeOffset s off v).replied .nothing)

/-- A host read of a buffer byte (20_memory.md R61, R62, 70_reset_and_hazards.md R241, log 6). An ill-formed read is
`HostBadAccess` while busy too: DESIGN CHOICE, the spec gives neither rule precedence (log 7). -/
def hostBufRead (addr : Half) (width : Nat) (s : State) : Host.Outcome State Fault Refusal :=
  if !bufAccessOk width then .fault .hostBadAccess
  else if s.status.busy then .next (s.repliedFree (.byte (Config.freeByte s.host.freeIndex)))
  else
    match s.mem.byteAt addr.toNat with
    | some b => .next (s.replied (.byte b))
    | none => .fault .uninitRead

/-- A host write of a buffer byte; the fault of one both ill-formed and made while busy is log 7
(20_memory.md R61, 70_reset_and_hazards.md R240). -/
def hostBufWrite (addr : Half) (width : Nat) (v : Word) (s : State) : Host.Outcome State Fault Refusal :=
  if !bufAccessOk width then .fault .hostBadAccess
  else if s.status.busy then .fault .hostBusyViolation
  else .next ((s.withMem (s.mem.write addr.toNat (v.setWidth 8))).replied .nothing)

/-- One access of the host (00_scope.md R11). -/
def hostAccess (a : HostAccess) (s : State) : Host.Outcome State Fault Refusal :=
  match a with
  | .regRead off width => hostRegRead off width s
  | .regWrite off width v => hostRegWrite off width v s
  | .bufRead addr width => hostBufRead addr width s
  | .bufWrite addr width v => hostBufWrite addr width v s

/-! ### The host's address map -/

/-- A place in one of the two spaces (20_memory.md R60). -/
inductive Target where
  | reg (off : BitVec 8)
  | buf (addr : Half)
deriving DecidableEq, Repr

/-- The host address of a place: `REG_BASE + off`, `BUF_BASE + a` (20_memory.md R60). -/
def hostAddress (p : Config.Platform) : Target → Nat
  | .reg off => p.regBase + off.toNat
  | .buf a => p.bufBase + a.toNat

/-- The place a host address names, if it lies in one of the two spaces; where a platform lets them
overlap, the register space is taken (20_memory.md R60, R77, log 12). -/
def targetOf (p : Config.Platform) (addr : Nat) : Option Target :=
  if p.regBase ≤ addr ∧ addr < p.regBase + 256 then
    some (.reg (BitVec.ofNat 8 (addr - p.regBase)))
  else if p.bufBase ≤ addr ∧ addr < p.bufBase + Config.bufSize then
    some (.buf (BitVec.ofNat 16 (addr - p.bufBase)))
  else none

/-- A host read at a host address, if it reaches the block. -/
def readAt (p : Config.Platform) (addr width : Nat) : Option HostAccess :=
  match targetOf p addr with
  | some (.reg off) => some (.regRead off width)
  | some (.buf a) => some (.bufRead a width)
  | none => none

/-- A host write at a host address, if it reaches the block. -/
def writeAt (p : Config.Platform) (addr width : Nat) (v : Word) : Option HostAccess :=
  match targetOf p addr with
  | some (.reg off) => some (.regWrite off width v)
  | some (.buf a) => some (.bufWrite a width v)
  | none => none

end Sys2Proof.Machine
end

