-- ==== Sys2Proof/Machine/Agents.lean ====
section
/-! DEFINITION. The two agents and the reset input, one move at a time (00_scope.md R11, R12,
60_exceptions.md R203, 70_reset_and_hazards.md R232, R248). -/

namespace Sys2Proof.Machine

/-- `BlockStep`, taken while `BUSY = 1`: the command named by `CMD` runs whole; an illegal word completes with
`ILLEGAL_COMMAND` and no other effect (60_exceptions.md R203, 30_encoding.md R85). -/
def blockStep (s : State) : Host.Outcome State Fault Refusal :=
  match decode s.cmd with
  | .ok i => exec i s
  | .error _ => .next (s.fail .illegalCommand false)

/-- The block's turn: nothing happens while no command is pending (00_scope.md R11, 70_reset_and_hazards.md R233). -/
def blockTurn (s : State) : Host.Outcome State Fault Refusal :=
  if s.status.busy then blockStep s else .next s

/-- The agenda without its first move. -/
def State.setAgenda (s : State) (rest : List Event) : State :=
  s.withHost { s.host with agenda := rest }

/-- One move: the first of the agenda, or the block's turn when the agenda is empty (log 1, log 2). -/
def advance (s : State) : Host.Outcome State Fault Refusal :=
  match s.host.agenda with
  | [] => blockTurn s
  | .block :: rest => blockTurn (s.setAgenda rest)
  | .host a :: rest => hostAccess a (s.setAgenda rest)
  | .reset :: rest => .next (s.setAgenda rest).resetBlock

/-- The agenda after which the block moves next: its turn goes before the moves to come, if there are any. -/
def blockFirst : List Event → List Event
  | [] => []
  | e :: rest => .block :: e :: rest

end Sys2Proof.Machine
end

