-- ==== Sys2Proof/Machine/Step.lean ====
section
/-! DEFINITION. The step, and how a command word comes to be the next one the block runs (log 11). -/

namespace Sys2Proof.Machine

/-- One step of the machine: one move of one agent (00_scope.md R11). -/
def step (s : State) : Host.Outcome State Fault Refusal :=
  advance s

/-- The command word `w` written to `CMD` (60_exceptions.md R204), and the block's turn next. The block fetches
nothing (20_memory.md R74): the CMD write is how an instruction reaches it (log 11). -/
def State.withFetchWord (s : State) (nbits w : Nat) : State :=
  (s.start (BitVec.ofNat 32 (w % 2 ^ nbits))).setAgenda (blockFirst s.host.agenda)

end Sys2Proof.Machine
end

