-- ==== Sys2Proof/Machine/HostProgram.lean ====
section
/-! DEFINITION. The host agent's language above the machine: the assembler's spellings (30_encoding.md R88), the
pseudo-instructions (R89), the statements of host programs and the run of a program against the block (R90),
and what the host makes of the results (R89 `csum.verify`, 41_icmp_codec.md R125). Variables, labels and
jumps are the host's; the block sees only the accesses. How they are represented is log 13. -/

namespace Sys2Proof.Machine

/-! ### Spellings (R88) -/

/-- The assembler's mnemonics (30_encoding.md R88). -/
def spelling : Instr → String
  | .nop => "nop"
  | .csumClr => "csum.clr"
  | .csumAddw => "csum.addw"
  | .csumAddb => "csum.addb"
  | .csumFin => "csum.fin"
  | .csumBuf => "csum.buf"
  | .icmpEnc => "icmp.enc"
  | .echoBuildV4 => "echo.build.v4"
  | .echoBuildV6 => "echo.build.v6"
  | .icmpDec => "icmp.dec"
  | .ipv4Dec => "ipv4.dec"
  | .ipv6Dec => "ipv6.dec"
  | .rxParseV4 => "rx.parse.v4"
  | .rxParseV6 => "rx.parse.v6"

/-- The fourteen commands (30_encoding.md R86). -/
def allInstr : List Instr :=
  [.nop, .csumClr, .csumAddw, .csumAddb, .csumFin, .csumBuf, .icmpEnc, .echoBuildV4, .echoBuildV6, .icmpDec,
    .ipv4Dec, .ipv6Dec, .rxParseV4, .rxParseV6]

/-- The command a mnemonic names; a bare `echo.build` or `rx.parse` is an assembly error (30_encoding.md R88). -/
def ofSpelling (m : String) : Option Instr :=
  allInstr.find? (fun i => spelling i == m)

/-! ### Statements (R90) and pseudo-instructions (R89) -/

/-- A label: one of the program's own, or the local label of the `k`-th `wait` (30_encoding.md R89). -/
inductive Label where
  | named (l : String)
  | wait (k : Nat)
deriving DecidableEq, Repr

/-- Conditions over host variables (30_encoding.md R89, R90). R90 gives no grammar of `<cond>`: DESIGN CHOICE, exactly the
shapes that the spec's own programs use, a bit test, a field or a variable compared with a number, and `or` (log 13). -/
inductive Cond where
  /-- `t[i] == b` -/
  | bitIs (t : String) (i : Nat) (b : Bool)
  /-- `t[hi:lo] != v` -/
  | fieldNot (t : String) (hi lo v : Nat)
  /-- `t != v` -/
  | isNot (t : String) (v : Nat)
  | or (c d : Cond)
deriving DecidableEq, Repr

/-- The statements of a host program (30_encoding.md R90). R90 does not say what a `v`, `a`, `n` or byte may be: DESIGN
CHOICE, a number written in the program, never a host variable (log 13). -/
inductive HostStmt where
  | wr (r : Reg) (v : Word)
  | rd (r : Reg) (t : String)
  | wrb (a : Nat) (bytes : List Byte)
  | rdb (a n : Nat) (t : String)
  | cmd (mnemonic : String)
  | label (l : Label)
  | goto (l : Label)
  | ifGoto (c : Cond) (l : Label)
  | halt
deriving DecidableEq, Repr

/-- The pseudo-instructions (30_encoding.md R89). Their operands are numbers written in the program, as a statement's are:
DESIGN CHOICE (log 13). -/
inductive HostPseudo where
  | wait
  | ack
  | run (mnemonic : String)
  | csumWord (v : Word)
  | csumSpan (a n : Word)
  | csumVerify (a n : Word)
  | echoRequest (fam : Family) (d n ident seq : Word)
  | rx (fam : Family) (a n : Word)
deriving DecidableEq, Repr

/-- A line of a host program. -/
inductive HostLine where
  | stmt (s : HostStmt)
  | pseudo (p : HostPseudo)
deriving DecidableEq, Repr

/-- `wait`: read STATUS until `BUSY` is 0 (30_encoding.md R89). -/
def expandWait (k : Nat) : List HostStmt :=
  [.label (.wait k), .rd .status "t", .ifGoto (.bitIs "t" 0 true) (.wait k)]

/-- `run <cmd>` (30_encoding.md R89). -/
def expandRun (k : Nat) (mnemonic : String) : List HostStmt :=
  .cmd mnemonic :: expandWait k

/-- The expansions; `k` makes the local label of a `wait` unique (30_encoding.md R89). -/
def expandPseudo (k : Nat) : HostPseudo → List HostStmt
  | .wait => expandWait k
  | .ack => [.wr .status 0x2#32]
  | .run m => expandRun k m
  | .csumWord v => .wr .opa v :: expandRun k "csum.addw"
  | .csumSpan a n => .wr .srcAddr a :: .wr .srcLen n :: expandRun k "csum.addb"
  | .csumVerify a n =>
    .wr .srcAddr a :: .wr .srcLen n :: (expandRun k "csum.buf" ++ [.rd .status "t"])
  | .echoRequest fam d n ident seq =>
    .wr .dstAddr d :: .wr .bodyLen n :: .wr .txIdent ident :: .wr .txSeq seq ::
      expandRun k (match fam with | .v4 => "echo.build.v4" | .v6 => "echo.build.v6")
  | .rx fam a n =>
    .wr .srcAddr a :: .wr .srcLen n ::
      expandRun k (match fam with | .v4 => "rx.parse.v4" | .v6 => "rx.parse.v6")

/-- A program's statements; each line's number serves as the `k` of its expansion. -/
def expandFrom (k : Nat) : List HostLine → List HostStmt
  | [] => []
  | .stmt s :: ls => s :: expandFrom (k + 1) ls
  | .pseudo p :: ls => expandPseudo k p ++ expandFrom (k + 1) ls

/-! ### Assembling -/

/-- What the host does in one turn: one access, or one move of its own control flow. -/
inductive HostOp where
  | store (a : HostAccess)
  | load (a : HostAccess) (t : String)
  | clear (t : String)
  | append (a : HostAccess) (t : String)
  | label (l : Label)
  | goto (l : Label)
  | ifGoto (c : Cond) (l : Label)
  | halt
deriving DecidableEq, Repr

/-- One-byte writes of the bytes at consecutive addresses (30_encoding.md R90). -/
def storeBytes : Nat → List Byte → List HostOp
  | _, [] => []
  | a, b :: bs => .store (.bufWrite (BitVec.ofNat 16 a) 8 (b.setWidth 32)) :: storeBytes (a + 1) bs

/-- `n` one-byte reads from an address on (30_encoding.md R90). -/
def loadBytes (t : String) : Nat → Nat → List HostOp
  | _, 0 => []
  | a, n + 1 => .append (.bufRead (BitVec.ofNat 16 a) 8) t :: loadBytes t (a + 1) n

/-- A statement's moves; none for an unknown mnemonic or bytes outside the buffer (30_encoding.md R88, R90). -/
def assembleStmt : HostStmt → Option (List HostOp)
  | .wr r v => some [.store (.regWrite r.offset 32 v)]
  | .rd r t => some [.load (.regRead r.offset 32) t]
  | .wrb a bytes => if a + bytes.length ≤ Config.bufSize then some (storeBytes a bytes) else none
  | .rdb a n t => if a + n ≤ Config.bufSize then some (.clear t :: loadBytes t a n) else none
  | .cmd m =>
    match ofSpelling m with
    | some i => some [.store (.regWrite Reg.cmd.offset 32 (encode i))]
    | none => none
  | .label l => some [.label l]
  | .goto l => some [.goto l]
  | .ifGoto c l => some [.ifGoto c l]
  | .halt => some [.halt]

/-- The moves of a list of statements. -/
def assembleStmts : List HostStmt → Option (List HostOp)
  | [] => some []
  | s :: ss =>
    match assembleStmt s, assembleStmts ss with
    | some ops, some rest => some (ops ++ rest)
    | _, _ => none

/-- Where a label stands. A label defined twice, on which the spec is silent, is accepted and stands at its first
place: DESIGN CHOICE (log 13). -/
def labelIndex (l : Label) : List HostOp → Option Nat
  | [] => none
  | op :: ops => if op = .label l then some 0 else (labelIndex l ops).map (· + 1)

/-- The label a move jumps to. -/
def HostOp.target : HostOp → Option Label
  | .goto l => some l
  | .ifGoto _ l => some l
  | _ => none

/-- Every jump has its label in the program. -/
def labelsDefined (ops : List HostOp) : Bool :=
  ops.all fun op =>
    match op.target with
    | some l => (labelIndex l ops).isSome
    | none => true

/-- The assembler: the moves of a program, or an assembly error. -/
def assemble (lines : List HostLine) : Option (List HostOp) :=
  match assembleStmts (expandFrom 0 lines) with
  | some ops => if labelsDefined ops then some ops else none
  | none => none

/-! ### Running a program against the block -/

/-- The host agent with its program, and the block it drives. A variable holds the values read into it, the
last `rd` alone or the bytes of the last `rdb` in order. -/
structure HostRun where
  ops : List HostOp
  pc : Nat
  vars : List (String × List Word)
  halted : Bool
  block : State
deriving DecidableEq, Repr

/-- A program at its first statement. -/
def HostRun.init (ops : List HostOp) (s : State) : HostRun where
  ops := ops
  pc := 0
  vars := []
  halted := false
  block := s

/-- What a variable holds. -/
def varValues (vars : List (String × List Word)) (t : String) : List Word :=
  match vars.find? (fun p => p.1 == t) with
  | some p => p.2
  | none => []

/-- A variable set. -/
def setVar (vars : List (String × List Word)) (t : String) (vs : List Word) : List (String × List Word) :=
  (t, vs) :: vars.filter (fun p => p.1 != t)

/-- The value of a variable as one word, for a condition. The spec does not say what a condition over the bytes of an
`rdb` tests: DESIGN CHOICE, the first of them, and 0 where there is none (an `rdb` of length 0, or no read yet,
log 13). -/
def varWord (vars : List (String × List Word)) (t : String) : Word :=
  ((varValues vars t).head?).getD 0#32

/-- Whether a condition holds. -/
def evalCond (vars : List (String × List Word)) : Cond → Bool
  | .bitIs t i b => (varWord vars t).getLsbD i == b
  | .fieldNot t hi lo v => (varWord vars t).toNat / 2 ^ lo % 2 ^ (hi + 1 - lo) != v
  | .isNot t v => (varWord vars t).toNat != v
  | .or c d => evalCond vars c || evalCond vars d

/-- What a reply is as a value. -/
def Reply.toWord : Reply → Word
  | .nothing => 0#32
  | .word v => v
  | .byte b => b.setWidth 32

/-- The host makes an access and goes on with what it returned. -/
def HostRun.access (h : HostRun) (a : HostAccess) (after : State → HostRun) :
    Host.Outcome HostRun Fault Refusal :=
  match hostAccess a h.block with
  | .next s => .next (after s)
  | .fault f => .fault f
  | .refused r => .refused r

/-- The host jumps; a label the program does not have ends it (log 13). -/
def HostRun.jump (h : HostRun) (l : Label) : HostRun :=
  match labelIndex l h.ops with
  | some n => { h with pc := n }
  | none => { h with halted := true }

/-- One turn of the host (30_encoding.md R90). The spec ends a program at its `halt` and does not say what a program
without one does at its end: DESIGN CHOICE, running past the last statement is a halt (log 13). -/
def HostRun.hostTurn (h : HostRun) : Host.Outcome HostRun Fault Refusal :=
  if h.halted then .next h
  else
    match h.ops[h.pc]? with
    | none => .next { h with halted := true }
    | some (.store a) => h.access a fun s => { h with pc := h.pc + 1, block := s }
    | some (.load a t) =>
      h.access a fun s => { h with pc := h.pc + 1, block := s, vars := setVar h.vars t [s.host.reply.toWord] }
    | some (.clear t) => .next { h with pc := h.pc + 1, vars := setVar h.vars t [] }
    | some (.append a t) =>
      h.access a fun s =>
        { h with pc := h.pc + 1, block := s, vars := setVar h.vars t (varValues h.vars t ++ [s.host.reply.toWord]) }
    | some (.label _) => .next { h with pc := h.pc + 1 }
    | some (.goto l) => .next (h.jump l)
    | some (.ifGoto c l) => .next (if evalCond h.vars c then h.jump l else { h with pc := h.pc + 1 })
    | some .halt => .next { h with halted := true }

/-- One turn of the block. -/
def HostRun.blockTurn (h : HostRun) : Host.Outcome HostRun Fault Refusal :=
  match Sys2Proof.Machine.blockTurn h.block with
  | .next s => .next { h with block := s }
  | .fault f => .fault f
  | .refused r => .refused r

/-- The end of a run: the host has halted and `BUSY = 0` (30_encoding.md R90). -/
def HostRun.final (h : HostRun) : Bool :=
  h.halted && !h.block.status.busy

/-- Turns in an order given by plain data: `true` is the host's, `false` the block's. -/
def HostRun.turns (h : HostRun) : List Bool → Host.Outcome HostRun Fault Refusal
  | [] => .next h
  | who :: rest =>
    match (if who then h.hostTurn else h.blockTurn) with
    | .next h' => h'.turns rest
    | .fault f => .fault f
    | .refused r => .refused r

/-! ### What the host makes of the results -/

/-- `csum.verify`: the message is valid iff `t[8] == 1` and `t[7:4] == 0` (30_encoding.md R89). -/
def verifyValid (t : Word) : Bool :=
  t.getLsbD 8 && t.extractLsb' 4 4 == 0#4

/-- The host's match of a decoded reply; the block has no such command and no state depends on it
(41_icmp_codec.md R125). -/
def replyMatches (fam : Family) (ident seq : Half) (s : State) : Bool :=
  s.rx.type == replyType fam && s.rx.ident == ident && s.rx.seq == seq

end Sys2Proof.Machine
end

