-- ==== Sys2Proof/Safety.lean ====
section
/-! DEFINITION. The terms claims are written in: the invariant of a state, what a span of the buffer holds, the
checksum sum of bytes said independently of the machine, the bytes a command reads and writes
(20_memory.md R67), the errors a command may raise (60_exceptions.md R202), and reachability. -/

namespace Sys2Proof.Safety

open Sys2Proof.Machine

/-! ### The invariant -/

/-- A header bank that is still at reset or holds a header that passed its checks
(42_ipv4_decoder.md R141-R143). -/
def v4BankOk (b : Ipv4Bank) : Prop :=
  b = Ipv4Bank.reset ∨
    (b.version = 4#4 ∧ 5 ≤ b.ihl.toNat ∧ b.hdrLen.toNat = 4 * b.ihl.toNat
      ∧ b.optLen.toNat = 4 * b.ihl.toNat - 20
      ∧ b.payloadAddr.toNat + 20 = b.optAddr.toNat + b.hdrLen.toNat
      ∧ b.payloadAddr.toNat + b.payloadLen.toNat ≤ 65536)

/-- The IPv6 bank is still at reset or holds a header that passed its checks (43_ipv6_decoder.md R161). -/
def v6BankOk (b : Ipv6Bank) : Prop :=
  b = Ipv6Bank.reset ∨
    (b.version = 6#4 ∧ 40 ≤ b.payloadAddr.toNat ∧ b.payloadAddr.toNat + b.payloadLen.toNat ≤ 65536)

/-- What holds of every state a run reaches. -/
structure Inv (s : State) : Prop where
  /-- the buffer is in its canonical form, every address inside it (10_state.md R52) -/
  memCanonical : s.mem.wf = true
  /-- codes 6-15 are never produced (60_exceptions.md R201) -/
  errLegal : s.status.err.toNat ≤ 5
  /-- while a command is pending, DONE, ERR and ESTG read 0 (70_reset_and_hazards.md R240) -/
  busyQuiet : s.status.busy = true → s.status.done = false ∧ s.status.err = 0#4 ∧ s.status.estg = false
  /-- ESTG only beside `TRUNCATED_INPUT` (44_chain_and_nop.md R181) -/
  stageError : s.status.estg = true → s.status.err = 1#4
  /-- CZ only beside a `CSUM_RES` of 0 (10_state.md R29) -/
  zeroFlag : s.status.cz = true → s.csumRes = 0#16
  /-- a built frame fits the buffer (10_state.md R45, 20_memory.md R68) -/
  frameFits : s.frameLen.toNat ≤ 65536
  /-- a decoded body lies in the buffer (41_icmp_codec.md R124, 20_memory.md R68) -/
  bodyFits : s.rx.bodyAddr.toNat + s.rx.bodyLen.toNat ≤ 65536
  v4Ok : v4BankOk s.v4
  v6Ok : v6BankOk s.v6

/-- STATUS after a completion with a code: ERR, DONE and BUSY written, the rest as it was
(60_exceptions.md R203). -/
def completed (st : Status) (code : BitVec 4) : Status :=
  { st with err := code, done := true, busy := false }

/-! ### Spans -/

/-- The buffer holds these bytes from an address on. -/
def spanHolds (m : Memory) (a : Nat) (bytes : List Byte) : Prop :=
  ∀ k, k < bytes.length → m.byteAt (a + k) = bytes[k]?

/-- Every cell of a span is written. -/
def spanWritten (m : Memory) (a n : Nat) : Prop :=
  ∀ k, k < n → (m.byteAt (a + k)).isSome = true

/-- The big-endian value of bytes (20_memory.md R63). -/
def beValue : List Byte → Nat
  | [] => 0
  | b :: bs => b.toNat * 256 ^ bs.length + beValue bs

/-- The exact sum of the 16-bit words of a byte sequence: pairs big-endian from the start, an odd last byte
as the high byte (00_scope.md R16). Said of bytes, without the machine. -/
def wordSum : List Byte → Nat
  | [] => 0
  | [x] => x.toNat * 256
  | x :: y :: rest => x.toNat * 256 + y.toNat + wordSum rest

/-- The carry fold of an exact sum, two passes (00_scope.md R17). Said of a number, without the machine. -/
def twoPass (n : Nat) : Nat :=
  let t := n / 65536 + n % 65536
  t / 65536 + t % 65536

/-- The finished checksum of an exact sum (00_scope.md R17). -/
def checksumOf (n : Nat) : Half :=
  BitVec.ofNat 16 (0xFFFF - twoPass n)

/-- The more significant byte of a 16-bit field, which stands first on the wire (20_memory.md R63). -/
def hiByte (v : Half) : Byte :=
  v.extractLsb' 8 8

/-- The less significant byte of a 16-bit field. -/
def loByte (v : Half) : Byte :=
  v.extractLsb' 0 8

/-- The wire bytes of an ICMP echo header (41_icmp_codec.md R120). -/
def headerBytes (type code : Byte) (csum ident seq : Half) : List Byte :=
  [type, code, hiByte csum, loByte csum, hiByte ident, loByte ident, hiByte seq, loByte seq]

/-- The big-endian field of `n` bytes at an offset of a header (20_memory.md R63). -/
def field (h : List Byte) (off n : Nat) : Nat :=
  beValue ((h.drop off).take n)

/-! ### What a command reads, writes and raises -/

/-- The checks of the IPv4 stage reach the fixed 20-byte prefix: the first byte is written, its version nibble
is 4, and the header with its options is at least 20 bytes and lies in the span (42_ipv4_decoder.md R141; that a
failed check reads the first byte alone is the model's reading, log 16). -/
def v4Reaches (m : Memory) (a n : Nat) : Prop :=
  ∃ b, m.byteAt a = some b ∧ b.toNat / 16 = 4 ∧ 20 ≤ b.toNat % 16 * 4 ∧ b.toNat % 16 * 4 ≤ n

/-- The checks of the IPv6 rule reach the fixed 40-byte header (43_ipv6_decoder.md R161). -/
def v6Reaches (m : Memory) (a n : Nat) : Prop :=
  ∃ b, m.byteAt a = some b ∧ b.toNat / 16 = 6 ∧ 40 ≤ n

/-- The header length of a span whose first byte is written (42_ipv4_decoder.md R141). -/
def v4HdrLen (m : Memory) (a : Nat) : Nat :=
  match m.byteAt a with
  | some b => b.toNat % 16 * 4
  | none => 0

/-- An address lies in a span. -/
def inSpan (a n x : Nat) : Prop :=
  a ≤ x ∧ x < a + n

/-- The bytes of the source span a command reads once its bounds check has passed (20_memory.md R67, each set as
the command's own rule gives it, log 8, log 16). -/
def readsSource (i : Instr) (m : Memory) (a n x : Nat) : Prop :=
  match i with
  | .csumAddb | .csumBuf => inSpan a n x
  | .icmpDec | .rxParseV6 => 8 ≤ n ∧ inSpan a 8 x
  | .ipv4Dec => 1 ≤ n ∧ (x = a ∨ (v4Reaches m a n ∧ inSpan a 20 x))
  | .ipv6Dec => 1 ≤ n ∧ (x = a ∨ (v6Reaches m a n ∧ inSpan a 40 x))
  | .rxParseV4 =>
    1 ≤ n ∧ (x = a ∨ (v4Reaches m a n ∧
      (inSpan a 20 x ∨ (v4HdrLen m a + 8 ≤ n ∧ inSpan (a + v4HdrLen m a) 8 x))))
  | .nop | .csumClr | .csumAddw | .csumFin | .icmpEnc | .echoBuildV4 | .echoBuildV6 => False

/-- The buffer bytes a command reads (20_memory.md R67, R68). -/
def readsByte (i : Instr) (s : State) (x : Nat) : Prop :=
  match i with
  | .echoBuildV4 | .echoBuildV6 =>
    s.opnd.dstAddr.toNat + 8 + s.opnd.bodyLen.toNat ≤ 65536
      ∧ inSpan (s.opnd.dstAddr.toNat + 8) s.opnd.bodyLen.toNat x
  | .nop | .csumClr | .csumAddw | .csumAddb | .csumFin | .csumBuf | .icmpEnc | .icmpDec | .ipv4Dec | .ipv6Dec
  | .rxParseV4 | .rxParseV6 =>
    s.opnd.srcAddr.toNat + s.opnd.srcLen.toNat ≤ 65536
      ∧ readsSource i s.mem s.opnd.srcAddr.toNat s.opnd.srcLen.toNat x

/-- The buffer bytes a command may write: the 8 header bytes at `DST_ADDR`, or none (20_memory.md R67). -/
def writesByte (i : Instr) (s : State) (x : Nat) : Prop :=
  match i with
  | .icmpEnc | .echoBuildV4 | .echoBuildV6 => inSpan s.opnd.dstAddr.toNat 8 x
  | .nop | .csumClr | .csumAddw | .csumAddb | .csumFin | .csumBuf | .icmpDec | .ipv4Dec | .ipv6Dec | .rxParseV4
  | .rxParseV6 => False

/-- The codes of STATUS.ERR a legal command can end with beside 0 (60_exceptions.md R201, R202). -/
def mayRaise : Instr → List Nat
  | .nop | .csumClr | .csumAddw | .csumFin => []
  | .csumAddb | .csumBuf | .icmpEnc | .echoBuildV4 | .echoBuildV6 => [5]
  | .icmpDec | .rxParseV6 => [1, 5]
  | .ipv4Dec | .rxParseV4 => [1, 2, 3, 5]
  | .ipv6Dec => [1, 3, 5]

/-! ### The register map -/

/-- The STATUS word as a number: BUSY at bit 0, DONE at 1, ERR at 7:4, CZ at 8, OVF at 9, ESTG at 10
(10_state.md R25). -/
def statusValue (st : Status) : Nat :=
  st.busy.toNat + 2 * st.done.toNat + 16 * st.err.toNat + 256 * st.cz.toNat + 512 * st.ovf.toNat +
    1024 * st.estg.toNat

/-- What stands at each of the 55 offsets, as a number: the offset and content columns of 10_state.md R21, written
without the model's own register names. -/
def registerContents (s : State) : List (BitVec 8 × Nat) :=
  [(0x00#8, s.irqEn.toNat), (0x04#8, statusValue s.status), (0x08#8, s.cmd.toNat)] ++
  [(0x0C#8, s.opnd.opa.toNat), (0x10#8, s.opnd.srcAddr.toNat), (0x14#8, s.opnd.srcLen.toNat),
   (0x18#8, s.opnd.dstAddr.toNat), (0x1C#8, s.opnd.bodyLen.toNat), (0x20#8, s.opnd.txType.toNat),
   (0x24#8, s.opnd.txCode.toNat), (0x28#8, s.opnd.txCsum.toNat), (0x2C#8, s.opnd.txIdent.toNat),
   (0x30#8, s.opnd.txSeq.toNat)] ++
  [(0x34#8, s.csumAcc.toNat), (0x38#8, s.csumRes.toNat), (0x3C#8, s.frameLen.toNat)] ++
  [(0x40#8, s.rx.type.toNat), (0x44#8, s.rx.code.toNat), (0x48#8, s.rx.csum.toNat), (0x4C#8, s.rx.ident.toNat),
   (0x50#8, s.rx.seq.toNat), (0x54#8, s.rx.bodyAddr.toNat), (0x58#8, s.rx.bodyLen.toNat)] ++
  [(0x60#8, s.v4.version.toNat), (0x64#8, s.v4.ihl.toNat), (0x68#8, s.v4.tos.toNat),
   (0x6C#8, s.v4.totalLen.toNat), (0x70#8, s.v4.ident.toNat), (0x74#8, s.v4.flagsOff.toNat),
   (0x78#8, s.v4.ttl.toNat), (0x7C#8, s.v4.proto.toNat), (0x80#8, s.v4.hdrCsum.toNat), (0x84#8, s.v4.src.toNat),
   (0x88#8, s.v4.dst.toNat), (0x8C#8, s.v4.hdrLen.toNat), (0x90#8, s.v4.optAddr.toNat),
   (0x94#8, s.v4.optLen.toNat), (0x98#8, s.v4.payloadAddr.toNat), (0x9C#8, s.v4.payloadLen.toNat)] ++
  [(0xA0#8, s.v6.version.toNat), (0xA4#8, s.v6.tclass.toNat), (0xA8#8, s.v6.flow.toNat),
   (0xAC#8, s.v6.plen.toNat), (0xB0#8, s.v6.nxt.toNat), (0xB4#8, s.v6.hoplim.toNat),
   (0xB8#8, s.v6.payloadAddr.toNat), (0xBC#8, s.v6.payloadLen.toNat), (0xC0#8, s.v6.src0.toNat),
   (0xC4#8, s.v6.src1.toNat), (0xC8#8, s.v6.src2.toNat), (0xCC#8, s.v6.src3.toNat), (0xD0#8, s.v6.dst0.toNat),
   (0xD4#8, s.v6.dst1.toNat), (0xD8#8, s.v6.dst2.toNat), (0xDC#8, s.v6.dst3.toNat)]

/-- What a host write of `v` to each RW field leaves: the offsets and widths of 10_state.md R21, the value cut to
the field (R22). `CMD`, whose write starts a command, is not among them (R32). -/
def fieldWrites (s : State) (v : Word) : List (BitVec 8 × State) :=
  [(0x00#8, { s with irqEn := decide (v.toNat % 2 = 1) }),
   (0x0C#8, { s with opnd := { s.opnd with opa := BitVec.ofNat 16 v.toNat } }),
   (0x10#8, { s with opnd := { s.opnd with srcAddr := BitVec.ofNat 16 v.toNat } }),
   (0x14#8, { s with opnd := { s.opnd with srcLen := BitVec.ofNat 17 v.toNat } }),
   (0x18#8, { s with opnd := { s.opnd with dstAddr := BitVec.ofNat 16 v.toNat } }),
   (0x1C#8, { s with opnd := { s.opnd with bodyLen := BitVec.ofNat 17 v.toNat } }),
   (0x20#8, { s with opnd := { s.opnd with txType := BitVec.ofNat 8 v.toNat } }),
   (0x24#8, { s with opnd := { s.opnd with txCode := BitVec.ofNat 8 v.toNat } }),
   (0x28#8, { s with opnd := { s.opnd with txCsum := BitVec.ofNat 16 v.toNat } }),
   (0x2C#8, { s with opnd := { s.opnd with txIdent := BitVec.ofNat 16 v.toNat } }),
   (0x30#8, { s with opnd := { s.opnd with txSeq := BitVec.ofNat 16 v.toNat } })]

/-! ### Runs -/

/-- One command after another. -/
def andThen (o : Host.Outcome State Fault Refusal) (f : State → Host.Outcome State Fault Refusal) :
    Host.Outcome State Fault Refusal :=
  match o with
  | .next s => f s
  | .fault r => .fault r
  | .refused r => .refused r

/-- `CSUM_ADDW` once for each word, with `OPA` set to it (40_checksum.md R107). -/
def addwAll : List Half → State → Host.Outcome State Fault Refusal
  | [], s => .next s
  | w :: ws, s => andThen (exec .csumAddw { s with opnd := { s.opnd with opa := w } }) (addwAll ws)

/-- The source span set by the host (10_state.md R34, R35). -/
def withSource (s : State) (a : Half) (n : Nat) : State :=
  { s with opnd := { s.opnd with srcAddr := a, srcLen := BitVec.ofNat 17 n } }

/-- A state some number of steps away. -/
inductive Reaches (s : State) : State → Prop where
  | here : Reaches s s
  | after (t u : State) (h : Reaches s t) (hs : step t = .next u) : Reaches s u

/-- A run that never stops on a model fault: no unwritten byte is read and the host keeps the protocol
(60_exceptions.md R219). -/
def FaultFree (s : State) : Prop :=
  ∀ t, Reaches s t → ∃ u, step t = .next u

/-- A state in which the block is the next to move and has a command pending. -/
def Pending (s : State) : Prop :=
  s.status.busy = true ∧ (s.host.agenda = [] ∨ ∃ rest, s.host.agenda = .block :: rest)

end Sys2Proof.Safety
end

