-- ==== Sys2Proof/Certificates/Slice0/Obligations.lean ====
section
/-! DEFINITION. The statements for the provers, from the spec's numbered rules. Each docstring names the rule
or the sections it rests on, and where it rests on a choice of the model or an inference the spec marks as
its own, says so. -/

open Sys2Proof Sys2Proof.Machine Sys2Proof.Safety

/-! ### Encoding -/

/-- A few words of 30_encoding.md R86's table decode to the commands they stand for. -/
def Obligations.ListedWordsDecodeToTheirCommands : Prop :=
  decode 0x00000000#32 = .ok .nop ∧ decode 0x00000003#32 = .ok .csumAddb ∧
  decode 0x00000010#32 = .ok .icmpEnc ∧ decode 0x00000011#32 = .ok .echoBuildV4 ∧
  decode 0x00000111#32 = .ok .echoBuildV6 ∧ decode 0x00000021#32 = .ok .ipv4Dec ∧
  decode 0x00000022#32 = .ok .ipv6Dec ∧ decode 0x00000123#32 = .ok .rxParseV6

/-- Decoding and encoding are inverse to each other, over every word and every command: no bit of a word is
dropped, and no second word has a command's meaning (30_encoding.md sections 1 and 2). -/
def Obligations.DecodeAndEncodeAreInverse : Prop :=
  ∀ (w : Word) (i : Instr), decode w = .ok i ↔ encode i = w

/-- The legal words are exactly the fourteen of the table in 30_encoding.md R86, a rule the spec marks as
derived from R84 and R85. -/
def Obligations.LegalWordsAreTheFourteenOfTheTable : Prop :=
  ∀ (w : Word) (i : Instr), decode w = .ok i ↔
    (w.toNat, i) ∈ ([(0x000, .nop), (0x001, .csumClr), (0x002, .csumAddw), (0x003, .csumAddb),
      (0x004, .csumFin), (0x005, .csumBuf), (0x010, .icmpEnc), (0x011, .echoBuildV4), (0x111, .echoBuildV6),
      (0x020, .icmpDec), (0x021, .ipv4Dec), (0x022, .ipv6Dec), (0x023, .rxParseV4),
      (0x123, .rxParseV6)] : List (Nat × Instr))

/-- A word is illegal in the three cases the spec lists and in no other, and an illegal word completes with
`ERR = ILLEGAL_COMMAND` and no other effect; `CMD` keeps it (30_encoding.md section 2). That an empty agenda or a
block entry gives the block the move, and that the step takes that entry off, is the model's choice (log 1). -/
def Obligations.IllegalWordCompletesWithErrorOnly : Prop :=
  ∀ s : State, Pending s →
    let op := s.cmd.toNat % 256
    let f := s.cmd.toNat / 256 % 2
    let rsv := s.cmd.toNat / 512
    let illegal := ((0x06 ≤ op ∧ op ≤ 0x0F) ∨ (0x12 ≤ op ∧ op ≤ 0x1F) ∨ 0x24 ≤ op) ∨
      (f = 1 ∧ op ≠ 0x11 ∧ op ≠ 0x23) ∨ rsv ≠ 0
    ((∃ i, decode s.cmd = .ok i) ↔ ¬ illegal) ∧
    (illegal → step s = .next { s with
      status := completed s.status 4#4
      host := { s.host with agenda := s.host.agenda.tail } })

/-- The fourteen mnemonics of 30_encoding.md section 4, each with the command it names and the word the assembler emits
for it, a CMD write of the word of section 2; a bare family mnemonic is an assembly error. That every other string is
one too is the model's choice (log 13). -/
def Obligations.MnemonicsNameTheirCommands : Prop :=
  let table : List (String × Word × Instr) :=
    [("nop", 0x00000000#32, .nop), ("csum.clr", 0x00000001#32, .csumClr),
      ("csum.addw", 0x00000002#32, .csumAddw), ("csum.addb", 0x00000003#32, .csumAddb),
      ("csum.fin", 0x00000004#32, .csumFin), ("csum.buf", 0x00000005#32, .csumBuf),
      ("icmp.enc", 0x00000010#32, .icmpEnc), ("echo.build.v4", 0x00000011#32, .echoBuildV4),
      ("echo.build.v6", 0x00000111#32, .echoBuildV6), ("icmp.dec", 0x00000020#32, .icmpDec),
      ("ipv4.dec", 0x00000021#32, .ipv4Dec), ("ipv6.dec", 0x00000022#32, .ipv6Dec),
      ("rx.parse.v4", 0x00000023#32, .rxParseV4), ("rx.parse.v6", 0x00000123#32, .rxParseV6)]
  (∀ row ∈ table, ofSpelling row.1 = some row.2.2 ∧ spelling row.2.2 = row.1 ∧
    assemble [.stmt (.cmd row.1)] = some [.store (.regWrite 0x08#8 32 row.2.1)]) ∧
  (∀ m ∈ ["echo.build", "rx.parse"], ofSpelling m = none ∧ assemble [.stmt (.cmd m)] = none) ∧
  (∀ m : String, m ∉ table.map Prod.fst → ofSpelling m = none ∧ assemble [.stmt (.cmd m)] = none)

/-! ### The step -/

/-- A step runs the decoded command: while a command is pending and the block moves next, the step is that
command's `exec`, with the block's turn taken off the agenda (60_exceptions.md section 2). That the agenda says who
moves is the model's choice (log 1). -/
def Obligations.StepRunsTheDecodedCommand : Prop :=
  ∀ (s : State) (i : Instr), Pending s → decode s.cmd = .ok i →
    step s = exec i { s with host := { s.host with agenda := s.host.agenda.tail } }

/-- The other moves of a step: a host access, and an idle block, which waits. The agenda and the idle step are the
model's choice (log 1, log 2). -/
def Obligations.StepServesTheHostAndWaitsWhenIdle : Prop :=
  (∀ (s : State) (a : HostAccess) (rest : List Event), s.host.agenda = .host a :: rest →
    step s = hostAccess a { s with host := { s.host with agenda := rest } }) ∧
  (∀ s : State, s.status.busy = false → s.host.agenda = [] → step s = .next s) ∧
  (∀ (s : State) (rest : List Event), s.status.busy = false → s.host.agenda = .block :: rest →
    step s = .next { s with host := { s.host with agenda := rest } })

/-- 70_reset_and_hazards.md R232: reset aborts a pending command with none of its effects, the block's state is
exactly the reset state, and a reset goes before the completion. What the outside world holds stays (log 10). -/
def Obligations.ResetAbortsThePendingCommand : Prop :=
  ∀ (s : State) (rest : List Event), s.host.agenda = .reset :: rest →
    step s = .next { State.reset with host := { s.host with agenda := rest } }

/-- Progress: whatever finite number of STATUS and CMD reads the host makes while a command is pending, the command
then runs whole, as if it had run at once, and completes unless it reads an unwritten byte
(70_reset_and_hazards.md section 4, 20_memory.md section 4). The agenda is the model's choice (log 1). -/
def Obligations.PendingCommandCompletesAfterAnyReads : Prop :=
  ∀ s : State, s.status.busy = true →
    (∀ e ∈ s.host.agenda, e = .host (.regRead 0x04#8 32) ∨ e = .host (.regRead 0x08#8 32)) →
    ∃ r : Reply,
      let o := blockStep { s with host := { s.host with agenda := [], reply := r } }
      Host.Core.run core (s.host.agenda.length + 1) s = o ∧
      ((∃ t, o = .next t ∧ t.status.busy = false ∧ t.status.done = true) ∨ o = .fault .uninitRead)

/-- The word latched at the CMD write stays the pending command until it completes or is aborted
(10_state.md section 7). -/
def Obligations.PendingCommandWordIsStable : Prop :=
  ∀ s t : State, step s = .next t → s.status.busy = true → t.status.busy = true → t.cmd = s.cmd

/-! ### Reset and the invariant -/

/-- 70_reset_and_hazards.md R230, R231: after reset every register reads 0, `irq` is low, no command is pending,
every buffer cell is unwritten and a host read of one is `UninitRead`. -/
def Obligations.ResetStateReadsZero : Prop :=
  (∀ off : BitVec 8, readOffset State.reset off = 0#32) ∧ State.reset.irq = false ∧
  State.reset.status.busy = false ∧ (∀ a : Nat, State.reset.mem.byteAt a = none) ∧
  ∀ a : Half, hostAccess (.bufRead a 8) State.reset = .fault .uninitRead

/-- The invariant holds at reset. -/
def Obligations.InvariantHoldsAtReset : Prop :=
  Inv State.reset

/-- Every step keeps the invariant: canonical buffer, legal error codes, DONE, ERR and ESTG 0 while busy, ESTG only
beside `TRUNCATED_INPUT`, CZ only beside a zero `CSUM_RES`, results inside the buffer, header banks that
passed their checks. -/
def Obligations.StepKeepsTheInvariant : Prop :=
  ∀ s t : State, Inv s → step s = .next t → Inv t

/-! ### Checksum arithmetic -/

/-- `Fold` and `Cks` (00_scope.md section 6): two passes, a result below 2^16 which another pass leaves alone, equal
to the sum modulo 65535 and 0 only for 0; `Cks` is its complement. The bound and the agreement with the unbounded
fold are what the spec marks as derived. -/
def Obligations.FoldLeavesNoCarry : Prop :=
  ∀ s : Word,
    fold s = twoPass s.toNat ∧ fold s ≤ 0xFFFF ∧ twoPass (fold s) = fold s ∧
    fold s % 65535 = s.toNat % 65535 ∧ (fold s = 0 ↔ s = 0#32) ∧
    (cks s).toNat = 0xFFFF - fold s

/-- `AccAdd` is the sum modulo 2^32 with its wrap as a flag, whatever the order of the words, and one span added to a
cleared accumulator never wraps: the forms the spec derives (40_checksum.md section 1). -/
def Obligations.AccAddIsTheWrappedSum : Prop :=
  (∀ (acc : Word) (ws : List Half),
    (accAdd acc ws).1.toNat = (acc.toNat + (ws.map BitVec.toNat).sum) % 2 ^ 32 ∧
    ((accAdd acc ws).2 = true ↔ 2 ^ 32 ≤ acc.toNat + (ws.map BitVec.toNat).sum) ∧
    ∀ vs : List Half, ws.Perm vs → accAdd acc vs = accAdd acc ws) ∧
  (∀ (m : Memory) (a n : Nat) (ws : List Half), n ≤ 65536 → words m a n = .ok ws →
    (accAdd 0#32 ws).2 = false ∧ (accAdd 0#32 ws).1.toNat ≤ 0x7FFF8000)

/-- 40_checksum.md R109: the two zeros of one's complement, each returned as computed: `0xFFFF` when every word added
is zero, `0x0000` when the folded sum is `0xFFFF`. That `ECHO_BUILD` writes the value unchanged is part of its own
statement. -/
def Obligations.NeitherZeroIsRemapped : Prop :=
  (∀ ws : List Half, 2 ^ 32 > (ws.map BitVec.toNat).sum →
    (cks (accAdd 0#32 ws).1 = 0xFFFF#16 ↔ ∀ w ∈ ws, w = 0#16)) ∧
  (∀ acc : Word, cks acc = 0#16 ↔ twoPass acc.toNat = 0xFFFF)

/-! ### Checksum commands -/

/-- 40_checksum.md R101: `CSUM_CLR` completes from every state with the accumulator and `OVF` cleared and nothing else
but the completion changed. -/
def Obligations.CsumClrClearsTheAccumulator : Prop :=
  decode 0x00000001#32 = .ok .csumClr ∧
  ∀ s : State, exec .csumClr s = .next { s with
    csumAcc := 0#32
    status := { completed s.status 0#4 with ovf := false } }

/-- 40_checksum.md R102: `CSUM_ADDW` completes from every state with `OPA` added modulo 2^32 and `OVF` sticky. -/
def Obligations.CsumAddwAddsTheOperand : Prop :=
  decode 0x00000002#32 = .ok .csumAddw ∧
  ∀ s : State, exec .csumAddw s = .next { s with
    csumAcc := BitVec.ofNat 32 (s.csumAcc.toNat + s.opnd.opa.toNat)
    status := { completed s.status 0#4 with
      ovf := s.status.ovf || decide (2 ^ 32 ≤ s.csumAcc.toNat + s.opnd.opa.toNat) } }

/-- 40_checksum.md R103: `CSUM_ADDB` out of bounds, over a written span, and over a span with an unwritten byte. -/
def Obligations.CsumAddbAddsTheSpan : Prop :=
  decode 0x00000003#32 = .ok .csumAddb ∧
  ∀ s : State,
    let a := s.opnd.srcAddr.toNat
    let n := s.opnd.srcLen.toNat
    (65536 < a + n → exec .csumAddb s = .next { s with status := completed s.status 5#4 }) ∧
    (∀ bytes : List Byte, a + n ≤ 65536 → bytes.length = n → spanHolds s.mem a bytes →
      exec .csumAddb s = .next { s with
        csumAcc := BitVec.ofNat 32 (s.csumAcc.toNat + wordSum bytes)
        status := { completed s.status 0#4 with
          ovf := s.status.ovf || decide (2 ^ 32 ≤ s.csumAcc.toNat + wordSum bytes) } }) ∧
    (a + n ≤ 65536 → ¬ spanWritten s.mem a n → exec .csumAddb s = .fault .uninitRead)

/-- 40_checksum.md R105: `CSUM_FIN` completes from every state with the complement of the folded accumulator in
`CSUM_RES` and `CZ` for it; accumulator and `OVF` stay. -/
def Obligations.CsumFinFinishesTheAccumulator : Prop :=
  decode 0x00000004#32 = .ok .csumFin ∧
  ∀ s : State, exec .csumFin s = .next { s with
    csumRes := checksumOf s.csumAcc.toNat
    status := { completed s.status 0#4 with cz := decide (checksumOf s.csumAcc.toNat = 0#16) } }

/-- 40_checksum.md R106: `CSUM_BUF` out of bounds, over a written span (`OVF` always 0), and over a span with an unwritten
byte. -/
def Obligations.CsumBufChecksumsTheSpan : Prop :=
  decode 0x00000005#32 = .ok .csumBuf ∧
  ∀ s : State,
    let a := s.opnd.srcAddr.toNat
    let n := s.opnd.srcLen.toNat
    (65536 < a + n → exec .csumBuf s = .next { s with status := completed s.status 5#4 }) ∧
    (∀ bytes : List Byte, a + n ≤ 65536 → bytes.length = n → spanHolds s.mem a bytes →
      exec .csumBuf s = .next { s with
        csumAcc := BitVec.ofNat 32 (wordSum bytes)
        csumRes := checksumOf (wordSum bytes)
        status := { completed s.status 0#4 with
          ovf := false
          cz := decide (checksumOf (wordSum bytes) = 0#16) } }) ∧
    (a + n ≤ 65536 → ¬ spanWritten s.mem a n → exec .csumBuf s = .fault .uninitRead)

/-- Incremental equals one-shot, the law the spec derives in 40_checksum.md section 3: clear, the header words in any
order (the zero word may be left out), the body as one span, finish. -/
def Obligations.IncrementalSumEqualsOneShot : Prop :=
  ∀ (s : State) (ty co : Byte) (ident seq b : Half) (body : List Byte) (hws : List Half),
    body.length ≤ 65528 → b.toNat + body.length ≤ 65536 → spanHolds s.mem b.toNat body →
    (hws.Perm [ty ++ co, 0#16, ident, seq] ∨ hws.Perm [ty ++ co, ident, seq]) →
    ∃ (t : State) (ws : List Half),
      andThen (exec .csumClr s) (fun s1 =>
        andThen (addwAll hws s1) (fun s2 =>
          andThen (exec .csumAddb (withSource s2 b body.length)) (exec .csumFin))) = .next t ∧
      words s.mem b.toNat body.length = .ok ws ∧
      t.csumRes = computeChecksum ty co ident seq ws ∧
      t.csumRes = checksumOf (ty.toNat * 256 + co.toNat + ident.toNat + seq.toNat + wordSum body) ∧
      t.status.ovf = false ∧ t.status.err = 0#4 ∧ t.mem = s.mem

/-- The self-check the spec derives in 40_checksum.md section 3: a message that carries its own checksum sums to a result
of 0 with `CZ = 1`. -/
def Obligations.MessageWithItsChecksumVerifies : Prop :=
  ∀ (s : State) (ty co : Byte) (ident seq : Half) (body : List Byte),
    let c := checksumOf (ty.toNat * 256 + co.toNat + ident.toNat + seq.toNat + wordSum body)
    let msg := headerBytes ty co c ident seq ++ body
    body.length ≤ 65528 → s.opnd.srcAddr.toNat + msg.length ≤ 65536 →
    s.opnd.srcLen.toNat = msg.length → spanHolds s.mem s.opnd.srcAddr.toNat msg →
    ∃ t, exec .csumBuf s = .next t ∧ t.csumRes = 0#16 ∧ t.status.cz = true ∧ t.status.err = 0#4

/-- A frame just built verifies: `CSUM_BUF` over it gives 0 (70_reset_and_hazards.md section 3, 40_checksum.md section 3;
the self-check is the spec's derived law). -/
def Obligations.BuiltEchoRequestVerifies : Prop :=
  ∀ (s : State) (i : Instr), i = .echoBuildV4 ∨ i = .echoBuildV6 →
    s.opnd.dstAddr.toNat + 8 + s.opnd.bodyLen.toNat ≤ 65536 →
    spanWritten s.mem (s.opnd.dstAddr.toNat + 8) s.opnd.bodyLen.toNat →
    ∃ t u, exec i s = .next t ∧
      exec .csumBuf (withSource t s.opnd.dstAddr t.frameLen.toNat) = .next u ∧
      u.csumRes = 0#16 ∧ u.status.cz = true ∧ u.status.err = 0#4

/-! ### Codec commands -/

/-- 41_icmp_codec.md R121: `ICMP_ENC` out of bounds, and in bounds: the eight header bytes from the TX registers as given,
every other byte and every register but STATUS as before. -/
def Obligations.IcmpEncWritesTheHeader : Prop :=
  decode 0x00000010#32 = .ok .icmpEnc ∧
  ∀ s : State,
    let d := s.opnd.dstAddr.toNat
    (65536 < d + 8 → exec .icmpEnc s = .next { s with status := completed s.status 5#4 }) ∧
    (d + 8 ≤ 65536 → ∃ m : Memory,
      exec .icmpEnc s = .next { s with mem := m, status := completed s.status 0#4 } ∧
      spanHolds m d
        (headerBytes s.opnd.txType s.opnd.txCode s.opnd.txCsum s.opnd.txIdent s.opnd.txSeq) ∧
      ∀ x, ¬ inSpan d 8 x → m.byteAt x = s.mem.byteAt x)

/-- 41_icmp_codec.md R122: `ECHO_BUILD` of either family out of bounds, over a written body, and over a body with an
unwritten byte. -/
def Obligations.EchoBuildWritesTheRequest : Prop :=
  (decode 0x00000011#32 = .ok .echoBuildV4 ∧ decode 0x00000111#32 = .ok .echoBuildV6) ∧
  ∀ (s : State) (i : Instr) (ty : Byte), (i = .echoBuildV4 ∧ ty = 8#8) ∨ (i = .echoBuildV6 ∧ ty = 128#8) →
    let d := s.opnd.dstAddr.toNat
    let n := s.opnd.bodyLen.toNat
    (65536 < d + 8 + n → exec i s = .next { s with status := completed s.status 5#4 }) ∧
    (∀ body : List Byte, d + 8 + n ≤ 65536 → body.length = n → spanHolds s.mem (d + 8) body →
      let sum := ty.toNat * 256 + s.opnd.txIdent.toNat + s.opnd.txSeq.toNat + wordSum body
      ∃ m : Memory,
        exec i s = .next { s with
          mem := m
          csumAcc := BitVec.ofNat 32 sum
          csumRes := checksumOf sum
          frameLen := BitVec.ofNat 17 (8 + n)
          status := { completed s.status 0#4 with ovf := false, cz := decide (checksumOf sum = 0#16) } } ∧
        spanHolds m d (headerBytes ty 0#8 (checksumOf sum) s.opnd.txIdent s.opnd.txSeq) ∧
        ∀ x, ¬ inSpan d 8 x → m.byteAt x = s.mem.byteAt x) ∧
    (d + 8 + n ≤ 65536 → ¬ spanWritten s.mem (d + 8) n → exec i s = .fault .uninitRead)

/-- `ICMP_DEC` and `RX_PARSE` V6 out of bounds, over fewer than 8 bytes, over a written header (whatever its field values
and whatever the body), and over an unwritten one (41_icmp_codec.md section 2, 44_chain_and_nop.md). That fewer than 8
bytes end with `TRUNCATED_INPUT` whether or not they are written is the model's reading (log 8). -/
def Obligations.IcmpDecodeReadsTheHeader : Prop :=
  (decode 0x00000020#32 = .ok .icmpDec ∧ decode 0x00000123#32 = .ok .rxParseV6) ∧
  ∀ (s : State) (i : Instr), i = .icmpDec ∨ i = .rxParseV6 →
    let a := s.opnd.srcAddr.toNat
    let n := s.opnd.srcLen.toNat
    (65536 < a + n → exec i s = .next { s with status := completed s.status 5#4 }) ∧
    (a + n ≤ 65536 → n < 8 → exec i s = .next { s with status := completed s.status 1#4 }) ∧
    (∀ b0 b1 b2 b3 b4 b5 b6 b7 : Byte, a + n ≤ 65536 → 8 ≤ n →
      spanHolds s.mem a [b0, b1, b2, b3, b4, b5, b6, b7] →
      exec i s = .next { s with
        rx :=
          { type := b0, code := b1, csum := b2 ++ b3, ident := b4 ++ b5, seq := b6 ++ b7,
            bodyAddr := BitVec.ofNat 17 (a + 8), bodyLen := BitVec.ofNat 17 (n - 8) }
        status := completed s.status 0#4 }) ∧
    (a + n ≤ 65536 → 8 ≤ n → ¬ spanWritten s.mem a 8 → exec i s = .fault .uninitRead)

/-- The encode and decode round trip the spec derives in 41_icmp_codec.md section 2, for `ICMP_ENC` and for `ECHO_BUILD`
of both families, over any body length that fits. -/
def Obligations.EncodedHeaderDecodesBack : Prop :=
  ∀ (s : State) (n : Nat), s.opnd.dstAddr.toNat + 8 + n ≤ 65536 →
    (∃ t u, exec .icmpEnc s = .next t ∧
      exec .icmpDec (withSource t s.opnd.dstAddr (8 + n)) = .next u ∧ u.status.err = 0#4 ∧
      u.rx =
        { type := s.opnd.txType, code := s.opnd.txCode, csum := s.opnd.txCsum, ident := s.opnd.txIdent,
          seq := s.opnd.txSeq, bodyAddr := BitVec.ofNat 17 (s.opnd.dstAddr.toNat + 8),
          bodyLen := BitVec.ofNat 17 n }) ∧
    (∀ (i : Instr) (ty : Byte), (i = .echoBuildV4 ∧ ty = 8#8) ∨ (i = .echoBuildV6 ∧ ty = 128#8) →
      s.opnd.bodyLen.toNat = n → spanWritten s.mem (s.opnd.dstAddr.toNat + 8) n →
      ∃ t u, exec i s = .next t ∧
        exec .icmpDec (withSource t s.opnd.dstAddr (8 + n)) = .next u ∧ u.status.err = 0#4 ∧
        u.rx =
          { type := ty, code := 0#8, csum := t.csumRes, ident := s.opnd.txIdent, seq := s.opnd.txSeq,
            bodyAddr := BitVec.ofNat 17 (s.opnd.dstAddr.toNat + 8), bodyLen := BitVec.ofNat 17 n })

/-! ### Header decoders and the chain -/

/-- `IPV4_DEC` over a header that passes its checks: the whole bank, field by field, and nothing else
(42_ipv4_decoder.md sections 1 to 3). The layout is general knowledge by the spec's own mark (log 15). -/
def Obligations.Ipv4DecodeFillsTheBank : Prop :=
  ∀ (s : State) (h : List Byte),
    let a := s.opnd.srcAddr.toNat
    let n := s.opnd.srcLen.toNat
    let ihl := field h 0 1 % 16
    a + n ≤ 65536 → h.length = 20 → spanHolds s.mem a h → field h 0 1 / 16 = 4 → 5 ≤ ihl → 4 * ihl ≤ n →
    exec .ipv4Dec s = .next { s with
      v4 :=
        { version := 4#4
          ihl := BitVec.ofNat 4 ihl
          tos := BitVec.ofNat 8 (field h 1 1)
          totalLen := BitVec.ofNat 16 (field h 2 2)
          ident := BitVec.ofNat 16 (field h 4 2)
          flagsOff := BitVec.ofNat 16 (field h 6 2)
          ttl := BitVec.ofNat 8 (field h 8 1)
          proto := BitVec.ofNat 8 (field h 9 1)
          hdrCsum := BitVec.ofNat 16 (field h 10 2)
          src := BitVec.ofNat 32 (field h 12 4)
          dst := BitVec.ofNat 32 (field h 16 4)
          hdrLen := BitVec.ofNat 6 (4 * ihl)
          optAddr := BitVec.ofNat 17 (a + 20)
          optLen := BitVec.ofNat 6 (4 * ihl - 20)
          payloadAddr := BitVec.ofNat 17 (a + 4 * ihl)
          payloadLen := BitVec.ofNat 17 (n - 4 * ihl) }
      status := completed s.status 0#4 }

/-- The version is tested before every length check but the empty span's, so a wrong version is reported whatever else is
wrong; and the checks after it, for `IPV4_DEC` and the IPv4 stage of `RX_PARSE` V4 (42_ipv4_decoder.md sections 2
and 3). That the checks of the IHL and of the options need no byte but the first to be written is the model's reading
(log 16). -/
def Obligations.Ipv4VersionIsTestedFirst : Prop :=
  ∀ (s : State) (i : Instr), i = .ipv4Dec ∨ i = .rxParseV4 →
    let a := s.opnd.srcAddr.toNat
    let n := s.opnd.srcLen.toNat
    (65536 < a + n → exec i s = .next { s with status := completed s.status 5#4 }) ∧
    (a + n ≤ 65536 → n = 0 → exec i s = .next { s with status := completed s.status 1#4 }) ∧
    (a + n ≤ 65536 → 1 ≤ n → s.mem.byteAt a = none → exec i s = .fault .uninitRead) ∧
    (∀ b : Byte, a + n ≤ 65536 → 1 ≤ n → s.mem.byteAt a = some b →
      (b.toNat / 16 ≠ 4 → exec i s = .next { s with status := completed s.status 3#4 }) ∧
      (b.toNat / 16 = 4 → n < 20 → exec i s = .next { s with status := completed s.status 1#4 }) ∧
      (b.toNat / 16 = 4 → 20 ≤ n → b.toNat % 16 < 5 →
        exec i s = .next { s with status := completed s.status 2#4 }) ∧
      (b.toNat / 16 = 4 → 20 ≤ n → 5 ≤ b.toNat % 16 → n < 4 * (b.toNat % 16) →
        exec i s = .next { s with status := completed s.status 1#4 }))

/-- `MALFORMED_HEADER` comes from a short IPv4 header length and from nothing else, over all commands: the form the spec
derives (42_ipv4_decoder.md section 3, 43_ipv6_decoder.md section 3). -/
def Obligations.MalformedHeaderOnlyForShortIhl : Prop :=
  ∀ (i : Instr) (s t : State), exec i s = .next t →
    (t.status.err = 2#4 ↔ (i = .ipv4Dec ∨ i = .rxParseV4) ∧
      s.opnd.srcAddr.toNat + s.opnd.srcLen.toNat ≤ 65536 ∧ 20 ≤ s.opnd.srcLen.toNat ∧
      ∃ b : Byte, s.mem.byteAt s.opnd.srcAddr.toNat = some b ∧ b.toNat / 16 = 4 ∧ b.toNat % 16 < 5)

/-- `IPV6_DEC` over a header that passes its checks: the whole bank, field by field, and nothing else
(43_ipv6_decoder.md sections 1 to 3). The layout is general knowledge by the spec's own mark (log 15). -/
def Obligations.Ipv6DecodeFillsTheBank : Prop :=
  ∀ (s : State) (h : List Byte),
    let a := s.opnd.srcAddr.toNat
    let n := s.opnd.srcLen.toNat
    a + n ≤ 65536 → h.length = 40 → spanHolds s.mem a h → field h 0 1 / 16 = 6 → 40 ≤ n →
    exec .ipv6Dec s = .next { s with
      v6 :=
        { version := 6#4
          tclass := BitVec.ofNat 8 (field h 0 1 % 16 * 16 + field h 1 1 / 16)
          flow := BitVec.ofNat 20 (field h 1 1 % 16 * 65536 + field h 2 2)
          plen := BitVec.ofNat 16 (field h 4 2)
          nxt := BitVec.ofNat 8 (field h 6 1)
          hoplim := BitVec.ofNat 8 (field h 7 1)
          payloadAddr := BitVec.ofNat 17 (a + 40)
          payloadLen := BitVec.ofNat 17 (n - 40)
          src0 := BitVec.ofNat 32 (field h 8 4)
          src1 := BitVec.ofNat 32 (field h 12 4)
          src2 := BitVec.ofNat 32 (field h 16 4)
          src3 := BitVec.ofNat 32 (field h 20 4)
          dst0 := BitVec.ofNat 32 (field h 24 4)
          dst1 := BitVec.ofNat 32 (field h 28 4)
          dst2 := BitVec.ofNat 32 (field h 32 4)
          dst3 := BitVec.ofNat 32 (field h 36 4) }
      status := completed s.status 0#4 }

/-- 43_ipv6_decoder.md R162: the version test is against 6, so version 4 is rejected, and it comes before the 40-byte
length check; out of bounds, empty and unwritten spans beside it. -/
def Obligations.Ipv6VersionIsTestedFirst : Prop :=
  ∀ s : State,
    let a := s.opnd.srcAddr.toNat
    let n := s.opnd.srcLen.toNat
    (65536 < a + n → exec .ipv6Dec s = .next { s with status := completed s.status 5#4 }) ∧
    (a + n ≤ 65536 → n = 0 → exec .ipv6Dec s = .next { s with status := completed s.status 1#4 }) ∧
    (a + n ≤ 65536 → 1 ≤ n → s.mem.byteAt a = none → exec .ipv6Dec s = .fault .uninitRead) ∧
    (∀ b : Byte, a + n ≤ 65536 → 1 ≤ n → s.mem.byteAt a = some b →
      (b.toNat / 16 ≠ 6 → exec .ipv6Dec s = .next { s with status := completed s.status 3#4 }) ∧
      (b.toNat / 16 = 6 → n < 40 → exec .ipv6Dec s = .next { s with status := completed s.status 1#4 }))

/-- The V4 chain (44_chain_and_nop.md). An IPv4-stage error ends it as it ends `IPV4_DEC`, `ESTG` left at the 0 a start
leaves, and an unwritten byte of that stage stops it; fewer than 8 bytes after the
header end it with `TRUNCATED_INPUT` and `ESTG = 1` and no bank changed, whether or not they are written (the model's
reading, log 8); otherwise both banks commit together, whatever the protocol field. -/
def Obligations.RxParseV4ChainsBothStages : Prop :=
  ∀ s : State,
    let a := s.opnd.srcAddr.toNat
    let n := s.opnd.srcLen.toNat
    (∀ t : State, exec .ipv4Dec s = .next t → t.status.err ≠ 0#4 →
      exec .rxParseV4 s = .next t ∧ t.status.estg = s.status.estg) ∧
    (∀ f : Fault, exec .ipv4Dec s = .fault f → exec .rxParseV4 s = .fault f) ∧
    (∀ t : State, exec .ipv4Dec s = .next t → t.status.err = 0#4 →
      let hl := 4 * t.v4.ihl.toNat
      (n < hl + 8 →
        exec .rxParseV4 s = .next { s with status := { completed s.status 1#4 with estg := true } }) ∧
      (∀ b0 b1 b2 b3 b4 b5 b6 b7 : Byte, hl + 8 ≤ n →
        spanHolds s.mem (a + hl) [b0, b1, b2, b3, b4, b5, b6, b7] →
        exec .rxParseV4 s = .next { s with
          v4 := t.v4
          rx :=
            { type := b0, code := b1, csum := b2 ++ b3, ident := b4 ++ b5, seq := b6 ++ b7,
              bodyAddr := BitVec.ofNat 17 (a + hl + 8), bodyLen := BitVec.ofNat 17 (n - hl - 8) }
          status := completed s.status 0#4 }) ∧
      (hl + 8 ≤ n → ¬ spanWritten s.mem (a + hl) 8 → exec .rxParseV4 s = .fault .uninitRead))

/-- `RX_PARSE` V4 completes with both banks written over every span that holds an IPv4 header that passes its checks and 8
written bytes after it (44_chain_and_nop.md, the V4 chain). -/
def Obligations.RxParseV4CompletesOnAGoodDatagram : Prop :=
  ∀ (s : State) (b b0 b1 b2 b3 b4 b5 b6 b7 : Byte),
    let a := s.opnd.srcAddr.toNat
    let n := s.opnd.srcLen.toNat
    let hl := 4 * (b.toNat % 16)
    a + n ≤ 65536 → s.mem.byteAt a = some b → b.toNat / 16 = 4 → 20 ≤ hl → hl + 8 ≤ n → spanWritten s.mem a 20 →
    spanHolds s.mem (a + hl) [b0, b1, b2, b3, b4, b5, b6, b7] →
    ∃ v : Ipv4Bank,
      exec .ipv4Dec s = .next { s with v4 := v, status := completed s.status 0#4 } ∧
      exec .rxParseV4 s = .next { s with
        v4 := v
        rx :=
          { type := b0, code := b1, csum := b2 ++ b3, ident := b4 ++ b5, seq := b6 ++ b7,
            bodyAddr := BitVec.ofNat 17 (a + hl + 8), bodyLen := BitVec.ofNat 17 (n - hl - 8) }
        status := completed s.status 0#4 }

/-- 44_chain_and_nop.md R183: `NOP` completes from every state and changes nothing but ERR, DONE and BUSY. -/
def Obligations.NopOnlyCompletes : Prop :=
  decode 0x00000000#32 = .ok .nop ∧
  ∀ s : State, exec .nop s = .next { s with status := completed s.status 0#4 }

/-! ### Errors, completion and frames -/

/-- 60_exceptions.md R200: every command, legal or not, ends by completing, with an error code or without, and stops for
nothing but a read of an unwritten byte; the block then accepts the next command. -/
def Obligations.EveryCommandCompletes : Prop :=
  let completes := fun o : Host.Outcome State Fault Refusal =>
    (∃ t, o = .next t ∧ t.status.done = true ∧ t.status.busy = false ∧ t.status.err.toNat ≤ 5 ∧
      ∀ w, ∃ u, hostAccess (.regWrite 0x08#8 32 w) t = .next u ∧ u.status.busy = true ∧ u.cmd = w) ∨
    o = .fault .uninitRead
  (∀ (i : Instr) (s : State), completes (exec i s)) ∧ (∀ s : State, completes (blockStep s))

/-- The errors each command can end with, the table the spec derives in 60_exceptions.md section 1. -/
def Obligations.CommandsRaiseOnlyTheirErrors : Prop :=
  ∀ (i : Instr) (s t : State), exec i s = .next t →
    t.status.err = 0#4 ∨ t.status.err.toNat ∈ mayRaise i

/-- A failed command changes STATUS and nothing else: ERR, DONE, BUSY, and ESTG in the one case of `RX_PARSE` V4
(60_exceptions.md section 2). -/
def Obligations.FailedCommandChangesOnlyStatus : Prop :=
  ∀ (i : Instr) (s t : State), exec i s = .next t → t.status.err ≠ 0#4 →
    t = { s with status := { completed s.status t.status.err with estg := t.status.estg } } ∧
    (t.status.estg = s.status.estg ∨ (i = .rxParseV4 ∧ t.status.err = 1#4))

/-- 20_memory.md R68: a command over a span that leaves the buffer ends with `BOUNDS`, before any byte is read, and no other
command does; the sum is exact, so no span wraps. -/
def Obligations.BoundsExactlyWhenASpanLeavesTheBuffer : Prop :=
  ∀ (i : Instr) (s : State),
    let leaves :=
      (i ∈ [Instr.csumAddb, .csumBuf, .icmpDec, .ipv4Dec, .ipv6Dec, .rxParseV4, .rxParseV6] ∧
        65536 < s.opnd.srcAddr.toNat + s.opnd.srcLen.toNat) ∨
      (i = .icmpEnc ∧ 65536 < s.opnd.dstAddr.toNat + 8) ∨
      (i ∈ [Instr.echoBuildV4, .echoBuildV6] ∧ 65536 < s.opnd.dstAddr.toNat + (8 + s.opnd.bodyLen.toNat))
    (leaves → exec i s = .next { s with status := completed s.status 5#4 }) ∧
    (¬ leaves → ∀ t, exec i s = .next t → t.status.err ≠ 5#4)

/-- 60_exceptions.md R204: the CMD write while idle, in all its effects, and the same write while busy. -/
def Obligations.CmdWriteStartsACommand : Prop :=
  ∀ (s : State) (w : Word),
    (s.status.busy = false → ∃ t,
      hostAccess (.regWrite 0x08#8 32 w) s = .next t ∧
      t = { s with
        cmd := w
        status := { s.status with done := false, err := 0#4, estg := false, busy := true }
        host := { s.host with reply := .nothing } } ∧
      t.irq = false) ∧
    (s.status.busy = true → hostAccess (.regWrite 0x08#8 32 w) s = .fault .hostBusyViolation)

/-- No command writes a register that only the host writes: CTRL, CMD and the operand registers; nor the outside world's
side (10_state.md sections 2 to 4). -/
def Obligations.CommandsKeepTheHostsRegisters : Prop :=
  ∀ (i : Instr) (s t : State), exec i s = .next t →
    t.irqEn = s.irqEn ∧ t.cmd = s.cmd ∧ t.opnd = s.opnd ∧ t.host = s.host

/-- Each result register changes only in a successful command that writes it, the stale-result law the spec derives in
70_reset_and_hazards.md section 2, with the accumulator's and the flags' writers of 10_state.md sections 5 and 6. -/
def Obligations.ResultsChangeOnlyByTheirCommands : Prop :=
  ∀ (i : Instr) (s t : State), exec i s = .next t →
    (t.rx ≠ s.rx → t.status.err = 0#4 ∧ i ∈ [Instr.icmpDec, .rxParseV4, .rxParseV6]) ∧
    (t.v4 ≠ s.v4 → t.status.err = 0#4 ∧ i ∈ [Instr.ipv4Dec, .rxParseV4]) ∧
    (t.v6 ≠ s.v6 → t.status.err = 0#4 ∧ i = .ipv6Dec) ∧
    (t.csumRes ≠ s.csumRes →
      t.status.err = 0#4 ∧ i ∈ [Instr.csumFin, .csumBuf, .echoBuildV4, .echoBuildV6]) ∧
    (t.frameLen ≠ s.frameLen → t.status.err = 0#4 ∧ i ∈ [Instr.echoBuildV4, .echoBuildV6]) ∧
    (t.csumAcc ≠ s.csumAcc → t.status.err = 0#4 ∧
      i ∈ [Instr.csumClr, .csumAddw, .csumAddb, .csumBuf, .echoBuildV4, .echoBuildV6])

/-- 10_state.md R29: CZ is written, and only written, by a command that commits a write of CSUM_RES, and is 1 exactly when
that value is 0; no host access but reset touches it. -/
def Obligations.ZeroFlagFollowsTheResult : Prop :=
  (∀ (i : Instr) (s t : State), exec i s = .next t →
    (i ∈ [Instr.csumFin, .csumBuf, .echoBuildV4, .echoBuildV6] → t.status.err = 0#4 →
      t.status.cz = decide (t.csumRes = 0#16)) ∧
    ((i ∉ [Instr.csumFin, .csumBuf, .echoBuildV4, .echoBuildV6] ∨ t.status.err ≠ 0#4) →
      t.status.cz = s.status.cz)) ∧
  (∀ (s t : State) (e : DecodeReject), decode s.cmd = .error e → blockStep s = .next t →
    t.status.cz = s.status.cz) ∧
  (∀ (a : HostAccess) (s t : State), hostAccess a s = .next t → t.status.cz = s.status.cz) ∧
  (∀ s : State, s.resetBlock.status.cz = false)

/-- 10_state.md R30: OVF is sticky: set by an addition that carries out of bit 31, cleared by `CSUM_CLR`, set to their own
sum's outcome by `CSUM_BUF` and `ECHO_BUILD`, cleared by reset, and changed by nothing else. -/
def Obligations.OverflowFlagIsSticky : Prop :=
  (∀ (i : Instr) (s t : State), exec i s = .next t →
    (i = .csumClr → t.status.ovf = false) ∧
    (i = .csumBuf → t.status.err = 0#4 → ∀ bytes : List Byte, bytes.length = s.opnd.srcLen.toNat →
      spanHolds s.mem s.opnd.srcAddr.toNat bytes → t.status.ovf = decide (2 ^ 32 ≤ wordSum bytes)) ∧
    (∀ ty : Nat, (i = .echoBuildV4 ∧ ty = 8) ∨ (i = .echoBuildV6 ∧ ty = 128) → t.status.err = 0#4 →
      ∀ bytes : List Byte, bytes.length = s.opnd.bodyLen.toNat → spanHolds s.mem (s.opnd.dstAddr.toNat + 8) bytes →
        t.status.ovf = decide (2 ^ 32 ≤
          ty * 256 + s.opnd.txIdent.toNat + s.opnd.txSeq.toNat + wordSum bytes)) ∧
    (i = .csumAddw → t.status.ovf =
      (s.status.ovf || decide (2 ^ 32 ≤ s.csumAcc.toNat + s.opnd.opa.toNat))) ∧
    (i = .csumAddb → t.status.err = 0#4 → ∀ bytes : List Byte, bytes.length = s.opnd.srcLen.toNat →
      spanHolds s.mem s.opnd.srcAddr.toNat bytes →
      t.status.ovf = (s.status.ovf || decide (2 ^ 32 ≤ s.csumAcc.toNat + wordSum bytes))) ∧
    ((i ∉ [Instr.csumClr, .csumAddw, .csumAddb, .csumBuf, .echoBuildV4, .echoBuildV6] ∨ t.status.err ≠ 0#4) →
      t.status.ovf = s.status.ovf)) ∧
  (∀ (s t : State) (e : DecodeReject), decode s.cmd = .error e → blockStep s = .next t →
    t.status.ovf = s.status.ovf) ∧
  (∀ (a : HostAccess) (s t : State), hostAccess a s = .next t → t.status.ovf = s.status.ovf) ∧
  (∀ s : State, s.resetBlock.status.ovf = false)

/-- 10_state.md R31: from a start with ESTG 0, a completion has ESTG 1 exactly after an `RX_PARSE` V4 whose IPv4 stage
succeeded and whose ICMP stage failed; the CMD write and reset clear it. -/
def Obligations.StageFlagNamesTheIcmpStage : Prop :=
  (∀ (i : Instr) (s t : State), s.status.estg = false → exec i s = .next t →
    (t.status.estg = true ↔
      i = .rxParseV4 ∧ t.status.err = 1#4 ∧ ∃ u, exec .ipv4Dec s = .next u ∧ u.status.err = 0#4)) ∧
  (∀ (s t : State) (e : DecodeReject), s.status.estg = false → decode s.cmd = .error e →
    blockStep s = .next t → t.status.estg = false) ∧
  (∀ (s t : State) (w : Word), hostAccess (.regWrite 0x08#8 32 w) s = .next t → t.status.estg = false) ∧
  (∀ s : State, s.resetBlock.status.estg = false)

/-- A command writes no buffer byte but the 8 header bytes at `DST_ADDR`, and only `ICMP_ENC` and `ECHO_BUILD` write those;
a failed command writes none (20_memory.md section 3). -/
def Obligations.CommandsWriteOnlyTheirBytes : Prop :=
  ∀ (i : Instr) (s t : State), exec i s = .next t →
    (∀ x, ¬ writesByte i s x → t.mem.byteAt x = s.mem.byteAt x) ∧
    (t.status.err ≠ 0#4 → t.mem = s.mem)

/-- A command completes exactly when every byte it reads is written, the set being the one its own rule gives
(20_memory.md sections 1 and 3). What the ICMP decoders read of fewer than 8 bytes, and the IPv4 decoder of a header whose
IHL or options fail their check, is the model's reading (log 8, log 16). -/
def Obligations.CommandCompletesIffItsBytesAreWritten : Prop :=
  ∀ (i : Instr) (s : State),
    (∃ t, exec i s = .next t) ↔ ∀ x, readsByte i s x → (s.mem.byteAt x).isSome = true

/-- Nothing in the buffer but the bytes a command reads can change what it does: two buffers that agree on them give the same
outcome, the same registers and the same written bytes (20_memory.md section 3). What the ICMP decoders read of fewer than 8
bytes, and the IPv4 decoder of a header whose IHL or options fail their check, is the model's reading (log 8, log 16). -/
def Obligations.OnlyTheReadBytesMatter : Prop :=
  ∀ (i : Instr) (s : State) (m : Memory), (∀ x, readsByte i s x → m.byteAt x = s.mem.byteAt x) →
    (∀ f, exec i s = .fault f → exec i { s with mem := m } = .fault f) ∧
    (∀ t, exec i s = .next t → ∃ u, exec i { s with mem := m } = .next u ∧
      { u with mem := t.mem } = t ∧
      (t.status.err = 0#4 → ∀ x, writesByte i s x → u.mem.byteAt x = t.mem.byteAt x))

/-- 60_exceptions.md R207: `irq` after a completion follows IRQ_EN, setting IRQ_EN while DONE is 1 raises it at once, and
writing 1 to STATUS bit 1, the next CMD write and reset lower it. -/
def Obligations.InterruptFollowsEnableAndDone : Prop :=
  (∀ s : State, s.irq = (s.irqEn && s.status.done)) ∧
  (∀ (i : Instr) (s t : State), exec i s = .next t → t.irq = s.irqEn) ∧
  (∀ (s : State) (v : Word), s.status.busy = false → s.status.done = true → v.toNat % 2 = 1 →
    ∃ t, hostAccess (.regWrite 0x00#8 32 v) s = .next t ∧ t.irq = true) ∧
  (∀ (s : State) (v : Word), s.status.busy = false → v.toNat / 2 % 2 = 1 →
    ∃ t, hostAccess (.regWrite 0x04#8 32 v) s = .next t ∧ t.irq = false) ∧
  (∀ (s : State) (w : Word), s.status.busy = false →
    ∃ t, hostAccess (.regWrite 0x08#8 32 w) s = .next t ∧ t.irq = false) ∧
  (∀ s : State, s.resetBlock.irq = false)

/-! ### The host's port -/

/-- The register map of 10_state.md section 2: offset and width of the 55 registers, in order, which field of the state
stands at each offset, and which registers the host can write as a field, which acknowledge and which start a command. -/
def Obligations.RegisterMapIsTheTable : Prop :=
  (Reg.all.map (fun r => (r.offset.toNat, r.width))) =
    [(0x00, 1), (0x04, 11), (0x08, 32), (0x0C, 16), (0x10, 16), (0x14, 17), (0x18, 16), (0x1C, 17),
      (0x20, 8), (0x24, 8), (0x28, 16), (0x2C, 16), (0x30, 16), (0x34, 32), (0x38, 16), (0x3C, 17)] ++
    [(0x40, 8), (0x44, 8), (0x48, 16), (0x4C, 16), (0x50, 16), (0x54, 17), (0x58, 17)] ++
    [(0x60, 4), (0x64, 4), (0x68, 8), (0x6C, 16), (0x70, 16), (0x74, 16), (0x78, 8), (0x7C, 8), (0x80, 16),
      (0x84, 32), (0x88, 32), (0x8C, 6), (0x90, 17), (0x94, 6), (0x98, 17), (0x9C, 17)] ++
    [(0xA0, 4), (0xA4, 8), (0xA8, 20), (0xAC, 16), (0xB0, 8), (0xB4, 8), (0xB8, 17), (0xBC, 17), (0xC0, 32),
      (0xC4, 32), (0xC8, 32), (0xCC, 32), (0xD0, 32), (0xD4, 32), (0xD8, 32), (0xDC, 32)] ∧
  (∀ r : Reg, Reg.ofOffset r.offset = some r) ∧
  (∀ s : State, (registerContents s).map Prod.fst = Reg.all.map Reg.offset) ∧
  (∀ s : State, ∀ p ∈ registerContents s, (readOffset s p.1).toNat = p.2) ∧
  (∀ s : State, s.status.busy = false → ∀ p ∈ registerContents s,
    hostAccess (.regRead p.1 32) s =
      .next { s with host := { s.host with reply := .word (BitVec.ofNat 32 p.2) } }) ∧
  (∀ r : Reg, r.access = .statusW1c ↔ r.offset.toNat = 0x04) ∧
  (∀ r : Reg, r.access = .startsCommand ↔ r.offset.toNat = 0x08) ∧
  (∀ r : Reg, r.access = .rw ↔ r.offset.toNat = 0x00 ∨ (0x0C ≤ r.offset.toNat ∧ r.offset.toNat ≤ 0x30))

/-- 10_state.md R22: a host write of an RW field stores the value cut to the field, in the field of the state that the register
map puts at that offset, and changes no other register, a write of an RO register has no effect, a write of STATUS clears DONE when bit 1 is set and does nothing else; a read returns the field
zero-extended and has no side effect. -/
def Obligations.RegisterAccessTypes : Prop :=
  (∀ (s : State) (v : Word), s.status.busy = false → ∀ p ∈ fieldWrites s v,
    hostAccess (.regWrite p.1 32 v) s = .next { p.2 with host := { s.host with reply := .nothing } }) ∧
  ∀ (s : State) (r : Reg) (v : Word), s.status.busy = false →
    (r.access = .rw → ∃ t, hostAccess (.regWrite r.offset 32 v) s = .next t ∧
      (readReg t r).toNat = v.toNat % 2 ^ r.width ∧ (∀ q : Reg, q ≠ r → readReg t q = readReg s q) ∧
      t.mem = s.mem ∧ t.host = { s.host with reply := .nothing }) ∧
    (r.access = .ro →
      hostAccess (.regWrite r.offset 32 v) s = .next { s with host := { s.host with reply := .nothing } }) ∧
    (r.access = .statusW1c →
      hostAccess (.regWrite r.offset 32 v) s = .next { s with
        status := { s.status with done := if v.toNat / 2 % 2 = 1 then false else s.status.done }
        host := { s.host with reply := .nothing } }) ∧
    hostAccess (.regRead r.offset 32) s =
      .next { s with host := { s.host with reply := .word (readReg s r) } } ∧
    (readReg s r).toNat < 2 ^ r.width

/-- 10_state.md R25: the places of the STATUS fields; every other bit reads 0. -/
def Obligations.StatusWordLayout : Prop :=
  ∀ s : State, (readOffset s 0x04#8).toNat =
    s.status.busy.toNat + 2 * s.status.done.toNat + 16 * s.status.err.toNat + 256 * s.status.cz.toNat +
      512 * s.status.ovf.toNat + 1024 * s.status.estg.toNat

/-- A reserved offset of an idle block reads as 0, and a write to it has no effect (10_state.md section 2). While the block is
busy a write is a protocol violation like any other, and a read returns some value and does nothing else: that its value is
then unspecified is the model's reading (log 5), and the counter that advances is the model's choice (log 4). -/
def Obligations.ReservedOffsetsHoldNothing : Prop :=
  ∀ (s : State) (off : BitVec 8) (v : Word), (off.toNat = 0x5C ∨ (0xE0 ≤ off.toNat ∧ off.toNat % 4 = 0)) →
    (s.status.busy = false →
      hostAccess (.regRead off 32) s = .next { s with host := { s.host with reply := .word 0#32 } } ∧
      hostAccess (.regWrite off 32 v) s = .next { s with host := { s.host with reply := .nothing } }) ∧
    (s.status.busy = true →
      (∃ w : Word, hostAccess (.regRead off 32) s =
        .next { s with host := { s.host with reply := .word w, freeIndex := s.host.freeIndex + 1 } }) ∧
      hostAccess (.regWrite off 32 v) s = .fault .hostBusyViolation)

/-- 70_reset_and_hazards.md R240: while busy, every well-formed host write is `HostBusyViolation`, and a read of STATUS or CMD
returns its current value; the STATUS value then has BUSY 1 and DONE, ERR and ESTG 0. The premise `Inv` rules out states no
run reaches. -/
def Obligations.BusyBlockAllowsOnlyStatusAndCmdReads : Prop :=
  ∀ s : State, Inv s → s.status.busy = true →
    (∀ (off : BitVec 8) (v : Word), off.toNat % 4 = 0 →
      hostAccess (.regWrite off 32 v) s = .fault .hostBusyViolation) ∧
    (∀ (a : Half) (v : Word), hostAccess (.bufWrite a 8 v) s = .fault .hostBusyViolation) ∧
    (∃ w : Word, hostAccess (.regRead 0x04#8 32) s =
        .next { s with host := { s.host with reply := .word w } } ∧
      w.toNat = 1 + 256 * s.status.cz.toNat + 512 * s.status.ovf.toNat) ∧
    hostAccess (.regRead 0x08#8 32) s = .next { s with host := { s.host with reply := .word s.cmd } }

/-- While busy, a read of any offset but those of STATUS and CMD, or of any buffer byte, returns an unspecified value, has no
other effect and is no fault (70_reset_and_hazards.md section 2, 20_memory.md section 3). The values are free values of the
model, one for each index of the state's advancing counter, which is the model's choice (log 4), so they depend on nothing
else of the state; nothing is known of them. That a reserved offset reads so too (log 5), and that a read of an unwritten
byte is then no fault either (log 6), is the model's reading. -/
def Obligations.BusyReadsReturnUnspecifiedValues : Prop :=
  ∃ (word : Nat → Word) (byte : Nat → Byte), ∀ s : State, s.status.busy = true →
    (∀ off : BitVec 8, off.toNat % 4 = 0 → off ≠ 0x04#8 → off ≠ 0x08#8 → hostAccess (.regRead off 32) s = .next { s with
      host := { s.host with reply := .word (word s.host.freeIndex), freeIndex := s.host.freeIndex + 1 } }) ∧
    (∀ a : Half, hostAccess (.bufRead a 8) s = .next { s with
      host := { s.host with reply := .byte (byte s.host.freeIndex), freeIndex := s.host.freeIndex + 1 } })

/-- A register access that is not a whole aligned word and a buffer access that is not one byte are refused, as
`HostBadAccess`; a one-byte access may have any address, and a written byte is read back (20_memory.md sections 1 and 2).
The model's choices: an ill-formed read is `HostBadAccess` while busy too, and an ill-formed write while busy, which breaks
two rules, stops under one of their names (log 7); the low 8 bits of the value carry a written byte (log 12). -/
def Obligations.HostAccessWidthsAreChecked : Prop :=
  (∀ (s : State) (off : BitVec 8) (width : Nat) (v : Word), (width ≠ 32 ∨ off.toNat % 4 ≠ 0) →
    hostAccess (.regRead off width) s = .fault .hostBadAccess ∧
    (s.status.busy = false → hostAccess (.regWrite off width v) s = .fault .hostBadAccess) ∧
    (hostAccess (.regWrite off width v) s = .fault .hostBadAccess ∨
      hostAccess (.regWrite off width v) s = .fault .hostBusyViolation)) ∧
  (∀ (s : State) (a : Half) (width : Nat) (v : Word), width ≠ 8 →
    hostAccess (.bufRead a width) s = .fault .hostBadAccess ∧
    (s.status.busy = false → hostAccess (.bufWrite a width v) s = .fault .hostBadAccess) ∧
    (hostAccess (.bufWrite a width v) s = .fault .hostBadAccess ∨
      hostAccess (.bufWrite a width v) s = .fault .hostBusyViolation)) ∧
  (∀ (s : State) (a : Half) (b : Byte), s.status.busy = false → ∃ m : Memory,
    hostAccess (.bufWrite a 8 (b.setWidth 32)) s =
      .next { s with mem := m, host := { s.host with reply := .nothing } } ∧
    m.byteAt a.toNat = some b ∧ (∀ x, x ≠ a.toNat → m.byteAt x = s.mem.byteAt x) ∧
    hostAccess (.bufRead a 8) { s with mem := m } =
      .next { s with mem := m, host := { s.host with reply := .byte b } })

/-- 20_memory.md R62: a read of an unwritten cell is `UninitRead`, for a host read (of an idle block; R241 governs a busy one)
and for a read by a command. -/
def Obligations.UnwrittenReadIsAFault : Prop :=
  (∀ (s : State) (a : Half), s.status.busy = false → s.mem.byteAt a.toNat = none →
    hostAccess (.bufRead a 8) s = .fault .uninitRead) ∧
  (∀ (s : State) (i : Instr) (x : Nat), readsByte i s x → s.mem.byteAt x = none →
    exec i s = .fault .uninitRead)

/-- No cell returns to unwritten except by reset, over every step (10_state.md section 7). -/
def Obligations.WrittenCellsStayWritten : Prop :=
  ∀ s t : State, step s = .next t → (∀ rest, s.host.agenda ≠ .reset :: rest) →
    ∀ x, (s.mem.byteAt x).isSome = true → (t.mem.byteAt x).isSome = true

/-- Where a platform keeps the two spaces apart, each place of a space has its own host address and is the place that address
names (20_memory.md section 1). -/
def Obligations.HostAddressesNameTheirPlaces : Prop :=
  ∀ pl : Config.Platform,
    (pl.regBase + 256 ≤ pl.bufBase ∨ pl.bufBase + 65536 ≤ pl.regBase) →
    (∀ p : Target, targetOf pl (hostAddress pl p) = some p) ∧
    (∀ (x : Nat) (p : Target), targetOf pl x = some p → hostAddress pl p = x)
end

