-- ==== Sys2Proof/Laws/State.lean ====
section
/-! SUPPORT. One lemma per field per update of the state, so that no later proof unfolds a record update. -/

namespace Sys2Proof.Machine

variable (s : State)

/-! ### `State.withAccumulator` -/

@[simp] theorem State.withAccumulator_irqEn (acc : Word) (ovf : Bool) :
    (s.withAccumulator acc ovf).irqEn =
      s.irqEn := rfl
@[simp] theorem State.withAccumulator_status (acc : Word) (ovf : Bool) :
    (s.withAccumulator acc ovf).status =
      { s.status with ovf := ovf } := rfl
@[simp] theorem State.withAccumulator_cmd (acc : Word) (ovf : Bool) : (s.withAccumulator acc ovf).cmd = s.cmd := rfl
@[simp] theorem State.withAccumulator_opnd (acc : Word) (ovf : Bool) :
    (s.withAccumulator acc ovf).opnd =
      s.opnd := rfl
@[simp] theorem State.withAccumulator_csumAcc (acc : Word) (ovf : Bool) :
    (s.withAccumulator acc ovf).csumAcc =
      acc := rfl
@[simp] theorem State.withAccumulator_csumRes (acc : Word) (ovf : Bool) :
    (s.withAccumulator acc ovf).csumRes =
      s.csumRes := rfl
@[simp] theorem State.withAccumulator_frameLen (acc : Word) (ovf : Bool) :
    (s.withAccumulator acc ovf).frameLen =
      s.frameLen := rfl
@[simp] theorem State.withAccumulator_rx (acc : Word) (ovf : Bool) : (s.withAccumulator acc ovf).rx = s.rx := rfl
@[simp] theorem State.withAccumulator_v4 (acc : Word) (ovf : Bool) : (s.withAccumulator acc ovf).v4 = s.v4 := rfl
@[simp] theorem State.withAccumulator_v6 (acc : Word) (ovf : Bool) : (s.withAccumulator acc ovf).v6 = s.v6 := rfl
@[simp] theorem State.withAccumulator_mem (acc : Word) (ovf : Bool) : (s.withAccumulator acc ovf).mem = s.mem := rfl
@[simp] theorem State.withAccumulator_host (acc : Word) (ovf : Bool) :
    (s.withAccumulator acc ovf).host =
      s.host := rfl

/-! ### `State.withResult` -/

@[simp] theorem State.withResult_irqEn (res : Half) : (s.withResult res).irqEn = s.irqEn := rfl
@[simp] theorem State.withResult_status (res : Half) :
    (s.withResult res).status =
      { s.status with cz := czOf res } := rfl
@[simp] theorem State.withResult_cmd (res : Half) : (s.withResult res).cmd = s.cmd := rfl
@[simp] theorem State.withResult_opnd (res : Half) : (s.withResult res).opnd = s.opnd := rfl
@[simp] theorem State.withResult_csumAcc (res : Half) : (s.withResult res).csumAcc = s.csumAcc := rfl
@[simp] theorem State.withResult_csumRes (res : Half) : (s.withResult res).csumRes = res := rfl
@[simp] theorem State.withResult_frameLen (res : Half) : (s.withResult res).frameLen = s.frameLen := rfl
@[simp] theorem State.withResult_rx (res : Half) : (s.withResult res).rx = s.rx := rfl
@[simp] theorem State.withResult_v4 (res : Half) : (s.withResult res).v4 = s.v4 := rfl
@[simp] theorem State.withResult_v6 (res : Half) : (s.withResult res).v6 = s.v6 := rfl
@[simp] theorem State.withResult_mem (res : Half) : (s.withResult res).mem = s.mem := rfl
@[simp] theorem State.withResult_host (res : Half) : (s.withResult res).host = s.host := rfl

/-! ### `State.withFrameLen` -/

@[simp] theorem State.withFrameLen_irqEn (n : Nat) : (s.withFrameLen n).irqEn = s.irqEn := rfl
@[simp] theorem State.withFrameLen_status (n : Nat) : (s.withFrameLen n).status = s.status := rfl
@[simp] theorem State.withFrameLen_cmd (n : Nat) : (s.withFrameLen n).cmd = s.cmd := rfl
@[simp] theorem State.withFrameLen_opnd (n : Nat) : (s.withFrameLen n).opnd = s.opnd := rfl
@[simp] theorem State.withFrameLen_csumAcc (n : Nat) : (s.withFrameLen n).csumAcc = s.csumAcc := rfl
@[simp] theorem State.withFrameLen_csumRes (n : Nat) : (s.withFrameLen n).csumRes = s.csumRes := rfl
@[simp] theorem State.withFrameLen_frameLen (n : Nat) : (s.withFrameLen n).frameLen = BitVec.ofNat 17 n := rfl
@[simp] theorem State.withFrameLen_rx (n : Nat) : (s.withFrameLen n).rx = s.rx := rfl
@[simp] theorem State.withFrameLen_v4 (n : Nat) : (s.withFrameLen n).v4 = s.v4 := rfl
@[simp] theorem State.withFrameLen_v6 (n : Nat) : (s.withFrameLen n).v6 = s.v6 := rfl
@[simp] theorem State.withFrameLen_mem (n : Nat) : (s.withFrameLen n).mem = s.mem := rfl
@[simp] theorem State.withFrameLen_host (n : Nat) : (s.withFrameLen n).host = s.host := rfl

/-! ### `State.withRx` -/

@[simp] theorem State.withRx_irqEn (b : IcmpBank) : (s.withRx b).irqEn = s.irqEn := rfl
@[simp] theorem State.withRx_status (b : IcmpBank) : (s.withRx b).status = s.status := rfl
@[simp] theorem State.withRx_cmd (b : IcmpBank) : (s.withRx b).cmd = s.cmd := rfl
@[simp] theorem State.withRx_opnd (b : IcmpBank) : (s.withRx b).opnd = s.opnd := rfl
@[simp] theorem State.withRx_csumAcc (b : IcmpBank) : (s.withRx b).csumAcc = s.csumAcc := rfl
@[simp] theorem State.withRx_csumRes (b : IcmpBank) : (s.withRx b).csumRes = s.csumRes := rfl
@[simp] theorem State.withRx_frameLen (b : IcmpBank) : (s.withRx b).frameLen = s.frameLen := rfl
@[simp] theorem State.withRx_rx (b : IcmpBank) : (s.withRx b).rx = b := rfl
@[simp] theorem State.withRx_v4 (b : IcmpBank) : (s.withRx b).v4 = s.v4 := rfl
@[simp] theorem State.withRx_v6 (b : IcmpBank) : (s.withRx b).v6 = s.v6 := rfl
@[simp] theorem State.withRx_mem (b : IcmpBank) : (s.withRx b).mem = s.mem := rfl
@[simp] theorem State.withRx_host (b : IcmpBank) : (s.withRx b).host = s.host := rfl

/-! ### `State.withV4` -/

@[simp] theorem State.withV4_irqEn (b : Ipv4Bank) : (s.withV4 b).irqEn = s.irqEn := rfl
@[simp] theorem State.withV4_status (b : Ipv4Bank) : (s.withV4 b).status = s.status := rfl
@[simp] theorem State.withV4_cmd (b : Ipv4Bank) : (s.withV4 b).cmd = s.cmd := rfl
@[simp] theorem State.withV4_opnd (b : Ipv4Bank) : (s.withV4 b).opnd = s.opnd := rfl
@[simp] theorem State.withV4_csumAcc (b : Ipv4Bank) : (s.withV4 b).csumAcc = s.csumAcc := rfl
@[simp] theorem State.withV4_csumRes (b : Ipv4Bank) : (s.withV4 b).csumRes = s.csumRes := rfl
@[simp] theorem State.withV4_frameLen (b : Ipv4Bank) : (s.withV4 b).frameLen = s.frameLen := rfl
@[simp] theorem State.withV4_rx (b : Ipv4Bank) : (s.withV4 b).rx = s.rx := rfl
@[simp] theorem State.withV4_v4 (b : Ipv4Bank) : (s.withV4 b).v4 = b := rfl
@[simp] theorem State.withV4_v6 (b : Ipv4Bank) : (s.withV4 b).v6 = s.v6 := rfl
@[simp] theorem State.withV4_mem (b : Ipv4Bank) : (s.withV4 b).mem = s.mem := rfl
@[simp] theorem State.withV4_host (b : Ipv4Bank) : (s.withV4 b).host = s.host := rfl

/-! ### `State.withV6` -/

@[simp] theorem State.withV6_irqEn (b : Ipv6Bank) : (s.withV6 b).irqEn = s.irqEn := rfl
@[simp] theorem State.withV6_status (b : Ipv6Bank) : (s.withV6 b).status = s.status := rfl
@[simp] theorem State.withV6_cmd (b : Ipv6Bank) : (s.withV6 b).cmd = s.cmd := rfl
@[simp] theorem State.withV6_opnd (b : Ipv6Bank) : (s.withV6 b).opnd = s.opnd := rfl
@[simp] theorem State.withV6_csumAcc (b : Ipv6Bank) : (s.withV6 b).csumAcc = s.csumAcc := rfl
@[simp] theorem State.withV6_csumRes (b : Ipv6Bank) : (s.withV6 b).csumRes = s.csumRes := rfl
@[simp] theorem State.withV6_frameLen (b : Ipv6Bank) : (s.withV6 b).frameLen = s.frameLen := rfl
@[simp] theorem State.withV6_rx (b : Ipv6Bank) : (s.withV6 b).rx = s.rx := rfl
@[simp] theorem State.withV6_v4 (b : Ipv6Bank) : (s.withV6 b).v4 = s.v4 := rfl
@[simp] theorem State.withV6_v6 (b : Ipv6Bank) : (s.withV6 b).v6 = b := rfl
@[simp] theorem State.withV6_mem (b : Ipv6Bank) : (s.withV6 b).mem = s.mem := rfl
@[simp] theorem State.withV6_host (b : Ipv6Bank) : (s.withV6 b).host = s.host := rfl

/-! ### `State.withMem` -/

@[simp] theorem State.withMem_irqEn (m : Memory) : (s.withMem m).irqEn = s.irqEn := rfl
@[simp] theorem State.withMem_status (m : Memory) : (s.withMem m).status = s.status := rfl
@[simp] theorem State.withMem_cmd (m : Memory) : (s.withMem m).cmd = s.cmd := rfl
@[simp] theorem State.withMem_opnd (m : Memory) : (s.withMem m).opnd = s.opnd := rfl
@[simp] theorem State.withMem_csumAcc (m : Memory) : (s.withMem m).csumAcc = s.csumAcc := rfl
@[simp] theorem State.withMem_csumRes (m : Memory) : (s.withMem m).csumRes = s.csumRes := rfl
@[simp] theorem State.withMem_frameLen (m : Memory) : (s.withMem m).frameLen = s.frameLen := rfl
@[simp] theorem State.withMem_rx (m : Memory) : (s.withMem m).rx = s.rx := rfl
@[simp] theorem State.withMem_v4 (m : Memory) : (s.withMem m).v4 = s.v4 := rfl
@[simp] theorem State.withMem_v6 (m : Memory) : (s.withMem m).v6 = s.v6 := rfl
@[simp] theorem State.withMem_mem (m : Memory) : (s.withMem m).mem = m := rfl
@[simp] theorem State.withMem_host (m : Memory) : (s.withMem m).host = s.host := rfl

/-! ### `State.withHost` -/

@[simp] theorem State.withHost_irqEn (h : HostSide) : (s.withHost h).irqEn = s.irqEn := rfl
@[simp] theorem State.withHost_status (h : HostSide) : (s.withHost h).status = s.status := rfl
@[simp] theorem State.withHost_cmd (h : HostSide) : (s.withHost h).cmd = s.cmd := rfl
@[simp] theorem State.withHost_opnd (h : HostSide) : (s.withHost h).opnd = s.opnd := rfl
@[simp] theorem State.withHost_csumAcc (h : HostSide) : (s.withHost h).csumAcc = s.csumAcc := rfl
@[simp] theorem State.withHost_csumRes (h : HostSide) : (s.withHost h).csumRes = s.csumRes := rfl
@[simp] theorem State.withHost_frameLen (h : HostSide) : (s.withHost h).frameLen = s.frameLen := rfl
@[simp] theorem State.withHost_rx (h : HostSide) : (s.withHost h).rx = s.rx := rfl
@[simp] theorem State.withHost_v4 (h : HostSide) : (s.withHost h).v4 = s.v4 := rfl
@[simp] theorem State.withHost_v6 (h : HostSide) : (s.withHost h).v6 = s.v6 := rfl
@[simp] theorem State.withHost_mem (h : HostSide) : (s.withHost h).mem = s.mem := rfl
@[simp] theorem State.withHost_host (h : HostSide) : (s.withHost h).host = h := rfl

/-! ### `State.complete` -/

@[simp] theorem State.complete_irqEn (c : BitVec 4) : (s.complete c).irqEn = s.irqEn := rfl
@[simp] theorem State.complete_status (c : BitVec 4) :
    (s.complete c).status =
      { s.status with err := c, done := true, busy := false } := rfl
@[simp] theorem State.complete_cmd (c : BitVec 4) : (s.complete c).cmd = s.cmd := rfl
@[simp] theorem State.complete_opnd (c : BitVec 4) : (s.complete c).opnd = s.opnd := rfl
@[simp] theorem State.complete_csumAcc (c : BitVec 4) : (s.complete c).csumAcc = s.csumAcc := rfl
@[simp] theorem State.complete_csumRes (c : BitVec 4) : (s.complete c).csumRes = s.csumRes := rfl
@[simp] theorem State.complete_frameLen (c : BitVec 4) : (s.complete c).frameLen = s.frameLen := rfl
@[simp] theorem State.complete_rx (c : BitVec 4) : (s.complete c).rx = s.rx := rfl
@[simp] theorem State.complete_v4 (c : BitVec 4) : (s.complete c).v4 = s.v4 := rfl
@[simp] theorem State.complete_v6 (c : BitVec 4) : (s.complete c).v6 = s.v6 := rfl
@[simp] theorem State.complete_mem (c : BitVec 4) : (s.complete c).mem = s.mem := rfl
@[simp] theorem State.complete_host (c : BitVec 4) : (s.complete c).host = s.host := rfl

/-! ### `State.fail` -/

@[simp] theorem State.fail_irqEn (e : BlockError) (g : Bool) : (s.fail e g).irqEn = s.irqEn := rfl
@[simp] theorem State.fail_status (e : BlockError) (g : Bool) :
    (s.fail e g).status =
      { s.status with estg := s.status.estg || g, err := e.toCode, done := true, busy := false } := rfl
@[simp] theorem State.fail_cmd (e : BlockError) (g : Bool) : (s.fail e g).cmd = s.cmd := rfl
@[simp] theorem State.fail_opnd (e : BlockError) (g : Bool) : (s.fail e g).opnd = s.opnd := rfl
@[simp] theorem State.fail_csumAcc (e : BlockError) (g : Bool) : (s.fail e g).csumAcc = s.csumAcc := rfl
@[simp] theorem State.fail_csumRes (e : BlockError) (g : Bool) : (s.fail e g).csumRes = s.csumRes := rfl
@[simp] theorem State.fail_frameLen (e : BlockError) (g : Bool) : (s.fail e g).frameLen = s.frameLen := rfl
@[simp] theorem State.fail_rx (e : BlockError) (g : Bool) : (s.fail e g).rx = s.rx := rfl
@[simp] theorem State.fail_v4 (e : BlockError) (g : Bool) : (s.fail e g).v4 = s.v4 := rfl
@[simp] theorem State.fail_v6 (e : BlockError) (g : Bool) : (s.fail e g).v6 = s.v6 := rfl
@[simp] theorem State.fail_mem (e : BlockError) (g : Bool) : (s.fail e g).mem = s.mem := rfl
@[simp] theorem State.fail_host (e : BlockError) (g : Bool) : (s.fail e g).host = s.host := rfl

/-! ### `State.start` -/

@[simp] theorem State.start_irqEn (w : Word) : (s.start w).irqEn = s.irqEn := rfl
@[simp] theorem State.start_status (w : Word) :
    (s.start w).status =
      { s.status with done := false, err := 0#4, estg := false, busy := true } := rfl
@[simp] theorem State.start_cmd (w : Word) : (s.start w).cmd = w := rfl
@[simp] theorem State.start_opnd (w : Word) : (s.start w).opnd = s.opnd := rfl
@[simp] theorem State.start_csumAcc (w : Word) : (s.start w).csumAcc = s.csumAcc := rfl
@[simp] theorem State.start_csumRes (w : Word) : (s.start w).csumRes = s.csumRes := rfl
@[simp] theorem State.start_frameLen (w : Word) : (s.start w).frameLen = s.frameLen := rfl
@[simp] theorem State.start_rx (w : Word) : (s.start w).rx = s.rx := rfl
@[simp] theorem State.start_v4 (w : Word) : (s.start w).v4 = s.v4 := rfl
@[simp] theorem State.start_v6 (w : Word) : (s.start w).v6 = s.v6 := rfl
@[simp] theorem State.start_mem (w : Word) : (s.start w).mem = s.mem := rfl
@[simp] theorem State.start_host (w : Word) : (s.start w).host = s.host := rfl

/-! ### `State.resetBlock` -/

@[simp] theorem State.resetBlock_irqEn : (s.resetBlock).irqEn = State.reset.irqEn := rfl
@[simp] theorem State.resetBlock_status : (s.resetBlock).status = State.reset.status := rfl
@[simp] theorem State.resetBlock_cmd : (s.resetBlock).cmd = State.reset.cmd := rfl
@[simp] theorem State.resetBlock_opnd : (s.resetBlock).opnd = State.reset.opnd := rfl
@[simp] theorem State.resetBlock_csumAcc : (s.resetBlock).csumAcc = State.reset.csumAcc := rfl
@[simp] theorem State.resetBlock_csumRes : (s.resetBlock).csumRes = State.reset.csumRes := rfl
@[simp] theorem State.resetBlock_frameLen : (s.resetBlock).frameLen = State.reset.frameLen := rfl
@[simp] theorem State.resetBlock_rx : (s.resetBlock).rx = State.reset.rx := rfl
@[simp] theorem State.resetBlock_v4 : (s.resetBlock).v4 = State.reset.v4 := rfl
@[simp] theorem State.resetBlock_v6 : (s.resetBlock).v6 = State.reset.v6 := rfl
@[simp] theorem State.resetBlock_mem : (s.resetBlock).mem = State.reset.mem := rfl
@[simp] theorem State.resetBlock_host : (s.resetBlock).host = s.host := rfl

/-! ### `State.ackDone` -/

@[simp] theorem State.ackDone_irqEn (v : Word) : (s.ackDone v).irqEn = s.irqEn := rfl
@[simp] theorem State.ackDone_status (v : Word) :
    (s.ackDone v).status =
      { s.status with done := s.status.done && !v.getLsbD 1 } := rfl
@[simp] theorem State.ackDone_cmd (v : Word) : (s.ackDone v).cmd = s.cmd := rfl
@[simp] theorem State.ackDone_opnd (v : Word) : (s.ackDone v).opnd = s.opnd := rfl
@[simp] theorem State.ackDone_csumAcc (v : Word) : (s.ackDone v).csumAcc = s.csumAcc := rfl
@[simp] theorem State.ackDone_csumRes (v : Word) : (s.ackDone v).csumRes = s.csumRes := rfl
@[simp] theorem State.ackDone_frameLen (v : Word) : (s.ackDone v).frameLen = s.frameLen := rfl
@[simp] theorem State.ackDone_rx (v : Word) : (s.ackDone v).rx = s.rx := rfl
@[simp] theorem State.ackDone_v4 (v : Word) : (s.ackDone v).v4 = s.v4 := rfl
@[simp] theorem State.ackDone_v6 (v : Word) : (s.ackDone v).v6 = s.v6 := rfl
@[simp] theorem State.ackDone_mem (v : Word) : (s.ackDone v).mem = s.mem := rfl
@[simp] theorem State.ackDone_host (v : Word) : (s.ackDone v).host = s.host := rfl

/-! ### `State.replied` -/

@[simp] theorem State.replied_irqEn (r : Reply) : (s.replied r).irqEn = s.irqEn := rfl
@[simp] theorem State.replied_status (r : Reply) : (s.replied r).status = s.status := rfl
@[simp] theorem State.replied_cmd (r : Reply) : (s.replied r).cmd = s.cmd := rfl
@[simp] theorem State.replied_opnd (r : Reply) : (s.replied r).opnd = s.opnd := rfl
@[simp] theorem State.replied_csumAcc (r : Reply) : (s.replied r).csumAcc = s.csumAcc := rfl
@[simp] theorem State.replied_csumRes (r : Reply) : (s.replied r).csumRes = s.csumRes := rfl
@[simp] theorem State.replied_frameLen (r : Reply) : (s.replied r).frameLen = s.frameLen := rfl
@[simp] theorem State.replied_rx (r : Reply) : (s.replied r).rx = s.rx := rfl
@[simp] theorem State.replied_v4 (r : Reply) : (s.replied r).v4 = s.v4 := rfl
@[simp] theorem State.replied_v6 (r : Reply) : (s.replied r).v6 = s.v6 := rfl
@[simp] theorem State.replied_mem (r : Reply) : (s.replied r).mem = s.mem := rfl
@[simp] theorem State.replied_host (r : Reply) : (s.replied r).host = { s.host with reply := r } := rfl

/-! ### `State.repliedFree` -/

@[simp] theorem State.repliedFree_irqEn (r : Reply) : (s.repliedFree r).irqEn = s.irqEn := rfl
@[simp] theorem State.repliedFree_status (r : Reply) : (s.repliedFree r).status = s.status := rfl
@[simp] theorem State.repliedFree_cmd (r : Reply) : (s.repliedFree r).cmd = s.cmd := rfl
@[simp] theorem State.repliedFree_opnd (r : Reply) : (s.repliedFree r).opnd = s.opnd := rfl
@[simp] theorem State.repliedFree_csumAcc (r : Reply) : (s.repliedFree r).csumAcc = s.csumAcc := rfl
@[simp] theorem State.repliedFree_csumRes (r : Reply) : (s.repliedFree r).csumRes = s.csumRes := rfl
@[simp] theorem State.repliedFree_frameLen (r : Reply) : (s.repliedFree r).frameLen = s.frameLen := rfl
@[simp] theorem State.repliedFree_rx (r : Reply) : (s.repliedFree r).rx = s.rx := rfl
@[simp] theorem State.repliedFree_v4 (r : Reply) : (s.repliedFree r).v4 = s.v4 := rfl
@[simp] theorem State.repliedFree_v6 (r : Reply) : (s.repliedFree r).v6 = s.v6 := rfl
@[simp] theorem State.repliedFree_mem (r : Reply) : (s.repliedFree r).mem = s.mem := rfl
@[simp] theorem State.repliedFree_host (r : Reply) :
    (s.repliedFree r).host =
      { s.host with reply := r, freeIndex := s.host.freeIndex + 1 } := rfl

/-! ### `State.setAgenda` -/

@[simp] theorem State.setAgenda_irqEn (l : List Event) : (s.setAgenda l).irqEn = s.irqEn := rfl
@[simp] theorem State.setAgenda_status (l : List Event) : (s.setAgenda l).status = s.status := rfl
@[simp] theorem State.setAgenda_cmd (l : List Event) : (s.setAgenda l).cmd = s.cmd := rfl
@[simp] theorem State.setAgenda_opnd (l : List Event) : (s.setAgenda l).opnd = s.opnd := rfl
@[simp] theorem State.setAgenda_csumAcc (l : List Event) : (s.setAgenda l).csumAcc = s.csumAcc := rfl
@[simp] theorem State.setAgenda_csumRes (l : List Event) : (s.setAgenda l).csumRes = s.csumRes := rfl
@[simp] theorem State.setAgenda_frameLen (l : List Event) : (s.setAgenda l).frameLen = s.frameLen := rfl
@[simp] theorem State.setAgenda_rx (l : List Event) : (s.setAgenda l).rx = s.rx := rfl
@[simp] theorem State.setAgenda_v4 (l : List Event) : (s.setAgenda l).v4 = s.v4 := rfl
@[simp] theorem State.setAgenda_v6 (l : List Event) : (s.setAgenda l).v6 = s.v6 := rfl
@[simp] theorem State.setAgenda_mem (l : List Event) : (s.setAgenda l).mem = s.mem := rfl
@[simp] theorem State.setAgenda_host (l : List Event) : (s.setAgenda l).host = { s.host with agenda := l } := rfl

/-! ### `State.addWords` -/

@[simp] theorem State.addWords_irqEn (ws : List Half) : (s.addWords ws).irqEn = s.irqEn := rfl
@[simp] theorem State.addWords_status (ws : List Half) :
    (s.addWords ws).status =
      { s.status with ovf := s.status.ovf || (accAdd s.csumAcc ws).2 } := rfl
@[simp] theorem State.addWords_cmd (ws : List Half) : (s.addWords ws).cmd = s.cmd := rfl
@[simp] theorem State.addWords_opnd (ws : List Half) : (s.addWords ws).opnd = s.opnd := rfl
@[simp] theorem State.addWords_csumAcc (ws : List Half) : (s.addWords ws).csumAcc = (accAdd s.csumAcc ws).1 := rfl
@[simp] theorem State.addWords_csumRes (ws : List Half) : (s.addWords ws).csumRes = s.csumRes := rfl
@[simp] theorem State.addWords_frameLen (ws : List Half) : (s.addWords ws).frameLen = s.frameLen := rfl
@[simp] theorem State.addWords_rx (ws : List Half) : (s.addWords ws).rx = s.rx := rfl
@[simp] theorem State.addWords_v4 (ws : List Half) : (s.addWords ws).v4 = s.v4 := rfl
@[simp] theorem State.addWords_v6 (ws : List Half) : (s.addWords ws).v6 = s.v6 := rfl
@[simp] theorem State.addWords_mem (ws : List Half) : (s.addWords ws).mem = s.mem := rfl
@[simp] theorem State.addWords_host (ws : List Half) : (s.addWords ws).host = s.host := rfl

/-! ### `State.oneShot` -/

@[simp] theorem State.oneShot_irqEn (ws : List Half) : (s.oneShot ws).irqEn = s.irqEn := rfl
@[simp] theorem State.oneShot_status (ws : List Half) :
    (s.oneShot ws).status =
      { s.status with ovf := (accAdd 0#32 ws).2, cz := czOf (cks (accAdd 0#32 ws).1) } := rfl
@[simp] theorem State.oneShot_cmd (ws : List Half) : (s.oneShot ws).cmd = s.cmd := rfl
@[simp] theorem State.oneShot_opnd (ws : List Half) : (s.oneShot ws).opnd = s.opnd := rfl
@[simp] theorem State.oneShot_csumAcc (ws : List Half) : (s.oneShot ws).csumAcc = (accAdd 0#32 ws).1 := rfl
@[simp] theorem State.oneShot_csumRes (ws : List Half) : (s.oneShot ws).csumRes = cks (accAdd 0#32 ws).1 := rfl
@[simp] theorem State.oneShot_frameLen (ws : List Half) : (s.oneShot ws).frameLen = s.frameLen := rfl
@[simp] theorem State.oneShot_rx (ws : List Half) : (s.oneShot ws).rx = s.rx := rfl
@[simp] theorem State.oneShot_v4 (ws : List Half) : (s.oneShot ws).v4 = s.v4 := rfl
@[simp] theorem State.oneShot_v6 (ws : List Half) : (s.oneShot ws).v6 = s.v6 := rfl
@[simp] theorem State.oneShot_mem (ws : List Half) : (s.oneShot ws).mem = s.mem := rfl
@[simp] theorem State.oneShot_host (ws : List Half) : (s.oneShot ws).host = s.host := rfl

end Sys2Proof.Machine
end

