-- ==== Sys2Proof/Laws/Memory.lean ====
section
/-! SUPPORT. The packet buffer: read after write, the canonical form and that every operation keeps it, that
canonical buffers are equal when their cells are, and what `MemRead` and `Words` answer. -/

namespace Sys2Proof.Machine

open Sys2Proof.Safety

/-! ### Read after write -/

@[simp] theorem Memory.byteAt_nil (a : Nat) : Memory.byteAt [] a = none := rfl

theorem Memory.byteAt_cons (k : Nat) (b : Byte) (m : Memory) (a : Nat) :
    Memory.byteAt ((k, b) :: m) a = if k = a then some b else Memory.byteAt m a := rfl

theorem Memory.byteAt_write (m : Memory) (a : Nat) (b : Byte) (x : Nat) :
    (m.write a b).byteAt x = if x = a then some b else m.byteAt x := by
  induction m with
  | nil => simp only [Memory.write, Memory.byteAt_cons, eq_comm]
  | cons cell m ih =>
    obtain ⟨k, c⟩ := cell
    simp only [Memory.write]
    split
    · simp only [Memory.byteAt_cons, eq_comm]
    · split
      · subst k; simp only [Memory.byteAt_cons, eq_comm]; split <;> rfl
      · simp only [Memory.byteAt_cons, ih]
        split
        · subst k; simp only [Ne.symm ‹¬a = _›, if_false]
        · rfl

@[simp] theorem Memory.byteAt_write_same (m : Memory) (a : Nat) (b : Byte) :
    (m.write a b).byteAt a = some b := by simp [Memory.byteAt_write]

theorem Memory.byteAt_write_other (m : Memory) (a : Nat) (b : Byte) {x : Nat} (h : x ≠ a) :
    (m.write a b).byteAt x = m.byteAt x := by simp [Memory.byteAt_write, h]

@[simp] theorem Memory.writeBytes_nil (m : Memory) (a : Nat) : m.writeBytes a [] = m := by
  cases m <;> rfl

@[simp] theorem Memory.writeBytes_cons (m : Memory) (a : Nat) (b : Byte) (bs : List Byte) :
    m.writeBytes a (b :: bs) = (m.write a b).writeBytes (a + 1) bs := by
  cases m <;> rfl

/-- Everything a write of consecutive bytes can do to a cell. -/
theorem Memory.byteAt_writeBytes (m : Memory) (a : Nat) (bs : List Byte) (x : Nat) :
    (m.writeBytes a bs).byteAt x =
      if a ≤ x ∧ x < a + bs.length then bs[x - a]? else m.byteAt x := by
  induction bs generalizing m a with
  | nil =>
    have h : ¬(a ≤ x ∧ x < a + ([] : List Byte).length) := by simp
    rw [if_neg h, Memory.writeBytes_nil]
  | cons b bs ih =>
    rw [Memory.writeBytes_cons, ih, Memory.byteAt_write, List.length_cons]
    by_cases hx : x = a
    · subst x
      rw [if_neg (by omega), if_pos rfl, if_pos (by omega)]
      simp
    · by_cases hr : a + 1 ≤ x ∧ x < a + 1 + bs.length
      · rw [if_pos hr, if_pos (by omega), show x - a = (x - (a + 1)) + 1 by omega, List.getElem?_cons_succ]
      · rw [if_neg hr, if_neg hx, if_neg (by omega)]

theorem spanHolds_writeBytes (m : Memory) (a : Nat) (bs : List Byte) :
    spanHolds (m.writeBytes a bs) a bs := by
  intro k hk
  rw [Memory.byteAt_writeBytes, if_pos (by omega), Nat.add_sub_cancel_left]

theorem Memory.byteAt_writeBytes_outside (m : Memory) (a : Nat) (bs : List Byte) {x : Nat}
    (h : ¬inSpan a bs.length x) : (m.writeBytes a bs).byteAt x = m.byteAt x := by
  rw [Memory.byteAt_writeBytes]; exact if_neg h

theorem spanHolds_writeBytes_after (m : Memory) (a : Nat) (bs body : List Byte)
    (h : spanHolds m (a + bs.length) body) :
    spanHolds (m.writeBytes a bs) (a + bs.length) body := by
  intro k hk
  rw [Memory.byteAt_writeBytes_outside _ _ _ (by unfold inSpan; omega)]
  exact h k hk

theorem spanHolds_append (m : Memory) (a : Nat) (xs ys : List Byte) :
    spanHolds m a (xs ++ ys) ↔ spanHolds m a xs ∧ spanHolds m (a + xs.length) ys := by
  constructor
  · intro h
    refine ⟨fun k hk => ?_, fun k hk => ?_⟩
    · rw [h k (by simp; omega), List.getElem?_append_left hk]
    · rw [Nat.add_assoc, h (xs.length + k) (by simp; omega), List.getElem?_append_right (by omega),
        Nat.add_sub_cancel_left]
  · rintro ⟨h1, h2⟩ k hk
    by_cases hx : k < xs.length
    · rw [h1 k hx, List.getElem?_append_left hx]
    · have hk' : k - xs.length < ys.length := by simp at hk; omega
      have := h2 (k - xs.length) hk'
      rw [show a + xs.length + (k - xs.length) = a + k by omega] at this
      rw [this, List.getElem?_append_right (by omega)]

theorem spanHolds_cons (m : Memory) (a : Nat) (b : Byte) (bs : List Byte) :
    spanHolds m a (b :: bs) ↔ m.byteAt a = some b ∧ spanHolds m (a + 1) bs := by
  rw [show b :: bs = [b] ++ bs from rfl, spanHolds_append]
  constructor
  · rintro ⟨h1, h2⟩; exact ⟨by simpa using h1 0 (by simp), h2⟩
  · rintro ⟨h1, h2⟩
    refine ⟨fun k hk => ?_, h2⟩
    obtain rfl : k = 0 := by simpa using hk
    simpa using h1

theorem spanHolds_nil (m : Memory) (a : Nat) : spanHolds m a [] := fun _ hk => absurd hk (by simp)

theorem spanWritten_of_holds {m : Memory} {a : Nat} {bs : List Byte} (h : spanHolds m a bs) :
    spanWritten m a bs.length := by
  intro k hk
  rw [h k hk, List.getElem?_eq_getElem hk]
  rfl

/-- A written span holds some bytes. -/
theorem holds_of_spanWritten {m : Memory} {a n : Nat} (h : spanWritten m a n) :
    ∃ bs : List Byte, bs.length = n ∧ spanHolds m a bs := by
  induction n generalizing a with
  | zero => exact ⟨[], rfl, spanHolds_nil m a⟩
  | succ n ih =>
    obtain ⟨bs, hl, hb⟩ := ih (a := a + 1) (fun k hk => by
      rw [show a + 1 + k = a + (k + 1) by omega]; exact h (k + 1) (by omega))
    obtain ⟨b, hb0⟩ := Option.isSome_iff_exists.mp (h 0 (by omega))
    exact ⟨b :: bs, by simp [hl], (spanHolds_cons m a b bs).mpr ⟨hb0, hb⟩⟩

/-! ### The canonical form -/

theorem Memory.wfFrom_cons (lo k : Nat) (b : Byte) (m : Memory) :
    Memory.wfFrom lo ((k, b) :: m) = true ↔
      lo ≤ k ∧ k < Config.bufSize ∧ Memory.wfFrom (k + 1) m = true := by
  simp [Memory.wfFrom, and_assoc]

theorem Memory.wfFrom_mono {lo lo' : Nat} (h : lo' ≤ lo) {m : Memory} (hm : m.wfFrom lo = true) :
    m.wfFrom lo' = true := by
  cases m with
  | nil => rfl
  | cons cell m =>
    obtain ⟨k, b⟩ := cell
    rw [Memory.wfFrom_cons] at hm ⊢
    exact ⟨by omega, hm.2⟩

theorem Memory.wfFrom_write {lo a : Nat} {b : Byte} {m : Memory} (hm : m.wfFrom lo = true) (hlo : lo ≤ a)
    (ha : a < Config.bufSize) : (m.write a b).wfFrom lo = true := by
  induction m generalizing lo with
  | nil => exact (Memory.wfFrom_cons lo a b []).mpr ⟨hlo, ha, rfl⟩
  | cons cell m ih =>
    obtain ⟨k, c⟩ := cell
    obtain ⟨h1, h2, h3⟩ := (Memory.wfFrom_cons lo k c m).mp hm
    simp only [Memory.write]
    split
    · exact (Memory.wfFrom_cons _ _ _ _).mpr ⟨hlo, ha, (Memory.wfFrom_cons _ _ _ _).mpr ⟨by omega, h2, h3⟩⟩
    · split
      · subst k; exact (Memory.wfFrom_cons _ _ _ _).mpr ⟨hlo, ha, h3⟩
      · exact (Memory.wfFrom_cons _ _ _ _).mpr ⟨h1, h2, ih h3 (by omega)⟩

/-- A write of one cell inside the buffer keeps the canonical form. -/
theorem Memory.wf_write {a : Nat} {b : Byte} {m : Memory} (hm : m.wf = true) (ha : a < Config.bufSize) :
    (m.write a b).wf = true :=
  Memory.wfFrom_write hm (Nat.zero_le _) ha

/-- A write of bytes inside the buffer keeps the canonical form. -/
theorem Memory.wf_writeBytes {a : Nat} {bs : List Byte} {m : Memory} (hm : m.wf = true)
    (ha : a + bs.length ≤ Config.bufSize) : (m.writeBytes a bs).wf = true := by
  induction bs generalizing m a with
  | nil => simpa using hm
  | cons b bs ih =>
    simp only [List.length_cons] at ha
    rw [Memory.writeBytes_cons]
    exact ih (Memory.wf_write hm (by omega)) (by omega)

theorem Memory.byteAt_of_wfFrom {lo : Nat} {m : Memory} (hm : m.wfFrom lo = true) {x : Nat}
    (hx : (m.byteAt x).isSome = true) : lo ≤ x ∧ x < Config.bufSize := by
  induction m generalizing lo with
  | nil => simp at hx
  | cons cell m ih =>
    obtain ⟨k, c⟩ := cell
    obtain ⟨h1, h2, h3⟩ := (Memory.wfFrom_cons lo k c m).mp hm
    rw [Memory.byteAt_cons] at hx
    split at hx
    · subst x; exact ⟨h1, h2⟩
    · have := ih h3 hx; omega

/-- Equal buffers are equal data: canonical buffers with the same cells are the same list. -/
theorem Memory.ext_of_wfFrom {lo lo' : Nat} {m m' : Memory} (hm : m.wfFrom lo = true)
    (hm' : m'.wfFrom lo' = true) (h : ∀ x, m.byteAt x = m'.byteAt x) : m = m' := by
  induction m generalizing lo lo' m' with
  | nil =>
    cases m' with
    | nil => rfl
    | cons cell m' => have := h cell.1; obtain ⟨k, c⟩ := cell; simp [Memory.byteAt_cons] at this
  | cons cell m ih =>
    obtain ⟨k, c⟩ := cell
    obtain ⟨_, _, h3⟩ := (Memory.wfFrom_cons lo k c m).mp hm
    have hmk : ∀ x, x ≤ k → Memory.byteAt m x = none := by
      intro x hx
      cases hc : Memory.byteAt m x with
      | none => rfl
      | some b => have := Memory.byteAt_of_wfFrom h3 (x := x) (by simp [hc]); omega
    cases m' with
    | nil => have := h k; simp [Memory.byteAt_cons] at this
    | cons cell' m' =>
      obtain ⟨k', c'⟩ := cell'
      obtain ⟨_, _, h3'⟩ := (Memory.wfFrom_cons lo' k' c' m').mp hm'
      have hmk' : ∀ x, x ≤ k' → Memory.byteAt m' x = none := by
        intro x hx
        cases hc : Memory.byteAt m' x with
        | none => rfl
        | some b => have := Memory.byteAt_of_wfFrom h3' (x := x) (by simp [hc]); omega
      have hk : k = k' := by
        rcases Nat.lt_trichotomy k k' with hlt | heq | hgt
        · have := h k
          rw [Memory.byteAt_cons, Memory.byteAt_cons, if_pos rfl, if_neg (by omega), hmk' k (by omega)] at this
          cases this
        · exact heq
        · have := h k'
          rw [Memory.byteAt_cons, Memory.byteAt_cons, if_neg (by omega), if_pos rfl, hmk k' (by omega)] at this
          cases this
      subst hk
      have hc : c = c' := by have := h k; simpa [Memory.byteAt_cons] using this
      subst hc
      congr 1
      apply ih h3 h3'
      intro x
      by_cases hx : x ≤ k
      · rw [hmk x hx, hmk' x hx]
      · have := h x
        rwa [Memory.byteAt_cons, Memory.byteAt_cons, if_neg (by omega), if_neg (by omega)] at this

theorem Memory.ext_of_wf {m m' : Memory} (hm : m.wf = true) (hm' : m'.wf = true)
    (h : ∀ x, m.byteAt x = m'.byteAt x) : m = m' :=
  Memory.ext_of_wfFrom hm hm' h

/-- Reset memory has the canonical form. -/
theorem Memory.wf_reset : State.reset.mem.wf = true := rfl

/-! ### `MemByte` and `MemRead` -/

theorem memByte_of_some {m : Memory} {a : Nat} {b : Byte} (h : m.byteAt a = some b) :
    memByte m a = .ok b := by simp [memByte, h]

theorem memByte_of_none {m : Memory} {a : Nat} (h : m.byteAt a = none) :
    memByte m a = .error (.fault .uninitRead) := by simp [memByte, h]

/-- Everything `MemByte` can answer. -/
theorem memByte_cases (m : Memory) (a : Nat) :
    (∃ b, m.byteAt a = some b ∧ memByte m a = .ok b) ∨
      (m.byteAt a = none ∧ memByte m a = .error (.fault .uninitRead)) := by
  cases h : m.byteAt a with
  | none => exact .inr ⟨rfl, memByte_of_none h⟩
  | some b => exact .inl ⟨b, rfl, memByte_of_some h⟩

theorem beValue_append (xs ys : List Byte) :
    beValue (xs ++ ys) = beValue xs * 256 ^ ys.length + beValue ys := by
  induction xs with
  | nil => simp [beValue]
  | cons x xs ih =>
    simp only [List.cons_append, beValue, ih, List.length_append, pow_add, Nat.add_mul, Nat.mul_assoc, Nat.add_assoc]

theorem beValue_lt (xs : List Byte) : beValue xs < 256 ^ xs.length := by
  induction xs with
  | nil => simp [beValue]
  | cons x xs ih =>
    have hx : x.toNat + 1 ≤ 256 := x.isLt
    calc beValue (x :: xs) = x.toNat * 256 ^ xs.length + beValue xs := rfl
      _ < x.toNat * 256 ^ xs.length + 256 ^ xs.length := by omega
      _ = (x.toNat + 1) * 256 ^ xs.length := by rw [Nat.add_mul, Nat.one_mul]
      _ ≤ 256 * 256 ^ xs.length := Nat.mul_le_mul_right _ hx
      _ = 256 ^ (x :: xs).length := by rw [List.length_cons, pow_succ, Nat.mul_comm]

/-- `MemRead` over written bytes is their big-endian value. -/
theorem memRead_of_holds {m : Memory} {a : Nat} {bs : List Byte} (h : spanHolds m a bs) :
    memRead m a bs.length = .ok (beValue bs) := by
  induction bs using List.reverseRecOn with
  | nil => rfl
  | append_singleton xs x ih =>
    obtain ⟨h1, h2⟩ := (spanHolds_append m a xs [x]).mp h
    obtain ⟨hx, _⟩ := (spanHolds_cons m _ x []).mp h2
    rw [List.length_append, List.length_singleton]
    simp only [memRead, ih h1, memByte_of_some hx, beValue_append, List.length_singleton]
    simp [beValue, bind, Except.bind, pure, Except.pure]

/-- `MemRead` over a span with an unwritten byte is the model fault. -/
theorem memRead_of_unwritten {m : Memory} {a n : Nat} (h : ¬spanWritten m a n) :
    memRead m a n = .error (.fault .uninitRead) := by
  induction n with
  | zero => exact absurd (fun k hk => absurd hk (by omega)) h
  | succ n ih =>
    by_cases hn : spanWritten m a n
    · obtain ⟨bs, hl, hb⟩ := holds_of_spanWritten hn
      have hr := memRead_of_holds hb
      rw [hl] at hr
      have hx : m.byteAt (a + n) = none := by
        cases hc : m.byteAt (a + n) with
        | none => rfl
        | some b =>
          exact absurd (fun k hk => by
            rcases Nat.lt_or_ge k n with hlt | hge
            · exact hn k hlt
            · obtain rfl : k = n := by omega
              simp [hc]) h
      simp [memRead, hr, memByte_of_none hx, bind, Except.bind]
    · simp [memRead, ih hn, bind, Except.bind]

/-! ### `Words` -/

/-- The checksum words of bytes, as the accumulator takes them (00_scope.md R16). -/
def wordsOf : List Byte → List Half
  | [] => []
  | [x] => [x ++ 0#8]
  | x :: y :: rest => BitVec.ofNat 16 (beValue [x, y]) :: wordsOf rest

theorem words_of_holds {m : Memory} {a : Nat} {bs : List Byte} (h : spanHolds m a bs) :
    words m a bs.length = .ok (wordsOf bs) := by
  induction bs using wordsOf.induct generalizing a with
  | case1 => rfl
  | case2 x =>
    obtain ⟨hx, _⟩ := (spanHolds_cons m a x []).mp h
    simp [words, wordsOf, memByte_of_some hx, bind, Except.bind, pure, Except.pure]
  | case3 x y rest ih =>
    obtain ⟨h1, h2⟩ := (spanHolds_append m a [x, y] rest).mp h
    have hr : memRead m a 2 = .ok (beValue [x, y]) := memRead_of_holds h1
    have hw := ih h2
    rw [show ([x, y] : List Byte).length = 2 from rfl] at hw
    simp [words, wordsOf, hr, hw, bind, Except.bind, pure, Except.pure]

theorem words_of_unwritten {m : Memory} {a n : Nat} (h : ¬spanWritten m a n) :
    words m a n = .error (.fault .uninitRead) := by
  induction n using Nat.strongRecOn generalizing a with
  | ind n ih =>
    match n, h, ih with
    | 0, h, _ => exact absurd (fun k hk => absurd hk (by omega)) h
    | 1, h, _ =>
      rcases memByte_cases m a with ⟨b, hb, _⟩ | ⟨_, he⟩
      · exact absurd (fun k hk => by obtain rfl : k = 0 := by omega
                                     simp [hb]) h
      · simp [words, he, bind, Except.bind]
    | n + 2, h, ih =>
      by_cases h2 : spanWritten m a 2
      · obtain ⟨bs, hl, hb⟩ := holds_of_spanWritten h2
        have hr := memRead_of_holds hb
        rw [hl] at hr
        have hrest : ¬spanWritten m (a + 2) n := by
          intro hn
          apply h
          intro k hk
          rcases Nat.lt_or_ge k 2 with hlt | hge
          · exact h2 k hlt
          · have := hn (k - 2) (by omega)
            rwa [show a + 2 + (k - 2) = a + k by omega] at this
        simp [words, hr, ih n (by omega) hrest, bind, Except.bind]
      · simp [words, memRead_of_unwritten h2, bind, Except.bind]

/-- The sum of the checksum words of bytes is their exact word sum. -/
theorem sum_wordsOf (bs : List Byte) : ((wordsOf bs).map BitVec.toNat).sum = wordSum bs := by
  induction bs using wordsOf.induct with
  | case1 => rfl
  | case2 x =>
    have h : (x ++ 0#8).toNat = x.toNat * 256 := by
      rw [BitVec.toNat_append]; simp [Nat.shiftLeft_eq]
    rw [wordsOf, wordSum, List.map_singleton, List.sum_singleton]
    exact h
  | case3 x y rest ih =>
    have hx := x.isLt
    have hy := y.isLt
    have h : (BitVec.ofNat 16 (beValue [x, y])).toNat = x.toNat * 256 + y.toNat := by
      simp [beValue, BitVec.toNat_ofNat]; omega
    rw [wordsOf, wordSum, List.map_cons, List.sum_cons, ih, h]

end Sys2Proof.Machine
end

