-- ==== Sys2Proof/Laws/Arithmetic.lean ====
section
/-! SUPPORT. Checksum arithmetic in closed form: the accumulator after words, the fold as a number, the finished
checksum, and how large a sum of bytes can be. -/

namespace Sys2Proof.Machine

open Sys2Proof.Safety

theorem fold_eq_twoPass (s : Word) : fold s = twoPass s.toNat := by
  simp [fold, foldPass, twoPass]

/-- Everything two passes do to a sum below 2^32. -/
theorem twoPass_spec {n : Nat} (h : n < 2 ^ 32) :
    twoPass n ≤ 65535 ∧ twoPass n % 65535 = n % 65535 ∧ (twoPass n = 0 ↔ n = 0) := by
  simp only [twoPass]; omega

theorem cks_toNat (s : Word) : (cks s).toNat = 65535 - fold s := by
  have h := twoPass_spec s.isLt
  rw [← fold_eq_twoPass] at h
  rw [cks, BitVec.toNat_not, BitVec.toNat_ofNat, Nat.mod_eq_of_lt (by omega)]

theorem checksumOf_toNat {n : Nat} (h : n < 2 ^ 32) : (checksumOf n).toNat = 65535 - twoPass n := by
  have := twoPass_spec h
  rw [checksumOf, BitVec.toNat_ofNat, Nat.mod_eq_of_lt (by omega)]

theorem cks_eq_checksumOf (s : Word) : cks s = checksumOf s.toNat := by
  apply BitVec.eq_of_toNat_eq
  rw [cks_toNat, checksumOf_toNat s.isLt, fold_eq_twoPass]

/-- The accumulator's loop in closed form. -/
theorem accAddFrom_closed (ws : List Half) (acc : Word) (o : Bool) :
    (accAddFrom acc o ws).1.toNat = (acc.toNat + (ws.map BitVec.toNat).sum) % 2 ^ 32 ∧
      ((accAddFrom acc o ws).2 = true ↔ o = true ∨ 2 ^ 32 ≤ acc.toNat + (ws.map BitVec.toNat).sum) := by
  induction ws generalizing acc o with
  | nil => have := acc.isLt; simp [accAddFrom]; omega
  | cons w ws ih =>
    rw [accAddFrom]
    obtain ⟨h1, h2⟩ := ih (BitVec.ofNat 32 (acc.toNat + w.toNat)) (o || decide (2 ^ 32 ≤ acc.toNat + w.toNat))
    have e : (BitVec.ofNat 32 (acc.toNat + w.toNat)).toNat = (acc.toNat + w.toNat) % 4294967296 :=
      BitVec.toNat_ofNat ..
    rw [h1, h2, e]
    simp only [List.map_cons, List.sum_cons, Bool.or_eq_true, decide_eq_true_eq]
    have := acc.isLt
    have := w.isLt
    refine ⟨by omega, ?_⟩
    cases o
    · simp only [Bool.false_eq_true, false_or]; omega
    · simp

theorem accAdd_fst (acc : Word) (ws : List Half) :
    (accAdd acc ws).1 = BitVec.ofNat 32 (acc.toNat + (ws.map BitVec.toNat).sum) := by
  apply BitVec.eq_of_toNat_eq
  rw [BitVec.toNat_ofNat]
  exact (accAddFrom_closed ws acc false).1

theorem accAdd_snd (acc : Word) (ws : List Half) :
    (accAdd acc ws).2 = decide (2 ^ 32 ≤ acc.toNat + (ws.map BitVec.toNat).sum) := by
  have h := (accAddFrom_closed ws acc false).2
  rw [Bool.eq_iff_iff, decide_eq_true_eq, accAdd]
  simpa using h

theorem wordSum_le (bs : List Byte) : wordSum bs ≤ (bs.length + 1) / 2 * 65535 := by
  induction bs using wordSum.induct with
  | case1 => simp [wordSum]
  | case2 x => have := x.isLt; simp [wordSum]; omega
  | case3 x y r ih => have := x.isLt; have := y.isLt; simp [wordSum]; omega

theorem czOf_eq (r : Half) : czOf r = decide (r = 0#16) := by
  rw [Bool.eq_iff_iff]; simp [czOf]

/-- The big-endian join of two bytes, as a number. -/
theorem append_toNat (x y : Byte) : (x ++ y).toNat = x.toNat * 256 + y.toNat := by
  have := y.isLt
  rw [BitVec.toNat_append, Nat.shiftLeft_eq, Nat.mul_comm, ← Nat.two_pow_add_eq_or_of_lt this]

theorem hiByte_loByte (v : Half) : (hiByte v).toNat * 256 + (loByte v).toNat = v.toNat := by
  have := v.isLt
  simp [hiByte, loByte, BitVec.extractLsb'_toNat, Nat.shiftRight_eq_div_pow]; omega

theorem hiByte_append_loByte (v : Half) : hiByte v ++ loByte v = v := by
  apply BitVec.eq_of_toNat_eq; rw [append_toNat, hiByte_loByte]

/-- A sum that starts from 0 and stays below 2^32, in closed form. -/
theorem State.oneShot_eq (s : State) {ws : List Half} {n : Nat} (hs : (ws.map BitVec.toNat).sum = n)
    (h : n < 2 ^ 32) :
    s.oneShot ws = { s with
      csumAcc := BitVec.ofNat 32 n
      csumRes := checksumOf n
      status := { s.status with ovf := false, cz := decide (checksumOf n = 0#16) } } := by
  have e : (accAdd 0#32 ws).1 = BitVec.ofNat 32 n := by rw [accAdd_fst, hs]; simp
  have o : (accAdd 0#32 ws).2 = false := by rw [accAdd_snd, hs]; simp; omega
  have c : cks (BitVec.ofNat 32 n) = checksumOf n := by
    rw [cks_eq_checksumOf, BitVec.toNat_ofNat, Nat.mod_eq_of_lt h]
  simp only [State.oneShot, State.withAccumulator, State.withResult, e, o, c, czOf_eq]

/-- The exact sum of an echo request's checksum words. -/
theorem sum_requestWords (fam : Family) (s : State) (bs : List Byte) :
    ((requestWords fam s (wordsOf bs)).map BitVec.toNat).sum =
      (requestType fam).toNat * 256 + s.opnd.txIdent.toNat + s.opnd.txSeq.toNat + wordSum bs := by
  rw [requestWords, List.map_append, List.sum_append, sum_wordsOf]
  simp [headerWords, append_toNat]; omega

end Sys2Proof.Machine
end

