-- ==== Sys2Proof/Laws/Commands.lean ====
section
/-! SUPPORT. What the shared operations of commands can answer: the completion around a rule, the bounds check, the
header fields, and for each command everything its rule can commit, raise or stop on. -/

namespace Sys2Proof.Machine

open Sys2Proof.Safety

/-! ### Completion -/

@[simp] theorem runCommand_ok (s t : State) : runCommand s (.ok t) = .next (t.complete 0#4) := rfl

@[simp] theorem runCommand_raised (s : State) (e : BlockError) (g : Bool) :
    runCommand s (.error (.raised e g)) = .next (s.fail e g) := rfl

@[simp] theorem runCommand_fault (s : State) (f : Fault) :
    runCommand s (.error (.fault f)) = .fault f := rfl

/-- Everything a command can come to: its rule commits, or raises, or stops on a model fault. -/
theorem runCommand_next_iff (s t : State) (rule : Except Stop State) :
    runCommand s rule = .next t ↔
      (∃ u, rule = .ok u ∧ t = u.complete 0#4) ∨
        ∃ e g, rule = .error (.raised e g) ∧ t = s.fail e g := by
  match rule with
  | .ok u => simp [eq_comm]
  | .error (.raised e g) =>
    constructor
    · intro h; cases h; exact .inr ⟨e, g, rfl, rfl⟩
    · rintro (⟨u, hu, _⟩ | ⟨e', g', he, ht⟩)
      · cases hu
      · cases he; rw [ht]; rfl
  | .error (.fault f) => simp

theorem runCommand_fault_iff (s : State) (f : Fault) (rule : Except Stop State) :
    runCommand s rule = .fault f ↔ rule = .error (.fault f) := by
  match rule with
  | .ok u => simp
  | .error (.raised e g) => simp
  | .error (.fault f) => simp

theorem runCommand_not_refused (s : State) (r : Refusal) (rule : Except Stop State) :
    runCommand s rule ≠ .refused r := by
  match rule with
  | .ok u => simp
  | .error (.raised e g) => simp
  | .error (.fault f) => simp

theorem toCode_ne_zero (e : BlockError) : e.toCode ≠ 0#4 := by cases e <;> decide

theorem toCode_le (e : BlockError) : e.toCode.toNat ≤ 5 := by cases e <;> decide

theorem complete_eq (s : State) (c : BitVec 4) :
    s.complete c = { s with status := completed s.status c } := rfl

theorem fail_false_eq (s : State) (e : BlockError) :
    s.fail e false = { s with status := completed s.status e.toCode } := by
  simp [State.fail, completed]

/-! ### The bounds check -/

theorem checkSpan_of_le {a n : Nat} (h : a + n ≤ 65536) : checkSpan a n = .ok ⟨a, n⟩ := if_pos h

theorem checkSpan_of_gt {a n : Nat} (h : 65536 < a + n) :
    checkSpan a n = .error (.raised .bounds false) := if_neg (Nat.not_le.mpr h)

/-- Everything the bounds check can answer. -/
theorem checkSpan_cases (a n : Nat) :
    (a + n ≤ 65536 ∧ checkSpan a n = .ok ⟨a, n⟩) ∨
      (65536 < a + n ∧ checkSpan a n = .error (.raised .bounds false)) := by
  rcases Nat.lt_or_ge 65536 (a + n) with h | h
  · exact .inr ⟨h, checkSpan_of_gt h⟩
  · exact .inl ⟨h, checkSpan_of_le h⟩

/-! ### Fields of a header -/

/-- Everything `MemRead` can answer. -/
theorem memRead_cases (m : Memory) (a n : Nat) :
    (∃ bs : List Byte, bs.length = n ∧ spanHolds m a bs ∧ memRead m a n = .ok (beValue bs)) ∨
      (¬spanWritten m a n ∧ memRead m a n = .error (.fault .uninitRead)) := by
  by_cases h : spanWritten m a n
  · obtain ⟨bs, hl, hb⟩ := holds_of_spanWritten h
    exact .inl ⟨bs, hl, hb, by have := memRead_of_holds hb; rwa [hl] at this⟩
  · exact .inr ⟨h, memRead_of_unwritten h⟩

/-- A read that answers puts its bytes among the written ones. -/
theorem written_of_memRead {m : Memory} {a n v : Nat} (h : memRead m a n = .ok v) : spanWritten m a n := by
  rcases memRead_cases m a n with ⟨bs, hl, hb, _⟩ | ⟨_, he⟩
  · exact hl ▸ spanWritten_of_holds hb
  · rw [he] at h; cases h

theorem memRead_error {m : Memory} {a n : Nat} {e : Stop} (h : memRead m a n = .error e) :
    e = .fault .uninitRead := by
  rcases memRead_cases m a n with ⟨bs, hl, hb, ho⟩ | ⟨_, he⟩
  · rw [ho] at h; cases h
  · rw [he] at h; cases h; rfl

/-- A cell of a written part of a span. -/
theorem written_at {m : Memory} {a off len k : Nat} (h : spanWritten m (a + off) len) (h1 : off ≤ k)
    (h2 : k < off + len) : (m.byteAt (a + k)).isSome = true := by
  have := h (k - off) (by omega)
  rwa [show a + off + (k - off) = a + k by omega] at this

/-- Everything `Words` can answer. -/
theorem words_cases (m : Memory) (a n : Nat) :
    (∃ bs : List Byte, bs.length = n ∧ spanHolds m a bs ∧ words m a n = .ok (wordsOf bs)) ∨
      (¬spanWritten m a n ∧ words m a n = .error (.fault .uninitRead)) := by
  by_cases h : spanWritten m a n
  · obtain ⟨bs, hl, hb⟩ := holds_of_spanWritten h
    exact .inl ⟨bs, hl, hb, by have := words_of_holds hb; rwa [hl] at this⟩
  · exact .inr ⟨h, words_of_unwritten h⟩

/-- A part of a written span, as a field of the bytes it holds. -/
theorem memRead_field {m : Memory} {a : Nat} {h : List Byte} (hh : spanHolds m a h) {off n : Nat}
    (hn : off + n ≤ h.length) : memRead m (a + off) n = .ok (field h off n) := by
  have hspan : spanHolds m (a + off) ((h.drop off).take n) := by
    intro k hk
    have hkn : k < n := by simp at hk; omega
    rw [Nat.add_assoc, hh (off + k) (by omega), List.getElem?_take, if_pos hkn, List.getElem?_drop]
  have hr := memRead_of_holds hspan
  rwa [show ((h.drop off).take n).length = n by simp; omega] at hr

theorem spanWritten_part {m : Memory} {a n : Nat} (h : spanWritten m a n) {off k : Nat} (hk : off + k ≤ n) :
    spanWritten m (a + off) k := by
  intro j hj
  rw [Nat.add_assoc]
  exact h (off + j) (by omega)

theorem hiNibble_toNat (b : Byte) : (hiNibble b).toNat = b.toNat / 16 := by
  have := b.isLt
  simp [hiNibble, BitVec.extractLsb'_toNat, Nat.shiftRight_eq_div_pow]
  omega

theorem loNibble_toNat (b : Byte) : (loNibble b).toNat = b.toNat % 16 := by
  simp [loNibble, BitVec.extractLsb'_toNat]

theorem hiNibble_eq_iff (b : Byte) (v : BitVec 4) : hiNibble b = v ↔ b.toNat / 16 = v.toNat := by
  rw [← BitVec.toNat_inj, hiNibble_toNat]

theorem hdrBytes_loNibble (b : Byte) : hdrBytes (loNibble b) = b.toNat % 16 * 4 := by
  rw [hdrBytes, loNibble_toNat]

/-- A one-byte field is the byte. -/
theorem ofNat_beValue_one (b : Byte) : BitVec.ofNat 8 (beValue [b]) = b := by
  simp [beValue]

/-- A two-byte field is its bytes side by side, the first in the high position (20_memory.md R63, R65). -/
theorem ofNat_beValue_two (x y : Byte) : BitVec.ofNat 16 (beValue [x, y]) = x ++ y := by
  apply BitVec.eq_of_toNat_eq
  have hx := x.isLt
  have hy := y.isLt
  have : (x ++ y).toNat = x.toNat * 256 + y.toNat := by
    rw [BitVec.toNat_append, Nat.shiftLeft_eq, Nat.mul_comm, ← Nat.two_pow_add_eq_or_of_lt hy]
  simp [beValue] at *
  omega

/-! ### `IcmpFields` -/

theorem icmpFields_of_short (m : Memory) {a n : Nat} (h : n < 8) (g : Bool) :
    icmpFields m a n g = .error (.raised .truncatedInput g) := if_pos h

theorem icmpFields_of_holds {m : Memory} {a n : Nat} (h : 8 ≤ n) (g : Bool) {b0 b1 b2 b3 b4 b5 b6 b7 : Byte}
    (hb : spanHolds m a [b0, b1, b2, b3, b4, b5, b6, b7]) :
    icmpFields m a n g = .ok
      { type := b0, code := b1, csum := b2 ++ b3, ident := b4 ++ b5, seq := b6 ++ b7,
        bodyAddr := BitVec.ofNat 17 (a + 8), bodyLen := BitVec.ofNat 17 (n - 8) } := by
  have h0 := memRead_field hb (off := 0) (n := 1) (by simp)
  have h1 := memRead_field hb (off := 1) (n := 1) (by simp)
  have h2 := memRead_field hb (off := 2) (n := 2) (by simp)
  have h4 := memRead_field hb (off := 4) (n := 2) (by simp)
  have h6 := memRead_field hb (off := 6) (n := 2) (by simp)
  rw [Nat.add_zero] at h0
  rw [icmpFields, if_neg (by omega)]
  simp only [h0, h1, h2, h4, h6, field, bind, Except.bind, pure, Except.pure, List.drop, List.take,
    ofNat_beValue_one, ofNat_beValue_two]

theorem icmpFields_of_unwritten {m : Memory} {a n : Nat} (h : 8 ≤ n) (g : Bool) (hw : ¬spanWritten m a 8) :
    icmpFields m a n g = .error (.fault .uninitRead) := by
  rw [icmpFields, if_neg (by omega)]
  cases e0 : memRead m a 1 with
  | error e => cases memRead_error e0; rfl
  | ok v0 =>
  cases e1 : memRead m (a + 1) 1 with
  | error e => cases memRead_error e1; rfl
  | ok v1 =>
  cases e2 : memRead m (a + 2) 2 with
  | error e => cases memRead_error e2; rfl
  | ok v2 =>
  cases e3 : memRead m (a + 4) 2 with
  | error e => cases memRead_error e3; rfl
  | ok v3 =>
  cases e4 : memRead m (a + 6) 2 with
  | error e => cases memRead_error e4; rfl
  | ok v4 =>
  refine absurd (fun k hk => ?_) hw
  rcases (by omega : k < 1 ∨ (1 ≤ k ∧ k < 2) ∨ (2 ≤ k ∧ k < 4) ∨ (4 ≤ k ∧ k < 6) ∨ 6 ≤ k) with
    h | h | h | h | h
  · exact written_of_memRead e0 k h
  · exact written_at (written_of_memRead e1) h.1 (by omega)
  · exact written_at (written_of_memRead e2) h.1 (by omega)
  · exact written_at (written_of_memRead e3) h.1 (by omega)
  · exact written_at (written_of_memRead e4) h (by omega)

/-- A written span of eight bytes, byte by byte. -/
theorem spanWritten_eight {m : Memory} {a : Nat} (h : spanWritten m a 8) :
    ∃ b0 b1 b2 b3 b4 b5 b6 b7 : Byte, spanHolds m a [b0, b1, b2, b3, b4, b5, b6, b7] := by
  obtain ⟨bs, hl, hb⟩ := holds_of_spanWritten h
  match bs, hl with
  | [b0, b1, b2, b3, b4, b5, b6, b7], _ => exact ⟨b0, b1, b2, b3, b4, b5, b6, b7, hb⟩

/-- Everything `IcmpFields` can answer. -/
theorem icmpFields_cases (m : Memory) (a n : Nat) (g : Bool) :
    (n < 8 ∧ icmpFields m a n g = .error (.raised .truncatedInput g)) ∨
    (8 ≤ n ∧ ¬spanWritten m a 8 ∧ icmpFields m a n g = .error (.fault .uninitRead)) ∨
    (8 ≤ n ∧ ∃ b0 b1 b2 b3 b4 b5 b6 b7 : Byte, spanHolds m a [b0, b1, b2, b3, b4, b5, b6, b7] ∧
      icmpFields m a n g = .ok
        { type := b0, code := b1, csum := b2 ++ b3, ident := b4 ++ b5, seq := b6 ++ b7,
          bodyAddr := BitVec.ofNat 17 (a + 8), bodyLen := BitVec.ofNat 17 (n - 8) }) := by
  rcases Nat.lt_or_ge n 8 with h | h
  · exact .inl ⟨h, icmpFields_of_short m h g⟩
  · by_cases hw : spanWritten m a 8
    · obtain ⟨b0, b1, b2, b3, b4, b5, b6, b7, hb⟩ := spanWritten_eight hw
      exact .inr (.inr ⟨h, b0, b1, b2, b3, b4, b5, b6, b7, hb, icmpFields_of_holds h g hb⟩)
    · exact .inr (.inl ⟨h, hw, icmpFields_of_unwritten h g hw⟩)

/-! ### `V4Fields` -/

theorem v4Bank_of_holds {m : Memory} {a : Nat} {h : List Byte} (hl : h.length = 20) (hh : spanHolds m a h)
    (n : Nat) (ihl : BitVec 4) :
    v4Bank m a n ihl = .ok
      { version := 4#4
        ihl := ihl
        tos := BitVec.ofNat 8 (field h 1 1)
        totalLen := BitVec.ofNat 16 (field h 2 2)
        ident := BitVec.ofNat 16 (field h 4 2)
        flagsOff := BitVec.ofNat 16 (field h 6 2)
        ttl := BitVec.ofNat 8 (field h 8 1)
        proto := BitVec.ofNat 8 (field h 9 1)
        hdrCsum := BitVec.ofNat 16 (field h 10 2)
        src := BitVec.ofNat 32 (field h 12 4)
        dst := BitVec.ofNat 32 (field h 16 4)
        hdrLen := BitVec.ofNat 6 (hdrBytes ihl)
        optAddr := BitVec.ofNat 17 (a + 20)
        optLen := BitVec.ofNat 6 (hdrBytes ihl - 20)
        payloadAddr := BitVec.ofNat 17 (a + hdrBytes ihl)
        payloadLen := BitVec.ofNat 17 (n - hdrBytes ihl) } := by
  have r1 := memRead_field hh (off := 1) (n := 1) (by omega)
  have r2 := memRead_field hh (off := 2) (n := 2) (by omega)
  have r4 := memRead_field hh (off := 4) (n := 2) (by omega)
  have r6 := memRead_field hh (off := 6) (n := 2) (by omega)
  have r8 := memRead_field hh (off := 8) (n := 1) (by omega)
  have r9 := memRead_field hh (off := 9) (n := 1) (by omega)
  have r10 := memRead_field hh (off := 10) (n := 2) (by omega)
  have r12 := memRead_field hh (off := 12) (n := 4) (by omega)
  have r16 := memRead_field hh (off := 16) (n := 4) (by omega)
  simp only [v4Bank, r1, r2, r4, r6, r8, r9, r10, r12, r16, bind, Except.bind, pure, Except.pure]

theorem v4Bank_of_unwritten {m : Memory} {a : Nat} (h0 : (m.byteAt a).isSome = true) (hw : ¬spanWritten m a 20)
    (n : Nat) (ihl : BitVec 4) : v4Bank m a n ihl = .error (.fault .uninitRead) := by
  unfold v4Bank
  cases e1 : memRead m (a + 1) 1 with
  | error e => cases memRead_error e1; rfl
  | ok v1 =>
  cases e2 : memRead m (a + 2) 2 with
  | error e => cases memRead_error e2; rfl
  | ok v2 =>
  cases e3 : memRead m (a + 4) 2 with
  | error e => cases memRead_error e3; rfl
  | ok v3 =>
  cases e4 : memRead m (a + 6) 2 with
  | error e => cases memRead_error e4; rfl
  | ok v4 =>
  cases e5 : memRead m (a + 8) 1 with
  | error e => cases memRead_error e5; rfl
  | ok v5 =>
  cases e6 : memRead m (a + 9) 1 with
  | error e => cases memRead_error e6; rfl
  | ok v6 =>
  cases e7 : memRead m (a + 10) 2 with
  | error e => cases memRead_error e7; rfl
  | ok v7 =>
  cases e8 : memRead m (a + 12) 4 with
  | error e => cases memRead_error e8; rfl
  | ok v8 =>
  cases e9 : memRead m (a + 16) 4 with
  | error e => cases memRead_error e9; rfl
  | ok v9 =>
  refine absurd (fun k hk => ?_) hw
  rcases (by omega : k = 0 ∨ (1 ≤ k ∧ k < 2) ∨ (2 ≤ k ∧ k < 4) ∨ (4 ≤ k ∧ k < 6) ∨ (6 ≤ k ∧ k < 8) ∨
    (8 ≤ k ∧ k < 9) ∨ (9 ≤ k ∧ k < 10) ∨ (10 ≤ k ∧ k < 12) ∨ (12 ≤ k ∧ k < 16) ∨ 16 ≤ k) with
    rfl | h | h | h | h | h | h | h | h | h
  · simpa using h0
  · exact written_at (written_of_memRead e1) h.1 (by omega)
  · exact written_at (written_of_memRead e2) h.1 (by omega)
  · exact written_at (written_of_memRead e3) h.1 (by omega)
  · exact written_at (written_of_memRead e4) h.1 (by omega)
  · exact written_at (written_of_memRead e5) h.1 (by omega)
  · exact written_at (written_of_memRead e6) h.1 (by omega)
  · exact written_at (written_of_memRead e7) h.1 (by omega)
  · exact written_at (written_of_memRead e8) h.1 (by omega)
  · exact written_at (written_of_memRead e9) h (by omega)

/-- Everything `V4Fields` can answer, in the order of its tests. -/
theorem v4Fields_cases (m : Memory) (a n : Nat) :
    (n = 0 ∧ v4Fields m a n = .error (.raised .truncatedInput false)) ∨
    (1 ≤ n ∧ m.byteAt a = none ∧ v4Fields m a n = .error (.fault .uninitRead)) ∨
    (1 ≤ n ∧ ∃ b, m.byteAt a = some b ∧
      ((b.toNat / 16 ≠ 4 ∧ v4Fields m a n = .error (.raised .unsupportedVersion false)) ∨
       (b.toNat / 16 = 4 ∧ n < 20 ∧ v4Fields m a n = .error (.raised .truncatedInput false)) ∨
       (b.toNat / 16 = 4 ∧ 20 ≤ n ∧ b.toNat % 16 < 5 ∧
         v4Fields m a n = .error (.raised .malformedHeader false)) ∨
       (b.toNat / 16 = 4 ∧ 20 ≤ n ∧ 5 ≤ b.toNat % 16 ∧ n < b.toNat % 16 * 4 ∧
         v4Fields m a n = .error (.raised .truncatedInput false)) ∨
       (b.toNat / 16 = 4 ∧ 5 ≤ b.toNat % 16 ∧ b.toNat % 16 * 4 ≤ n ∧
         v4Fields m a n = v4Bank m a n (loNibble b)))) := by
  unfold v4Fields
  rcases Nat.eq_zero_or_pos n with h | h
  · exact .inl ⟨h, if_pos (by omega)⟩
  · rw [if_neg (by omega)]
    rcases memByte_cases m a with ⟨b, hb, hr⟩ | ⟨hb, hr⟩
    · refine .inr (.inr ⟨h, b, hb, ?_⟩)
      simp only [hr, bind, Except.bind, ne_eq, hiNibble_eq_iff, hdrBytes_loNibble]
      rw [show (4#4).toNat = 4 from rfl]
      by_cases h1 : b.toNat / 16 = 4
      · by_cases h2 : n < 20
        · exact .inr (.inl ⟨h1, h2, by simp [h1, h2]⟩)
        · by_cases h3 : b.toNat % 16 * 4 < 20
          · exact .inr (.inr (.inl ⟨h1, by omega, by omega, by simp [h1, h2, h3]⟩))
          · by_cases h4 : n < b.toNat % 16 * 4
            · exact .inr (.inr (.inr (.inl ⟨h1, by omega, by omega, h4, by simp [h1, h2, h3, h4]⟩)))
            · exact .inr (.inr (.inr (.inr ⟨h1, by omega, by omega, by simp [h1, h2, h3, h4]⟩)))
      · exact .inl ⟨h1, by simp [h1]⟩
    · exact .inr (.inl ⟨h, hb, by simp [hr, bind, Except.bind]⟩)

/-! ### The IPv6 header -/

theorem v6Bank_of_holds {m : Memory} {a : Nat} {h : List Byte} (hl : h.length = 40) (hh : spanHolds m a h)
    (n : Nat) (b0 : Byte) :
    ∃ b1 : Byte, m.byteAt (a + 1) = some b1 ∧ b1.toNat = field h 1 1 ∧
      v6Bank m a n b0 = .ok
        { version := 6#4
          tclass := loNibble b0 ++ hiNibble b1
          flow := loNibble b1 ++ BitVec.ofNat 16 (field h 2 2)
          plen := BitVec.ofNat 16 (field h 4 2)
          nxt := BitVec.ofNat 8 (field h 6 1)
          hoplim := BitVec.ofNat 8 (field h 7 1)
          payloadAddr := BitVec.ofNat 17 (a + 40)
          payloadLen := BitVec.ofNat 17 (n - 40)
          src0 := BitVec.ofNat 32 (field h 8 4)
          src1 := BitVec.ofNat 32 (field h 12 4)
          src2 := BitVec.ofNat 32 (field h 16 4)
          src3 := BitVec.ofNat 32 (field h 20 4)
          dst0 := BitVec.ofNat 32 (field h 24 4)
          dst1 := BitVec.ofNat 32 (field h 28 4)
          dst2 := BitVec.ofNat 32 (field h 32 4)
          dst3 := BitVec.ofNat 32 (field h 36 4) } := by
  match h, hl with
  | c0 :: c1 :: rest, hl =>
    have hb : m.byteAt (a + 1) = some c1 := hh 1 (by simp)
    refine ⟨c1, hb, by simp [field, beValue], ?_⟩
    have r2 := memRead_field hh (off := 2) (n := 2) (by omega)
    have r4 := memRead_field hh (off := 4) (n := 2) (by omega)
    have r6 := memRead_field hh (off := 6) (n := 1) (by omega)
    have r7 := memRead_field hh (off := 7) (n := 1) (by omega)
    have r8 := memRead_field hh (off := 8) (n := 4) (by omega)
    have r12 := memRead_field hh (off := 12) (n := 4) (by omega)
    have r16 := memRead_field hh (off := 16) (n := 4) (by omega)
    have r20 := memRead_field hh (off := 20) (n := 4) (by omega)
    have r24 := memRead_field hh (off := 24) (n := 4) (by omega)
    have r28 := memRead_field hh (off := 28) (n := 4) (by omega)
    have r32 := memRead_field hh (off := 32) (n := 4) (by omega)
    have r36 := memRead_field hh (off := 36) (n := 4) (by omega)
    simp only [v6Bank, memByte_of_some hb, r2, r4, r6, r7, r8, r12, r16, r20, r24, r28, r32, r36, bind,
      Except.bind, pure, Except.pure]

theorem memByte_error {m : Memory} {a : Nat} {e : Stop} (h : memByte m a = .error e) :
    e = .fault .uninitRead := by
  rcases memByte_cases m a with ⟨b, _, ho⟩ | ⟨_, he⟩
  · rw [ho] at h; cases h
  · rw [he] at h; cases h; rfl

theorem v6Bank_of_unwritten {m : Memory} {a : Nat} (h0 : (m.byteAt a).isSome = true) (hw : ¬spanWritten m a 40)
    (n : Nat) (b0 : Byte) : v6Bank m a n b0 = .error (.fault .uninitRead) := by
  unfold v6Bank
  cases e1 : memByte m (a + 1) with
  | error e => cases memByte_error e1; rfl
  | ok v1 =>
  cases e2 : memRead m (a + 2) 2 with
  | error e => cases memRead_error e2; rfl
  | ok v2 =>
  cases e3 : memRead m (a + 4) 2 with
  | error e => cases memRead_error e3; rfl
  | ok v3 =>
  cases e4 : memRead m (a + 6) 1 with
  | error e => cases memRead_error e4; rfl
  | ok v4 =>
  cases e5 : memRead m (a + 7) 1 with
  | error e => cases memRead_error e5; rfl
  | ok v5 =>
  cases e6 : memRead m (a + 8) 4 with
  | error e => cases memRead_error e6; rfl
  | ok v6 =>
  cases e7 : memRead m (a + 12) 4 with
  | error e => cases memRead_error e7; rfl
  | ok v7 =>
  cases e8 : memRead m (a + 16) 4 with
  | error e => cases memRead_error e8; rfl
  | ok v8 =>
  cases e9 : memRead m (a + 20) 4 with
  | error e => cases memRead_error e9; rfl
  | ok v9 =>
  cases e10 : memRead m (a + 24) 4 with
  | error e => cases memRead_error e10; rfl
  | ok v10 =>
  cases e11 : memRead m (a + 28) 4 with
  | error e => cases memRead_error e11; rfl
  | ok v11 =>
  cases e12 : memRead m (a + 32) 4 with
  | error e => cases memRead_error e12; rfl
  | ok v12 =>
  cases e13 : memRead m (a + 36) 4 with
  | error e => cases memRead_error e13; rfl
  | ok v13 =>
  refine absurd (fun k hk => ?_) hw
  rcases (by omega : k = 0 ∨ k = 1 ∨ (2 ≤ k ∧ k < 4) ∨ (4 ≤ k ∧ k < 6) ∨ (6 ≤ k ∧ k < 7) ∨ (7 ≤ k ∧ k < 8) ∨
    (8 ≤ k ∧ k < 12) ∨ (12 ≤ k ∧ k < 16) ∨ (16 ≤ k ∧ k < 20) ∨ (20 ≤ k ∧ k < 24) ∨ (24 ≤ k ∧ k < 28) ∨
    (28 ≤ k ∧ k < 32) ∨ (32 ≤ k ∧ k < 36) ∨ 36 ≤ k) with
    rfl | rfl | h | h | h | h | h | h | h | h | h | h | h | h
  · simpa using h0
  · rcases memByte_cases m (a + 1) with ⟨b, hb, _⟩ | ⟨_, he⟩
    · simp [hb]
    · rw [he] at e1; cases e1
  · exact written_at (written_of_memRead e2) h.1 (by omega)
  · exact written_at (written_of_memRead e3) h.1 (by omega)
  · exact written_at (written_of_memRead e4) h.1 (by omega)
  · exact written_at (written_of_memRead e5) h.1 (by omega)
  · exact written_at (written_of_memRead e6) h.1 (by omega)
  · exact written_at (written_of_memRead e7) h.1 (by omega)
  · exact written_at (written_of_memRead e8) h.1 (by omega)
  · exact written_at (written_of_memRead e9) h.1 (by omega)
  · exact written_at (written_of_memRead e10) h.1 (by omega)
  · exact written_at (written_of_memRead e11) h.1 (by omega)
  · exact written_at (written_of_memRead e12) h.1 (by omega)
  · exact written_at (written_of_memRead e13) h (by omega)

/-- Everything the IPv6 rule's checks and reads can answer, in the order of its tests. -/
theorem v6Fields_cases (m : Memory) (a n : Nat) :
    (n = 0 ∧ v6Fields m a n = .error (.raised .truncatedInput false)) ∨
    (1 ≤ n ∧ m.byteAt a = none ∧ v6Fields m a n = .error (.fault .uninitRead)) ∨
    (1 ≤ n ∧ ∃ b, m.byteAt a = some b ∧
      ((b.toNat / 16 ≠ 6 ∧ v6Fields m a n = .error (.raised .unsupportedVersion false)) ∨
       (b.toNat / 16 = 6 ∧ n < 40 ∧ v6Fields m a n = .error (.raised .truncatedInput false)) ∨
       (b.toNat / 16 = 6 ∧ 40 ≤ n ∧ v6Fields m a n = v6Bank m a n b))) := by
  unfold v6Fields
  rcases Nat.eq_zero_or_pos n with h | h
  · exact .inl ⟨h, if_pos (by omega)⟩
  · rw [if_neg (by omega)]
    rcases memByte_cases m a with ⟨b, hb, hr⟩ | ⟨hb, hr⟩
    · refine .inr (.inr ⟨h, b, hb, ?_⟩)
      simp only [hr, bind, Except.bind, ne_eq, hiNibble_eq_iff]
      rw [show (6#4).toNat = 6 from rfl]
      by_cases h1 : b.toNat / 16 = 6
      · by_cases h2 : n < 40
        · exact .inr (.inl ⟨h1, h2, by simp [h1, h2]⟩)
        · exact .inr (.inr ⟨h1, by omega, by simp [h1, h2]⟩)
      · exact .inl ⟨h1, by simp [h1]⟩
    · exact .inr (.inl ⟨h, hb, by simp [hr, bind, Except.bind]⟩)

/-! ### One rule for each command -/

/-- The rule a command runs inside its completion. -/
def ruleOf (i : Instr) (s : State) : Except Stop State :=
  match i with
  | .nop => .ok s
  | .csumClr => .ok (s.withAccumulator 0#32 false)
  | .csumAddw => .ok (s.addWords [s.opnd.opa])
  | .csumAddb => csumAddbRule s
  | .csumFin => .ok (s.withResult (cks s.csumAcc))
  | .csumBuf => csumBufRule s
  | .icmpEnc => icmpEncRule s
  | .echoBuildV4 => echoBuildRule .v4 s
  | .echoBuildV6 => echoBuildRule .v6 s
  | .icmpDec => icmpDecRule s
  | .ipv4Dec => ipv4DecRule s
  | .ipv6Dec => ipv6DecRule s
  | .rxParseV4 => rxParseV4Rule s
  | .rxParseV6 => rxParseV6Rule s

/-- `exec` is the completion around the command's rule. -/
theorem exec_eq_runCommand (i : Instr) (s : State) : exec i s = runCommand s (ruleOf i s) := by
  cases i <;> rfl

/-- Everything `exec` can answer. -/
theorem exec_next_iff (i : Instr) (s t : State) :
    exec i s = .next t ↔
      (∃ u, ruleOf i s = .ok u ∧ t = u.complete 0#4) ∨
        ∃ e g, ruleOf i s = .error (.raised e g) ∧ t = s.fail e g := by
  rw [exec_eq_runCommand, runCommand_next_iff]

theorem exec_fault_iff (i : Instr) (s : State) (f : Fault) :
    exec i s = .fault f ↔ ruleOf i s = .error (.fault f) := by
  rw [exec_eq_runCommand, runCommand_fault_iff]

theorem exec_not_refused (i : Instr) (s : State) (r : Refusal) : exec i s ≠ .refused r := by
  rw [exec_eq_runCommand]; exact runCommand_not_refused s r _

/-- Everything the rule of `CSUM_ADDB` can answer. -/
theorem csumAddbRule_cases (s : State) :
    (65536 < s.opnd.srcAddr.toNat + s.opnd.srcLen.toNat ∧
      csumAddbRule s = .error (.raised .bounds false)) ∨
    (s.opnd.srcAddr.toNat + s.opnd.srcLen.toNat ≤ 65536 ∧
      ((¬spanWritten s.mem s.opnd.srcAddr.toNat s.opnd.srcLen.toNat ∧
          csumAddbRule s = .error (.fault .uninitRead)) ∨
        ∃ bs : List Byte, bs.length = s.opnd.srcLen.toNat ∧ spanHolds s.mem s.opnd.srcAddr.toNat bs ∧
          csumAddbRule s = .ok (s.addWords (wordsOf bs)))) := by
  unfold csumAddbRule srcSpan
  rcases checkSpan_cases s.opnd.srcAddr.toNat s.opnd.srcLen.toNat with ⟨h, he⟩ | ⟨h, he⟩
  · refine .inr ⟨h, ?_⟩
    rcases words_cases s.mem s.opnd.srcAddr.toNat s.opnd.srcLen.toNat with ⟨bs, hl, hb, hw⟩ | ⟨hn, hw⟩
    · exact .inr ⟨bs, hl, hb, by simp [he, hw, bind, Except.bind, pure, Except.pure]⟩
    · exact .inl ⟨hn, by simp [he, hw, bind, Except.bind]⟩
  · exact .inl ⟨h, by simp [he, bind, Except.bind]⟩

/-- Everything the rule of `CSUM_BUF` can answer. -/
theorem csumBufRule_cases (s : State) :
    (65536 < s.opnd.srcAddr.toNat + s.opnd.srcLen.toNat ∧
      csumBufRule s = .error (.raised .bounds false)) ∨
    (s.opnd.srcAddr.toNat + s.opnd.srcLen.toNat ≤ 65536 ∧
      ((¬spanWritten s.mem s.opnd.srcAddr.toNat s.opnd.srcLen.toNat ∧
          csumBufRule s = .error (.fault .uninitRead)) ∨
        ∃ bs : List Byte, bs.length = s.opnd.srcLen.toNat ∧ spanHolds s.mem s.opnd.srcAddr.toNat bs ∧
          csumBufRule s = .ok (s.oneShot (wordsOf bs)))) := by
  unfold csumBufRule srcSpan
  rcases checkSpan_cases s.opnd.srcAddr.toNat s.opnd.srcLen.toNat with ⟨h, he⟩ | ⟨h, he⟩
  · refine .inr ⟨h, ?_⟩
    rcases words_cases s.mem s.opnd.srcAddr.toNat s.opnd.srcLen.toNat with ⟨bs, hl, hb, hw⟩ | ⟨hn, hw⟩
    · exact .inr ⟨bs, hl, hb, by simp [he, hw, bind, Except.bind, pure, Except.pure]⟩
    · exact .inl ⟨hn, by simp [he, hw, bind, Except.bind]⟩
  · exact .inl ⟨h, by simp [he, bind, Except.bind]⟩

/-- The header's bytes as the encoder writes them are its wire bytes. -/
theorem icmpHeader_eq (type code : Byte) (csum ident seq : Half) :
    icmpHeader type code csum ident seq = headerBytes type code csum ident seq := by
  have hb : ∀ b : Byte, beBytes 1 b.toNat = [b] := by intro b; simp [beBytes]
  have hh : ∀ v : Half, beBytes 2 v.toNat = [hiByte v, loByte v] := by
    intro v
    have hv := v.isLt
    simp only [beBytes, hiByte, loByte, List.cons.injEq, and_true]
    constructor <;> apply BitVec.eq_of_toNat_eq <;>
      simp [BitVec.extractLsb'_toNat, Nat.shiftRight_eq_div_pow]
  simp only [icmpHeader, headerBytes, hb, hh, List.cons_append, List.nil_append]

@[simp] theorem headerBytes_length (type code : Byte) (csum ident seq : Half) :
    (headerBytes type code csum ident seq).length = 8 := rfl

/-- Everything the rule of `ICMP_ENC` can answer. -/
theorem icmpEncRule_cases (s : State) :
    (65536 < s.opnd.dstAddr.toNat + 8 ∧ icmpEncRule s = .error (.raised .bounds false)) ∨
    (s.opnd.dstAddr.toNat + 8 ≤ 65536 ∧ icmpEncRule s = .ok (s.withMem (s.mem.writeBytes s.opnd.dstAddr.toNat
      (headerBytes s.opnd.txType s.opnd.txCode s.opnd.txCsum s.opnd.txIdent s.opnd.txSeq)))) := by
  unfold icmpEncRule hdrSpan
  rcases checkSpan_cases s.opnd.dstAddr.toNat 8 with ⟨h, he⟩ | ⟨h, he⟩
  · exact .inr ⟨h, by simp [he, icmpHeader_eq, bind, Except.bind, pure, Except.pure]⟩
  · exact .inl ⟨h, by simp [he, bind, Except.bind]⟩

/-- Everything the rule of `ECHO_BUILD` can answer. -/
theorem echoBuildRule_cases (fam : Family) (s : State) :
    (65536 < s.opnd.dstAddr.toNat + (8 + s.opnd.bodyLen.toNat) ∧
      echoBuildRule fam s = .error (.raised .bounds false)) ∨
    (s.opnd.dstAddr.toNat + (8 + s.opnd.bodyLen.toNat) ≤ 65536 ∧
      ((¬spanWritten s.mem (s.opnd.dstAddr.toNat + 8) s.opnd.bodyLen.toNat ∧
          echoBuildRule fam s = .error (.fault .uninitRead)) ∨
        ∃ bs : List Byte, bs.length = s.opnd.bodyLen.toNat ∧
          spanHolds s.mem (s.opnd.dstAddr.toNat + 8) bs ∧
          echoBuildRule fam s = .ok (((s.withMem (s.mem.writeBytes s.opnd.dstAddr.toNat
            (headerBytes (requestType fam) 0#8 (requestCsum fam s (wordsOf bs)) s.opnd.txIdent s.opnd.txSeq))).oneShot
              (requestWords fam s (wordsOf bs))).withFrameLen (8 + s.opnd.bodyLen.toNat)))) := by
  unfold echoBuildRule frameSpan
  rcases checkSpan_cases s.opnd.dstAddr.toNat (8 + s.opnd.bodyLen.toNat) with ⟨h, he⟩ | ⟨h, he⟩
  · refine .inr ⟨h, ?_⟩
    rcases words_cases s.mem (s.opnd.dstAddr.toNat + 8) s.opnd.bodyLen.toNat with ⟨bs, hl, hb, hw⟩ | ⟨hn, hw⟩
    · exact .inr ⟨bs, hl, hb, by simp [he, hw, icmpHeader_eq, bind, Except.bind, pure, Except.pure]⟩
    · exact .inl ⟨hn, by simp [he, hw, bind, Except.bind]⟩
  · exact .inl ⟨h, by simp [he, bind, Except.bind]⟩

/-- What a decoder's rule answers, from what its fields answer. -/
theorem icmpDecRule_eq (s : State) :
    icmpDecRule s =
      if s.opnd.srcAddr.toNat + s.opnd.srcLen.toNat ≤ 65536 then
        (icmpFields s.mem s.opnd.srcAddr.toNat s.opnd.srcLen.toNat false).map s.withRx
      else .error (.raised .bounds false) := by
  unfold icmpDecRule srcSpan
  rcases checkSpan_cases s.opnd.srcAddr.toNat s.opnd.srcLen.toNat with ⟨h, he⟩ | ⟨h, he⟩
  · rw [if_pos h, he]
    simp only [bind, Except.bind]
    cases icmpFields s.mem s.opnd.srcAddr.toNat s.opnd.srcLen.toNat false <;> rfl
  · rw [if_neg (by omega), he]; rfl

theorem rxParseV6Rule_eq (s : State) : rxParseV6Rule s = icmpDecRule s := rfl

theorem ipv4DecRule_eq (s : State) :
    ipv4DecRule s =
      if s.opnd.srcAddr.toNat + s.opnd.srcLen.toNat ≤ 65536 then
        (v4Fields s.mem s.opnd.srcAddr.toNat s.opnd.srcLen.toNat).map s.withV4
      else .error (.raised .bounds false) := by
  unfold ipv4DecRule srcSpan
  rcases checkSpan_cases s.opnd.srcAddr.toNat s.opnd.srcLen.toNat with ⟨h, he⟩ | ⟨h, he⟩
  · rw [if_pos h, he]
    simp only [bind, Except.bind]
    cases v4Fields s.mem s.opnd.srcAddr.toNat s.opnd.srcLen.toNat <;> rfl
  · rw [if_neg (by omega), he]; rfl

theorem ipv6DecRule_eq (s : State) :
    ipv6DecRule s =
      if s.opnd.srcAddr.toNat + s.opnd.srcLen.toNat ≤ 65536 then
        (v6Fields s.mem s.opnd.srcAddr.toNat s.opnd.srcLen.toNat).map s.withV6
      else .error (.raised .bounds false) := by
  unfold ipv6DecRule srcSpan
  rcases checkSpan_cases s.opnd.srcAddr.toNat s.opnd.srcLen.toNat with ⟨h, he⟩ | ⟨h, he⟩
  · rw [if_pos h, he]
    simp only [bind, Except.bind]
    cases v6Fields s.mem s.opnd.srcAddr.toNat s.opnd.srcLen.toNat <;> rfl
  · rw [if_neg (by omega), he]; rfl

/-- The V4 chain: the IPv4 stage's error, or the ICMP stage at the payload. -/
theorem rxParseV4Rule_eq (s : State) :
    rxParseV4Rule s =
      if s.opnd.srcAddr.toNat + s.opnd.srcLen.toNat ≤ 65536 then
        match v4Fields s.mem s.opnd.srcAddr.toNat s.opnd.srcLen.toNat with
        | .error e => .error e
        | .ok b => (icmpFields s.mem (s.opnd.srcAddr.toNat + hdrBytes b.ihl)
            (s.opnd.srcLen.toNat - hdrBytes b.ihl) true).map (s.withV4 b).withRx
      else .error (.raised .bounds false) := by
  unfold rxParseV4Rule srcSpan
  rcases checkSpan_cases s.opnd.srcAddr.toNat s.opnd.srcLen.toNat with ⟨h, he⟩ | ⟨h, he⟩
  · rw [if_pos h, he]
    simp only [bind, Except.bind]
    cases v4Fields s.mem s.opnd.srcAddr.toNat s.opnd.srcLen.toNat with
    | error e => rfl
    | ok b =>
      simp only
      cases icmpFields s.mem (s.opnd.srcAddr.toNat + hdrBytes b.ihl)
        (s.opnd.srcLen.toNat - hdrBytes b.ihl) true <;> rfl
  · rw [if_neg (by omega), he]; rfl

end Sys2Proof.Machine
end

