-- ==== Sys2Proof/Laws/Outcomes.lean ====
section
/-! SUPPORT. What the decoders' fields and then every command can answer, said once: an error of the command's own
list, the model fault, or a commit that changes only what the command may change. -/

namespace Sys2Proof.Machine

open Sys2Proof.Safety

/-! ### Spans -/

theorem spanWritten_of_holds_length {m : Memory} {a n : Nat} {bs : List Byte} (hl : bs.length = n)
    (h : spanHolds m a bs) : spanWritten m a n := by
  subst hl; exact spanWritten_of_holds h

theorem spanHolds_unique {m : Memory} {a : Nat} {xs ys : List Byte} (hl : xs.length = ys.length)
    (hx : spanHolds m a xs) (hy : spanHolds m a ys) : xs = ys := by
  apply List.ext_getElem?
  intro k
  by_cases hk : k < xs.length
  · rw [← hx k hk, ← hy k (by omega)]
  · rw [List.getElem?_eq_none (by omega), List.getElem?_eq_none (by omega)]

theorem spanWritten_iff (m : Memory) (a n : Nat) :
    spanWritten m a n ↔ ∀ x, inSpan a n x → (m.byteAt x).isSome = true := by
  constructor
  · rintro h x ⟨h1, h2⟩
    have := h (x - a) (by omega)
    rwa [show a + (x - a) = x by omega] at this
  · exact fun h k hk => h _ ⟨by omega, by omega⟩

theorem v4HdrLen_of_some {m : Memory} {a : Nat} {b : Byte} (h : m.byteAt a = some b) :
    v4HdrLen m a = b.toNat % 16 * 4 := by
  simp [v4HdrLen, h]

/-! ### Fields -/

/-- What a committed IPv4 bank says of the span it was read from. -/
structure V4Read (m : Memory) (a n : Nat) (v : Ipv4Bank) (b : Byte) : Prop where
  written : spanWritten m a 20
  reaches : v4Reaches m a n
  first : m.byteAt a = some b
  hdr : hdrBytes v.ihl = b.toNat % 16 * 4
  ihl : v.ihl.toNat = b.toNat % 16
  ihlMin : 5 ≤ v.ihl.toNat
  fits : 4 * v.ihl.toNat ≤ n
  version : v.version = 4#4
  hdrLen : v.hdrLen = BitVec.ofNat 6 (4 * v.ihl.toNat)
  optLen : v.optLen = BitVec.ofNat 6 (4 * v.ihl.toNat - 20)
  optAddr : v.optAddr = BitVec.ofNat 17 (a + 20)
  payloadAddr : v.payloadAddr = BitVec.ofNat 17 (a + 4 * v.ihl.toNat)
  payloadLen : v.payloadLen = BitVec.ofNat 17 (n - 4 * v.ihl.toNat)

/-- Everything `V4Fields` can come to. -/
theorem v4Fields_outcomes (m : Memory) (a n : Nat) :
    (∃ e, v4Fields m a n = .error (.raised e false) ∧ e.toCode.toNat ∈ [1, 2, 3] ∧
      (n = 0 ∨ 1 ≤ n ∧ ∃ b, m.byteAt a = some b ∧ ¬v4Reaches m a n) ∧
      (e = .malformedHeader ↔ 20 ≤ n ∧ ∃ b, m.byteAt a = some b ∧ b.toNat / 16 = 4 ∧ b.toNat % 16 < 5)) ∨
    (v4Fields m a n = .error (.fault .uninitRead) ∧ 1 ≤ n ∧
      (m.byteAt a = none ∨ (v4Reaches m a n ∧ ¬spanWritten m a 20))) ∨
    (∃ v b, v4Fields m a n = .ok v ∧ V4Read m a n v b) := by
  rcases v4Fields_cases m a n with ⟨h0, he⟩ | ⟨h1, h0, he⟩ | ⟨h1, b, hb, h0⟩
  · refine .inl ⟨_, he, by decide, .inl h0, ?_⟩; simp; omega
  · exact .inr (.inl ⟨he, h1, .inl h0⟩)
  · have nr : ∀ (_ : ¬(b.toNat / 16 = 4 ∧ 20 ≤ b.toNat % 16 * 4 ∧ b.toNat % 16 * 4 ≤ n)), ¬v4Reaches m a n := by
      rintro hp ⟨b', h, h2⟩; rw [hb] at h; cases h; exact hp h2
    rcases h0 with ⟨hv, he⟩ | ⟨hv, hn, he⟩ | ⟨hv, hn, hi, he⟩ | ⟨hv, hn, hi, hi2, he⟩ | ⟨hv, hi, hi2, he⟩
    · refine .inl ⟨_, he, by decide, .inr ⟨h1, b, hb, nr (by omega)⟩, ?_⟩; simp [hb]; omega
    · refine .inl ⟨_, he, by decide, .inr ⟨h1, b, hb, nr (by omega)⟩, ?_⟩; simp [hb]; omega
    · refine .inl ⟨_, he, by decide, .inr ⟨h1, b, hb, nr (by omega)⟩, ?_⟩; simp [hb]; omega
    · refine .inl ⟨_, he, by decide, .inr ⟨h1, b, hb, nr (by omega)⟩, ?_⟩; simp [hb]; omega
    · have hr : v4Reaches m a n := ⟨b, hb, hv, by omega, by omega⟩
      by_cases hw : spanWritten m a 20
      · obtain ⟨h, hl, hh⟩ := holds_of_spanWritten hw
        rw [v4Bank_of_holds hl hh] at he
        have e : b.toNat % 16 * 4 = 4 * (b.toNat % 16) := Nat.mul_comm _ _
        refine .inr (.inr ⟨_, b, he, hw, hr, hb, ?_, ?_, ?_, ?_, ?_, ?_, ?_, ?_, ?_, ?_⟩) <;>
          simp only [hdrBytes_loNibble, loNibble_toNat, e] <;> omega
      · rw [v4Bank_of_unwritten (by rw [hb]; rfl) hw] at he
        exact .inr (.inl ⟨he, h1, .inr ⟨hr, hw⟩⟩)

/-- Everything the IPv6 rule's fields can come to. -/
theorem v6Fields_outcomes (m : Memory) (a n : Nat) :
    (∃ e, v6Fields m a n = .error (.raised e false) ∧ e.toCode.toNat ∈ [1, 3] ∧
      (n = 0 ∨ 1 ≤ n ∧ ∃ b, m.byteAt a = some b ∧ ¬v6Reaches m a n)) ∨
    (v6Fields m a n = .error (.fault .uninitRead) ∧ 1 ≤ n ∧
      (m.byteAt a = none ∨ (v6Reaches m a n ∧ ¬spanWritten m a 40))) ∨
    (∃ v, v6Fields m a n = .ok v ∧ spanWritten m a 40 ∧ v6Reaches m a n ∧ v.version = 6#4 ∧
      v.payloadAddr = BitVec.ofNat 17 (a + 40) ∧ v.payloadLen = BitVec.ofNat 17 (n - 40) ∧ 40 ≤ n) := by
  rcases v6Fields_cases m a n with ⟨h0, he⟩ | ⟨h1, h0, he⟩ | ⟨h1, b, hb, h0⟩
  · exact .inl ⟨_, he, by decide, .inl h0⟩
  · exact .inr (.inl ⟨he, h1, .inl h0⟩)
  · have nr : ∀ (_ : ¬(b.toNat / 16 = 6 ∧ 40 ≤ n)), ¬v6Reaches m a n := by
      rintro hp ⟨b', h, h2⟩; rw [hb] at h; cases h; exact hp h2
    rcases h0 with ⟨hv, he⟩ | ⟨hv, hn, he⟩ | ⟨hv, hn, he⟩
    · exact .inl ⟨_, he, by decide, .inr ⟨h1, b, hb, nr (by omega)⟩⟩
    · exact .inl ⟨_, he, by decide, .inr ⟨h1, b, hb, nr (by omega)⟩⟩
    · have hr : v6Reaches m a n := ⟨b, hb, hv, hn⟩
      by_cases hw : spanWritten m a 40
      · obtain ⟨h, hl, hh⟩ := holds_of_spanWritten hw
        obtain ⟨b1, _, _, he1⟩ := v6Bank_of_holds hl hh n b
        rw [he1] at he
        exact .inr (.inr ⟨_, he, hw, hr, rfl, rfl, rfl, hn⟩)
      · rw [v6Bank_of_unwritten (by rw [hb]; rfl) hw] at he
        exact .inr (.inl ⟨he, h1, .inr ⟨hr, hw⟩⟩)

/-- Everything `IcmpFields` can come to. -/
theorem icmpFields_outcomes (m : Memory) (a n : Nat) (g : Bool) :
    (n < 8 ∧ icmpFields m a n g = .error (.raised .truncatedInput g)) ∨
    (8 ≤ n ∧ ¬spanWritten m a 8 ∧ icmpFields m a n g = .error (.fault .uninitRead)) ∨
    (8 ≤ n ∧ spanWritten m a 8 ∧ ∃ b, icmpFields m a n g = .ok b ∧
      b.bodyAddr = BitVec.ofNat 17 (a + 8) ∧ b.bodyLen = BitVec.ofNat 17 (n - 8)) := by
  rcases icmpFields_cases m a n g with h | h | ⟨h, b0, b1, b2, b3, b4, b5, b6, b7, hb, he⟩
  · exact .inl h
  · exact .inr (.inl h)
  · exact .inr (.inr ⟨h, by simpa using spanWritten_of_holds hb, _, he, rfl, rfl⟩)

/-! ### Commands -/

/-- What a commit of a command leaves, field by field. -/
structure Commit (i : Instr) (s u : State) : Prop where
  irqEn : u.irqEn = s.irqEn
  cmd : u.cmd = s.cmd
  opnd : u.opnd = s.opnd
  host : u.host = s.host
  estg : u.status.estg = s.status.estg
  rx : i ∉ [Instr.icmpDec, .rxParseV4, .rxParseV6] → u.rx = s.rx
  v4 : i ∉ [Instr.ipv4Dec, .rxParseV4] → u.v4 = s.v4
  v6 : i ≠ .ipv6Dec → u.v6 = s.v6
  res : i ∉ [Instr.csumFin, .csumBuf, .echoBuildV4, .echoBuildV6] →
    u.csumRes = s.csumRes ∧ u.status.cz = s.status.cz
  cz : i ∈ [Instr.csumFin, .csumBuf, .echoBuildV4, .echoBuildV6] → u.status.cz = decide (u.csumRes = 0#16)
  frameLen : i ∉ [Instr.echoBuildV4, .echoBuildV6] → u.frameLen = s.frameLen
  acc : i ∉ [Instr.csumClr, .csumAddw, .csumAddb, .csumBuf, .echoBuildV4, .echoBuildV6] →
    u.csumAcc = s.csumAcc ∧ u.status.ovf = s.status.ovf
  bytes : ∀ x, ¬writesByte i s x → u.mem.byteAt x = s.mem.byteAt x
  memWf : s.mem.wf = true → u.mem.wf = true
  frameFits : s.frameLen.toNat ≤ 65536 → u.frameLen.toNat ≤ 65536
  bodyFits : s.rx.bodyAddr.toNat + s.rx.bodyLen.toNat ≤ 65536 →
    u.rx.bodyAddr.toNat + u.rx.bodyLen.toNat ≤ 65536
  v4Ok : v4BankOk s.v4 → v4BankOk u.v4
  v6Ok : v6BankOk s.v6 → v6BankOk u.v6

/-- Everything a command's rule can come to. -/
inductive RuleOutcome (i : Instr) (s : State) : Prop where
  | raises (e : BlockError) (g : Bool) (hr : ruleOf i s = .error (.raised e g)) (hm : e.toCode.toNat ∈ mayRaise i)
      (hg : g = true → i = .rxParseV4 ∧ e = .truncatedInput ∧ ∃ u, ruleOf .ipv4Dec s = .ok u)
  | faults (hr : ruleOf i s = .error (.fault .uninitRead))
  | commits (u : State) (hr : ruleOf i s = .ok u) (hc : Commit i s u)

theorem v4BankOk_of_read {m : Memory} {a n : Nat} {v : Ipv4Bank} {b : Byte} (h : V4Read m a n v b)
    (hb : a + n ≤ 65536) : v4BankOk v := by
  have := v.ihl.isLt
  have := h.ihlMin
  have := h.fits
  refine .inr ⟨h.version, h.ihlMin, ?_⟩
  rw [h.hdrLen, h.optLen, h.optAddr, h.payloadAddr, h.payloadLen]
  simp only [BitVec.toNat_ofNat]
  omega

theorem commit_withRx {i : Instr} {s : State} {b : IcmpBank} (hi : i = .icmpDec ∨ i = .rxParseV6)
    (hb : b.bodyAddr.toNat + b.bodyLen.toNat ≤ 65536) : Commit i s (s.withRx b) := by
  rcases hi with rfl | rfl <;> constructor <;> simp [hb]

theorem commit_echo {fam : Family} {i : Instr} {s : State} {h : List Byte} {ws : List Half}
    (hi : i = .echoBuildV4 ∨ i = .echoBuildV6) (hl : h.length = 8)
    (hb : s.opnd.dstAddr.toNat + (8 + s.opnd.bodyLen.toNat) ≤ 65536) :
    Commit i s (((s.withMem (s.mem.writeBytes s.opnd.dstAddr.toNat h)).oneShot
      (requestWords fam s ws)).withFrameLen (8 + s.opnd.bodyLen.toNat)) := by
  have hx : ∀ x, ¬writesByte i s x →
      (s.mem.writeBytes s.opnd.dstAddr.toNat h).byteAt x = s.mem.byteAt x := by
    intro x hx
    apply Memory.byteAt_writeBytes_outside
    rw [hl]
    rcases hi with rfl | rfl <;> exact hx
  have hf : (BitVec.ofNat 17 (8 + s.opnd.bodyLen.toNat)).toNat ≤ 65536 := by rw [BitVec.toNat_ofNat]; omega
  rcases hi with rfl | rfl <;> constructor <;>
    first
      | exact hx
      | exact fun h => Memory.wf_writeBytes h (by simp only [Config.bufSize, hl]; omega)
      | exact fun _ => hf
      | exact fun _ => czOf_eq _
      | simp [State.oneShot]

theorem ruleOutcome (i : Instr) (s : State) : RuleOutcome i s := by
  cases i
  case nop => exact .commits s rfl (by constructor <;> simp)
  case csumClr => exact .commits _ rfl (by constructor <;> simp)
  case csumAddw => exact .commits _ rfl (by constructor <;> simp [State.addWords])
  case csumFin => exact .commits _ rfl (by constructor <;> first | exact fun _ => czOf_eq _ | simp)
  case csumAddb =>
    rcases csumAddbRule_cases s with ⟨_, hr⟩ | ⟨_, ⟨hn', hr⟩ | ⟨bs, hl', hb', hr⟩⟩
    · exact .raises _ _ hr (by decide) (by simp)
    · exact .faults hr
    · exact .commits _ hr (by constructor <;> simp [State.addWords])
  case csumBuf =>
    rcases csumBufRule_cases s with ⟨_, hr⟩ | ⟨_, ⟨hn', hr⟩ | ⟨bs, hl', hb', hr⟩⟩
    · exact .raises _ _ hr (by decide) (by simp)
    · exact .faults hr
    · exact .commits _ hr (by constructor <;> first | exact fun _ => czOf_eq _ | simp [State.oneShot])
  case icmpEnc =>
    rcases icmpEncRule_cases s with ⟨_, hr⟩ | ⟨hb, hr⟩
    · exact .raises _ _ hr (by decide) (by simp)
    · refine .commits _ hr ?_
      constructor <;>
        first
          | exact fun x hx => Memory.byteAt_writeBytes_outside _ _ _ hx
          | exact fun h => Memory.wf_writeBytes h hb
          | simp
  case echoBuildV4 =>
    rcases echoBuildRule_cases .v4 s with ⟨_, hr⟩ | ⟨hb, ⟨hn', hr⟩ | ⟨bs, hl', hb', hr⟩⟩
    · exact .raises _ _ hr (by decide) (by simp)
    · exact .faults hr
    · exact .commits _ hr (commit_echo (.inl rfl) rfl hb)
  case echoBuildV6 =>
    rcases echoBuildRule_cases .v6 s with ⟨_, hr⟩ | ⟨hb, ⟨hn', hr⟩ | ⟨bs, hl', hb', hr⟩⟩
    · exact .raises _ _ hr (by decide) (by simp)
    · exact .faults hr
    · exact .commits _ hr (commit_echo (.inr rfl) rfl hb)
  case icmpDec =>
    have h := icmpDecRule_eq s
    split at h
    · rename_i hb
      rcases icmpFields_outcomes s.mem s.opnd.srcAddr.toNat s.opnd.srcLen.toNat false with
        ⟨h8, he⟩ | ⟨h8, hw, he⟩ | ⟨h8, hw, b, he, h1, h2⟩
      · rw [he] at h; exact .raises _ _ h (by decide) (by simp)
      · rw [he] at h; exact .faults h
      · rw [he] at h
        exact .commits _ h (commit_withRx (.inl rfl) (by rw [h1, h2]; simp only [BitVec.toNat_ofNat]; omega))
    · exact .raises _ _ h (by decide) (by simp)
  case rxParseV6 =>
    have h := (rxParseV6Rule_eq s).trans (icmpDecRule_eq s)
    split at h
    · rename_i hb
      rcases icmpFields_outcomes s.mem s.opnd.srcAddr.toNat s.opnd.srcLen.toNat false with
        ⟨h8, he⟩ | ⟨h8, hw, he⟩ | ⟨h8, hw, b, he, h1, h2⟩
      · rw [he] at h; exact .raises _ _ h (by decide) (by simp)
      · rw [he] at h; exact .faults h
      · rw [he] at h
        exact .commits _ h (commit_withRx (.inr rfl) (by rw [h1, h2]; simp only [BitVec.toNat_ofNat]; omega))
    · exact .raises _ _ h (by decide) (by simp)
  case ipv4Dec =>
    have h := ipv4DecRule_eq s
    split at h
    · rename_i hb
      rcases v4Fields_outcomes s.mem s.opnd.srcAddr.toNat s.opnd.srcLen.toNat with
        ⟨e, he, hm, _⟩ | ⟨he, _⟩ | ⟨v, b, he, hv⟩
      · rw [he] at h; exact .raises _ _ h (by simp [mayRaise] at hm ⊢; omega) (by simp)
      · rw [he] at h; exact .faults h
      · rw [he] at h
        refine .commits _ h ?_
        constructor <;> first | exact fun _ => v4BankOk_of_read hv hb | simp
    · exact .raises _ _ h (by decide) (by simp)
  case ipv6Dec =>
    have h := ipv6DecRule_eq s
    split at h
    · rename_i hb
      rcases v6Fields_outcomes s.mem s.opnd.srcAddr.toNat s.opnd.srcLen.toNat with
        ⟨e, he, hm, _⟩ | ⟨he, _⟩ | ⟨v, he, _, _, h1, h2, h3, h4⟩
      · rw [he] at h; exact .raises _ _ h (by simp [mayRaise] at hm ⊢; omega) (by simp)
      · rw [he] at h; exact .faults h
      · rw [he] at h
        have hv : v6BankOk v := by
          refine .inr ⟨h1, ?_⟩
          rw [h2, h3]; simp only [BitVec.toNat_ofNat]; omega
        refine .commits _ h ?_
        constructor <;> first | exact fun _ => hv | simp
    · exact .raises _ _ h (by decide) (by simp)
  case rxParseV4 =>
    have h := rxParseV4Rule_eq s
    split at h
    · rename_i hb
      rcases v4Fields_outcomes s.mem s.opnd.srcAddr.toNat s.opnd.srcLen.toNat with
        ⟨e, he, hm, _⟩ | ⟨he, _⟩ | ⟨v, b, he, hv⟩
      · rw [he] at h; exact .raises _ _ h (by simp [mayRaise] at hm ⊢; omega) (by simp)
      · rw [he] at h; exact .faults h
      · simp only [he] at h
        rcases icmpFields_outcomes s.mem (s.opnd.srcAddr.toNat + hdrBytes v.ihl)
          (s.opnd.srcLen.toNat - hdrBytes v.ihl) true with ⟨h8, he8⟩ | ⟨h8, hw, he8⟩ | ⟨h8, hw, c, he8, h1, h2⟩
        · rw [he8] at h
          have h4 := ipv4DecRule_eq s
          rw [if_pos hb, he] at h4
          exact .raises _ _ h (by decide) (fun _ => ⟨rfl, rfl, _, h4⟩)
        · rw [he8] at h; exact .faults h
        · rw [he8] at h
          have hc : c.bodyAddr.toNat + c.bodyLen.toNat ≤ 65536 := by
            rw [h1, h2]; simp only [BitVec.toNat_ofNat]; omega
          refine .commits _ h ?_
          constructor <;> first | exact fun _ => v4BankOk_of_read hv hb | exact fun _ => hc | simp
    · exact .raises _ _ h (by decide) (by simp)

end Sys2Proof.Machine
end

