-- ==== Sys2Proof/Laws/PerInstr.lean ====
section
/-! SUPPORT. Facts about every instruction as syntax, one lemma per constructor: its encoding has legal fields
by the clauses of 30_encoding.md R85, which the decoder does not use. -/

namespace Sys2Proof.Laws.LegalFields

/-- The fields of the encoded word meet R85's three clauses. -/
def Statement (i : Instr) : Prop :=
  (fieldsOf (encode i)).wf = true

theorem nop : Statement .nop := rfl
theorem csumClr : Statement .csumClr := rfl
theorem csumAddw : Statement .csumAddw := rfl
theorem csumAddb : Statement .csumAddb := rfl
theorem csumFin : Statement .csumFin := rfl
theorem csumBuf : Statement .csumBuf := rfl
theorem icmpEnc : Statement .icmpEnc := rfl
theorem echoBuildV4 : Statement .echoBuildV4 := rfl
theorem echoBuildV6 : Statement .echoBuildV6 := rfl
theorem icmpDec : Statement .icmpDec := rfl
theorem ipv4Dec : Statement .ipv4Dec := rfl
theorem ipv6Dec : Statement .ipv6Dec := rfl
theorem rxParseV4 : Statement .rxParseV4 := rfl
theorem rxParseV6 : Statement .rxParseV6 := rfl

end Sys2Proof.Laws.LegalFields
end

