-- ==== Sys2Proof/Laws/Reads.lean ====
section
/-! SUPPORT. What a read depends on: two buffers that agree on the bytes a read takes give the same answer. -/

namespace Sys2Proof.Machine

open Sys2Proof.Safety

theorem memRead_agree {m m' : Memory} {a n : Nat}
    (h : ∀ k, k < n → m'.byteAt (a + k) = m.byteAt (a + k)) : memRead m' a n = memRead m a n := by
  induction n with
  | zero => rfl
  | succ n ih => simp only [memRead, ih (fun k hk => h k (by omega)), memByte, h n (by omega)]

/-- A part of a span two buffers agree on. -/
theorem memRead_agree_part {m m' : Memory} {a len : Nat}
    (h : ∀ k, k < len → m'.byteAt (a + k) = m.byteAt (a + k)) (o n : Nat) (hl : o + n ≤ len) :
    memRead m' (a + o) n = memRead m (a + o) n :=
  memRead_agree (fun k hk => by rw [Nat.add_assoc]; exact h _ (by omega))

theorem words_agree {m m' : Memory} {a n : Nat}
    (h : ∀ k, k < n → m'.byteAt (a + k) = m.byteAt (a + k)) : words m' a n = words m a n := by
  induction n using Nat.strongRecOn generalizing a with
  | ind n ih =>
    match n, h, ih with
    | 0, _, _ => rfl
    | 1, h, _ =>
      have h0 := h 0 (by omega)
      rw [Nat.add_zero] at h0
      simp only [words, memByte, h0]
    | n + 2, h, ih =>
      have e1 : memRead m' a 2 = memRead m a 2 := memRead_agree (fun k hk => h k (by omega))
      have e2 := ih n (by omega) (a := a + 2) (fun k hk => by rw [Nat.add_assoc]; exact h _ (by omega))
      simp only [words, e1, e2]

theorem icmpFields_agree {m m' : Memory} {a n : Nat} {g : Bool}
    (h : 8 ≤ n → ∀ k, k < 8 → m'.byteAt (a + k) = m.byteAt (a + k)) :
    icmpFields m' a n g = icmpFields m a n g := by
  unfold icmpFields
  split
  · rfl
  · have r := memRead_agree_part (h (by omega))
    have r0 := r 0 1 (by omega)
    simp only [Nat.add_zero] at r0
    rw [r0, r 1 1 (by omega), r 2 2 (by omega), r 4 2 (by omega), r 6 2 (by omega)]

theorem v4Bank_agree {m m' : Memory} {a n : Nat} {ihl : BitVec 4}
    (h : ∀ k, k < 20 → m'.byteAt (a + k) = m.byteAt (a + k)) : v4Bank m' a n ihl = v4Bank m a n ihl := by
  have r := memRead_agree_part h
  unfold v4Bank
  rw [r 1 1 (by omega), r 2 2 (by omega), r 4 2 (by omega), r 6 2 (by omega), r 8 1 (by omega),
    r 9 1 (by omega), r 10 2 (by omega), r 12 4 (by omega), r 16 4 (by omega)]

theorem v6Bank_agree {m m' : Memory} {a n : Nat} {b : Byte}
    (h : ∀ k, k < 40 → m'.byteAt (a + k) = m.byteAt (a + k)) : v6Bank m' a n b = v6Bank m a n b := by
  have r := memRead_agree_part h
  have r1 : memByte m' (a + 1) = memByte m (a + 1) := by simp only [memByte, h 1 (by omega)]
  unfold v6Bank
  rw [r1, r 2 2 (by omega), r 4 2 (by omega), r 6 1 (by omega), r 7 1 (by omega), r 8 4 (by omega),
    r 12 4 (by omega), r 16 4 (by omega), r 20 4 (by omega), r 24 4 (by omega), r 28 4 (by omega),
    r 32 4 (by omega), r 36 4 (by omega)]

theorem v4Fields_agree {m m' : Memory} {a n : Nat}
    (h0 : 1 ≤ n → m'.byteAt a = m.byteAt a)
    (h : v4Reaches m a n → ∀ k, k < 20 → m'.byteAt (a + k) = m.byteAt (a + k)) :
    v4Fields m' a n = v4Fields m a n := by
  by_cases hn : n < 1
  · simp [v4Fields, hn]
  · have h0 := h0 (by omega)
    by_cases hr : v4Reaches m a n
    · have hb := fun ihl => v4Bank_agree (n := n) (ihl := ihl) (h hr)
      simp only [v4Fields, memByte, h0, hb]
    · rcases v4Fields_cases m a n with ⟨h1, he⟩ | ⟨h1, hbb, he⟩ | ⟨h1, b, hbb, hc⟩
      · omega
      · rcases v4Fields_cases m' a n with ⟨h1', he'⟩ | ⟨h1', hbb', he'⟩ | ⟨h1', b', hbb', hc'⟩
        · omega
        · rw [he, he']
        · rw [h0, hbb] at hbb'; cases hbb'
      · rcases v4Fields_cases m' a n with ⟨h1', he'⟩ | ⟨h1', hbb', he'⟩ | ⟨h1', b', hbb', hc'⟩
        · omega
        · rw [h0, hbb] at hbb'; cases hbb'
        · rw [h0, hbb] at hbb'; cases hbb'
          rcases hc with ⟨_, he⟩ | ⟨_, _, he⟩ | ⟨_, _, _, he⟩ | ⟨_, _, _, _, he⟩ | ⟨g1, g2, g3, he⟩
          on_goal 5 => exact absurd ⟨b, hbb, g1, by omega, by omega⟩ hr
          all_goals rcases hc' with ⟨_, he'⟩ | ⟨_, _, he'⟩ | ⟨_, _, _, he'⟩ | ⟨_, _, _, _, he'⟩ | ⟨g1, g2, g3, he'⟩
          all_goals first | omega | rw [he, he']

theorem v6Fields_agree {m m' : Memory} {a n : Nat}
    (h0 : 1 ≤ n → m'.byteAt a = m.byteAt a)
    (h : v6Reaches m a n → ∀ k, k < 40 → m'.byteAt (a + k) = m.byteAt (a + k)) :
    v6Fields m' a n = v6Fields m a n := by
  by_cases hn : n < 1
  · simp [v6Fields, hn]
  · have h0 := h0 (by omega)
    by_cases hr : v6Reaches m a n
    · have hb := fun b => v6Bank_agree (n := n) (b := b) (h hr)
      simp only [v6Fields, memByte, h0, hb]
    · rcases v6Fields_cases m a n with ⟨h1, he⟩ | ⟨h1, hbb, he⟩ | ⟨h1, b, hbb, hc⟩
      · omega
      · rcases v6Fields_cases m' a n with ⟨h1', he'⟩ | ⟨h1', hbb', he'⟩ | ⟨h1', b', hbb', hc'⟩
        · omega
        · rw [he, he']
        · rw [h0, hbb] at hbb'; cases hbb'
      · rcases v6Fields_cases m' a n with ⟨h1', he'⟩ | ⟨h1', hbb', he'⟩ | ⟨h1', b', hbb', hc'⟩
        · omega
        · rw [h0, hbb] at hbb'; cases hbb'
        · rw [h0, hbb] at hbb'; cases hbb'
          rcases hc with ⟨_, he⟩ | ⟨_, _, he⟩ | ⟨g1, g2, he⟩
          on_goal 3 => exact absurd ⟨b, hbb, g1, g2⟩ hr
          all_goals rcases hc' with ⟨_, he'⟩ | ⟨_, _, he'⟩ | ⟨g1, g2, he'⟩
          all_goals first | omega | rw [he, he']

end Sys2Proof.Machine
end

