-- ==== Sys2Proof/Laws/Step.lean ====
section
/-! SUPPORT. What one step can do, said once: the host's accesses, the block's step, one move of the agents. -/

namespace Sys2Proof.Machine

open Sys2Proof.Safety

/-- Each register is found at its own offset. -/
theorem Reg.ofOffset_offset (r : Reg) : Reg.ofOffset r.offset = some r := by cases r <;> rfl

theorem regAccessOk_offset (r : Reg) : regAccessOk r.offset 32 = true := by cases r <;> rfl

/-- A whole-word write of a register while the block is idle. -/
theorem hostRegWrite_idle (s : State) (r : Reg) (v : Word) (hb : s.status.busy = false) :
    hostAccess (.regWrite r.offset 32 v) s = .next ((writeReg s v r).replied .nothing) := by
  simp only [hostAccess, hostRegWrite, regAccessOk_offset, hb, writeOffset, Reg.ofOffset_offset]; rfl

/-- The two offsets that read their current value while a command is pending. -/
theorem readableWhileBusy_iff (off : BitVec 8) : readableWhileBusy off = true ↔ off = 0x04#8 ∨ off = 0x08#8 := by
  revert off; decide

/-- A whole-word read of a register while the block is idle. -/
theorem hostRegRead_idle (s : State) (r : Reg) (hb : s.status.busy = false) :
    hostAccess (.regRead r.offset 32) s = .next (s.replied (.word (readReg s r))) := by
  simp only [hostAccess, hostRegRead, regAccessOk_offset, hb, readOffset, Reg.ofOffset_offset]; rfl

/-- The STATUS word as a number. -/
theorem Status.toWord_toNat (st : Status) : st.toWord.toNat = statusValue st := by
  simp only [Status.toWord, bitOf, statusValue]
  cases st.busy <;> cases st.done <;> cases st.cz <;> cases st.ovf <;> cases st.estg <;>
    (generalize st.err = e; revert e; decide)

/-- The written-out register contents are what the register map reads. -/
theorem registerContents_eq (s : State) :
    registerContents s = Reg.all.map fun r => (r.offset, (readReg s r).toNat) := by
  have hst : (readReg s .status).toNat = statusValue s.status := s.status.toWord_toNat
  have hctl : (bitOf s.irqEn).toNat % 2 ^ 32 = s.irqEn.toNat := by cases s.irqEn <;> rfl
  have hw : ∀ {w} (x : BitVec w), w ≤ 32 → x.toNat % 2 ^ 32 = x.toNat := fun x h =>
    Nat.mod_eq_of_lt (Nat.lt_of_lt_of_le x.isLt (Nat.pow_le_pow_right (by decide) h))
  simp only [Reg.all, Reg.hostAndChecksum, Reg.banks, List.cons_append, List.nil_append, List.map,
    registerContents, Reg.offset, hst]
  simp (disch := decide) only [readReg, BitVec.toNat_setWidth, hctl, hw]

/-- A write of a register keeps the buffer and the two sum flags. -/
theorem writeOffset_keeps (s : State) (off : BitVec 8) (v : Word) :
    (writeOffset s off v).mem = s.mem ∧ (writeOffset s off v).status.cz = s.status.cz ∧
      (writeOffset s off v).status.ovf = s.status.ovf := by
  unfold writeOffset
  split
  · rename_i r _; cases r <;> exact ⟨rfl, rfl, rfl⟩
  · exact ⟨rfl, rfl, rfl⟩

/-- Everything a host access that goes on can do. -/
theorem hostAccess_cases {a : HostAccess} {s t : State} (h : hostAccess a s = .next t) :
    (∃ off w, a = .regRead off w ∧ regAccessOk off w = true ∧
      ((s.status.busy = true ∧ readableWhileBusy off = false ∧
          t = s.repliedFree (.word (Config.freeWord s.host.freeIndex))) ∨
        ((s.status.busy = false ∨ readableWhileBusy off = true) ∧ t = s.replied (.word (readOffset s off))))) ∨
    (∃ off w v, a = .regWrite off w v ∧ regAccessOk off w = true ∧ s.status.busy = false ∧
      t = (writeOffset s off v).replied .nothing) ∨
    (∃ x w, a = .bufRead x w ∧ bufAccessOk w = true ∧
      ((s.status.busy = true ∧ t = s.repliedFree (.byte (Config.freeByte s.host.freeIndex))) ∨
        (s.status.busy = false ∧ ∃ b, s.mem.byteAt x.toNat = some b ∧ t = s.replied (.byte b)))) ∨
    (∃ x w v, a = .bufWrite x w v ∧ bufAccessOk w = true ∧ s.status.busy = false ∧
      t = (s.withMem (s.mem.write x.toNat (v.setWidth 8))).replied .nothing) := by
  cases a with
  | regRead off w =>
    refine .inl ⟨off, w, rfl, ?_⟩
    simp only [hostAccess, hostRegRead] at h
    split at h
    · cases h
    · rename_i hk
      refine ⟨by simpa using hk, ?_⟩
      split at h
      · rename_i hb
        simp only [Bool.and_eq_true, Bool.not_eq_true'] at hb
        exact .inl ⟨hb.1, hb.2, by cases h; rfl⟩
      · rename_i hb
        refine .inr ⟨?_, by cases h; rfl⟩
        cases h1 : s.status.busy <;> cases h2 : readableWhileBusy off <;> simp_all
  | regWrite off w v =>
    refine .inr (.inl ⟨off, w, v, rfl, ?_⟩)
    simp only [hostAccess, hostRegWrite] at h
    split at h
    · cases h
    · rename_i hk
      split at h
      · cases h
      · rename_i hb
        exact ⟨by simpa using hk, by simpa using hb, by cases h; rfl⟩
  | bufRead x w =>
    refine .inr (.inr (.inl ⟨x, w, rfl, ?_⟩))
    simp only [hostAccess, hostBufRead] at h
    split at h
    · cases h
    · rename_i hk
      refine ⟨by simpa using hk, ?_⟩
      split at h
      · rename_i hb; exact .inl ⟨hb, by cases h; rfl⟩
      · rename_i hb
        split at h
        · rename_i b hm; exact .inr ⟨by simpa using hb, b, hm, by cases h; rfl⟩
        · cases h
  | bufWrite x w v =>
    refine .inr (.inr (.inr ⟨x, w, v, rfl, ?_⟩))
    simp only [hostAccess, hostBufWrite] at h
    split at h
    · cases h
    · rename_i hk
      split at h
      · cases h
      · rename_i hb
        exact ⟨by simpa using hk, by simpa using hb, by cases h; rfl⟩

/-- Everything the block's step can do. -/
theorem blockStep_cases {s t : State} (h : blockStep s = .next t) :
    (∃ i, decode s.cmd = .ok i ∧ exec i s = .next t) ∨
      (∃ e, decode s.cmd = .error e ∧ t = s.fail .illegalCommand false) := by
  unfold blockStep at h
  cases hd : decode s.cmd with
  | ok i => rw [hd] at h; exact .inl ⟨i, rfl, h⟩
  | error e => rw [hd] at h; exact .inr ⟨e, rfl, by cases h; rfl⟩

/-- Everything one step can do. -/
theorem step_cases {s t : State} (h : step s = .next t) :
    (Pending s ∧ blockStep (s.setAgenda s.host.agenda.tail) = .next t) ∨
    (s.status.busy = false ∧ (s.host.agenda = [] ∨ ∃ rest, s.host.agenda = .block :: rest) ∧
      t = s.setAgenda s.host.agenda.tail) ∨
    (∃ a rest, s.host.agenda = .host a :: rest ∧ hostAccess a (s.setAgenda rest) = .next t) ∨
    (∃ rest, s.host.agenda = .reset :: rest ∧ t = (s.setAgenda rest).resetBlock) := by
  have hset : s.host.agenda = [] → s.setAgenda [] = s := by
    intro ha; cases s; rename_i host; cases host; simp_all [State.setAgenda, State.withHost]
  unfold step advance at h
  match ha : s.host.agenda with
  | [] =>
    rw [ha] at h
    simp only [blockTurn] at h
    rw [List.tail_nil, hset ha]
    split at h
    · rename_i hb; exact .inl ⟨⟨hb, .inl ha⟩, h⟩
    · rename_i hb; exact .inr (.inl ⟨by simpa using hb, .inl rfl, by cases h; rfl⟩)
  | .block :: rest =>
    rw [ha] at h
    simp only [blockTurn] at h
    rw [List.tail_cons]
    split at h
    · rename_i hb; exact .inl ⟨⟨hb, .inr ⟨rest, ha⟩⟩, h⟩
    · rename_i hb; exact .inr (.inl ⟨by simpa using hb, .inr ⟨rest, rfl⟩, by cases h; rfl⟩)
  | .host a :: rest =>
    rw [ha] at h
    exact .inr (.inr (.inl ⟨a, rest, rfl, h⟩))
  | .reset :: rest =>
    rw [ha] at h
    exact .inr (.inr (.inr ⟨rest, rfl, by cases h; rfl⟩))

/-- A pending command runs at the next step, with the block's turn taken off the agenda. -/
theorem step_of_pending {s : State} (h : Pending s) :
    step s = blockStep (s.setAgenda s.host.agenda.tail) := by
  obtain ⟨hb, ha | ⟨rest, ha⟩⟩ := h
  · have hs : s.setAgenda [] = s := by
      cases s; rename_i host; cases host; simp_all [State.setAgenda, State.withHost]
    unfold step advance
    rw [ha, List.tail_nil, hs]
    simp [blockTurn, hb]
  · unfold step advance
    rw [ha, List.tail_cons]
    simp [blockTurn, hb]

/-- Every host access keeps the canonical form of the buffer. -/
theorem hostAccess_keeps_wf {a : HostAccess} {s t : State} (hm : s.mem.wf = true)
    (h : hostAccess a s = .next t) : t.mem.wf = true := by
  rcases hostAccess_cases h with ⟨_, _, _, _, ⟨_, _, rfl⟩ | ⟨_, rfl⟩⟩ | ⟨off, _, v, _, _, _, rfl⟩ |
    ⟨_, _, _, _, ⟨_, rfl⟩ | ⟨_, _, _, rfl⟩⟩ | ⟨x, _, v, _, _, _, rfl⟩
  · exact hm
  · exact hm
  · rw [State.replied_mem, (writeOffset_keeps s off v).1]; exact hm
  · exact hm
  · exact hm
  · rw [State.replied_mem, State.withMem_mem]
    exact Memory.wf_write hm (by have := x.isLt; simpa [Config.bufSize] using this)

end Sys2Proof.Machine
end

