-- ==== Sys2Proof/Tests/Slice0.lean ====
section
/-! SUPPORT. The model's own tests. Expected values come from the spec: the words of 30_encoding.md R81, R84, R85 and the
vectors of 95_test_vectors.md (named in each test's name, `v2` for V2). The witnesses at the end show for each
statement with hypotheses a state and operands that meet them. -/

namespace Sys2Proof.Tests

open Sys2Proof.Machine Sys2Proof.Safety

/-! ### Small states -/

/-- The next state of an outcome. -/
def nextOf : Host.Outcome State Fault Refusal → Option State
  | .next t => some t
  | .fault _ => none
  | .refused _ => none

/-- One field of the next state. -/
def seen {α : Type} (f : State → α) (o : Host.Outcome State Fault Refusal) : Option α :=
  (nextOf o).map f

/-- The fault an outcome stops on. -/
def faultOf : Host.Outcome State Fault Refusal → Option Fault
  | .next _ => none
  | .fault f => some f
  | .refused _ => none

theorem next_of_seen {α : Type} {f : State → α} {o : Host.Outcome State Fault Refusal} {v : α}
    (h : seen f o = some v) : ∃ t, o = .next t ∧ f t = v := by
  cases o with
  | next t => exact ⟨t, rfl, by simpa [seen, nextOf] using h⟩
  | fault r => simp [seen, nextOf] at h
  | refused r => simp [seen, nextOf] at h

/-- A buffer with only these bytes written. -/
def written (a : Nat) (bs : List Byte) : Memory := Memory.writeBytes [] a bs

theorem written_holds (a : Nat) (bs : List Byte) : spanHolds (written a bs) a bs := spanHolds_writeBytes [] a bs

/-- From reset: a buffer and a source span. -/
def atSource (a n : Nat) (m : Memory) : State :=
  { State.reset with
    mem := m
    opnd := { OperandRegs.reset with srcAddr := BitVec.ofNat 16 a, srcLen := BitVec.ofNat 17 n } }

/-- From reset: a buffer and the operands of a frame. -/
def atFrame (d n ident seq : Nat) (m : Memory) : State :=
  { State.reset with
    mem := m
    opnd := { OperandRegs.reset with
      dstAddr := BitVec.ofNat 16 d, bodyLen := BitVec.ofNat 17 n, txIdent := BitVec.ofNat 16 ident,
      txSeq := BitVec.ofNat 16 seq } }

/-- From reset: an accumulator. -/
def atAcc (acc : Nat) : State := { State.reset with csumAcc := BitVec.ofNat 32 acc }

/-- The value of `STATUS` after a command. -/
def statusAfter (i : Instr) (s : State) : Option Nat := seen (fun t => t.status.toWord.toNat) (exec i s)

/-- Bytes a buffer holds. -/
def bytesAt (m : Memory) (a n : Nat) : List (Option Byte) := (List.range n).map fun k => m.byteAt (a + k)

/-! ### Well-formed fields (R85) -/

theorem test_wf_accepts_csumBuf : (CmdFields.mk 0x05#8 0#1 0#23).wf = true := by decide
theorem test_wf_refuses_unassigned_opcode : (CmdFields.mk 0x06#8 0#1 0#23).opAssigned = false := by decide
theorem test_wf_refuses_unassigned_opcode_word : (CmdFields.mk 0x24#8 0#1 0#23).wf = false := by decide
theorem test_wf_refuses_family_on_plain : (CmdFields.mk 0x01#8 1#1 0#23).familyOk = false := by decide
theorem test_wf_refuses_family_word : (CmdFields.mk 0x01#8 1#1 0#23).wf = false := by decide
theorem test_wf_refuses_reserved_bits : (CmdFields.mk 0x00#8 0#1 1#23).rsvZero = false := by decide
theorem test_wf_refuses_reserved_word : (CmdFields.mk 0x00#8 0#1 0x400000#23).wf = false := by decide

/-! ### Decoding, bit by bit: bits 31:9 RSV, bit 8 F, bits 7:0 OP (R81, R84) -/

theorem test_decode_nop : decode 0b00000000000000000000000000000000#32 = .ok .nop := by rfl
theorem test_decode_csumClr : decode 0b00000000000000000000000000000001#32 = .ok .csumClr := by rfl
theorem test_decode_csumAddw : decode 0b00000000000000000000000000000010#32 = .ok .csumAddw := by rfl
theorem test_decode_csumAddb : decode 0b00000000000000000000000000000011#32 = .ok .csumAddb := by rfl
theorem test_decode_csumFin : decode 0b00000000000000000000000000000100#32 = .ok .csumFin := by rfl
theorem test_decode_csumBuf : decode 0b00000000000000000000000000000101#32 = .ok .csumBuf := by rfl
theorem test_decode_icmpEnc : decode 0b00000000000000000000000000010000#32 = .ok .icmpEnc := by rfl
theorem test_decode_echoBuildV4 : decode 0b00000000000000000000000000010001#32 = .ok .echoBuildV4 := by rfl
theorem test_decode_echoBuildV6 : decode 0b00000000000000000000000100010001#32 = .ok .echoBuildV6 := by rfl
theorem test_decode_icmpDec : decode 0b00000000000000000000000000100000#32 = .ok .icmpDec := by rfl
theorem test_decode_ipv4Dec : decode 0b00000000000000000000000000100001#32 = .ok .ipv4Dec := by rfl
theorem test_decode_ipv6Dec : decode 0b00000000000000000000000000100010#32 = .ok .ipv6Dec := by rfl
theorem test_decode_rxParseV4 : decode 0b00000000000000000000000000100011#32 = .ok .rxParseV4 := by rfl
theorem test_decode_rxParseV6 : decode 0b00000000000000000000000100100011#32 = .ok .rxParseV6 := by rfl

/-- V48, and the edges of R85's ranges. -/
theorem test_decode_rejects :
    decode 0x00000006#32 = .error .unassignedOpcode ∧ decode 0x0000000F#32 = .error .unassignedOpcode ∧
    decode 0x00000012#32 = .error .unassignedOpcode ∧ decode 0x0000001F#32 = .error .unassignedOpcode ∧
    decode 0x00000024#32 = .error .unassignedOpcode ∧ decode 0x000000FF#32 = .error .unassignedOpcode ∧
    decode 0x00000101#32 = .error .familyOnPlainCommand ∧ decode 0x00000122#32 = .error .familyOnPlainCommand ∧
    decode 0x00000200#32 = .error .reservedBits ∧ decode 0x80000000#32 = .error .reservedBits :=
  ⟨rfl, rfl, rfl, rfl, rfl, rfl, rfl, rfl, rfl, rfl⟩

theorem test_decodeTableWord : decodeTableWord 32 0x123 = some .rxParseV6 ∧ decodeTableWord 32 0x122 = none :=
  ⟨rfl, rfl⟩

/-- Each of the fourteen words runs as the first command after reset and completes. -/
theorem test_words_run_from_reset :
    ([0x000, 0x001, 0x002, 0x003, 0x004, 0x005, 0x010, 0x011, 0x111, 0x020, 0x021, 0x022, 0x023, 0x123].map
      fun w => seen (fun t => (t.status.done, t.cmd.toNat)) (step (State.reset.withFetchWord 32 w))) =
    [0x000, 0x001, 0x002, 0x003, 0x004, 0x005, 0x010, 0x011, 0x111, 0x020, 0x021, 0x022, 0x023, 0x123].map
      fun w => some (true, w) := by decide

/-! ### Checksum commands -/

theorem test_nop_v47 : statusAfter .nop { State.reset with status := { Status.reset with done := true, err := 4#4 } } =
    some 0x002 := by decide
theorem test_nop_keeps_cz_v47 :
    statusAfter .nop { State.reset with status := { Status.reset with done := true, cz := true } } = some 0x102 := by
  decide

theorem test_csumClr_v16 :
    seen (fun t => (t.csumAcc.toNat, t.status.toWord.toNat))
      (exec .csumClr { atAcc 7 with status := { Status.reset with ovf := true } }) = some (0, 0x002) := by decide

theorem test_csumAddw_wraps_v16 :
    seen (fun t => (t.csumAcc.toNat, t.status.toWord.toNat))
      (exec .csumAddw { atAcc 0xFFFFFFFF with opnd := { OperandRegs.reset with opa := 1#16 } }) =
    some (0, 0x202) := by decide
theorem test_csumAddw_v18 :
    seen (fun t => (t.csumAcc.toNat, t.status.toWord.toNat))
      (exec .csumAddw { atAcc 0xFFFF0000 with opnd := { OperandRegs.reset with opa := 0xFFFF#16 } }) =
    some (0xFFFFFFFF, 0x002) := by decide

/-- V24: the first span of the odd split, `61 62 63` added to 0x0800 + 0x1234 + 0x0001. -/
theorem test_csumAddb_odd_tail_v24 :
    seen (fun t => t.csumAcc.toNat)
      (exec .csumAddb { atSource 0x200 3 (written 0x200 [0x61, 0x62, 0x63]) with csumAcc := 0x1A35#32 }) =
    some 0xDE97 := by decide
theorem test_csumAddb_bounds_v23 : statusAfter .csumAddb (atSource 0 0x10001 []) = some 0x052 := by decide

theorem test_csumFin_v15 :
    [0x00000000, 0x0000FFFF, 0xFFFFFFFF, 0x000207FE, 0x0000DEFB, 0x0001FFFE, 0x00010000].map (fun a =>
      seen (fun t => (t.csumRes.toNat, t.status.cz, t.csumAcc.toNat == a)) (exec .csumFin (atAcc a))) =
    [some (0xFFFF, false, true), some (0, true, true), some (0, true, true), some (0xF7FF, false, true),
      some (0x2104, false, true), some (0, true, true), some (0xFFFE, false, true)] := by decide

theorem test_csumBuf_last_byte_v21 :
    seen (fun t => (t.csumAcc.toNat, t.csumRes.toNat, t.status.toWord.toNat))
      (exec .csumBuf (atSource 0xFFFF 1 (written 0xFFFF [0xAB]))) = some (0xAB00, 0x54FF, 0x002) := by decide
theorem test_csumBuf_bounds_v22 :
    seen (fun t => (t.csumAcc.toNat, t.csumRes.toNat, t.status.toWord.toNat))
      (exec .csumBuf { atSource 0xFFFF 2 [] with csumAcc := 5#32 }) = some (5, 0, 0x052) := by decide

/-- V1 to V6, V10: `ComputeChecksum`. -/
theorem test_computeChecksum :
    (computeChecksum 0 0 0 0 []).toNat = 0xFFFF ∧
    (computeChecksum 8 0 0x1234 1 [0x6162, 0x6364]).toNat = 0x2104 ∧
    (computeChecksum 8 0 0x1234 1 [0x6162, 0x6300]).toNat = 0x2168 ∧
    (computeChecksum 128 0 0x1234 1 [0x6162, 0x6364]).toNat = 0xA903 ∧
    (computeChecksum 8 0 0xFFFF 0xFFFF []).toNat = 0xF7FF ∧
    (computeChecksum 8 0 0xF7FF 0 []).toNat = 0x0000 ∧
    (computeChecksum 128 0 0xFFFF 0xFFFF [0xFFFF, 0xFFFF, 0xFFFF, 0xFFFF]).toNat = 0x7FFF := by decide

/-! ### Codec commands -/

/-- The state V25 starts from. -/
def v25 : State :=
  { State.reset with
    opnd := { OperandRegs.reset with
      txType := 0x08, txCode := 0, txCsum := 0xBEEF, txIdent := 0xCAFE, txSeq := 0x0102, dstAddr := 0x0030 } }

theorem test_icmpEnc_v25 :
    seen (fun t => (bytesAt t.mem 0x30 8, t.status.toWord.toNat)) (exec .icmpEnc v25) =
    some ([0x08, 0x00, 0xBE, 0xEF, 0xCA, 0xFE, 0x01, 0x02].map some, 0x002) := by decide
theorem test_icmpEnc_bounds_v28 :
    statusAfter .icmpEnc (atFrame 0xFFF9 0 0 0 []) = some 0x052 ∧
    statusAfter .icmpEnc (atFrame 0xFFF8 0 0 0 []) = some 0x002 := by decide

theorem test_echoBuildV4_v29 :
    seen (fun t => (bytesAt t.mem 0x100 12, t.csumAcc.toNat, t.csumRes.toNat, t.frameLen.toNat,
        t.status.toWord.toNat))
      (exec .echoBuildV4 (atFrame 0x100 4 0x1234 1 (written 0x108 [0x61, 0x62, 0x63, 0x64]))) =
    some ([0x08, 0x00, 0x21, 0x04, 0x12, 0x34, 0x00, 0x01, 0x61, 0x62, 0x63, 0x64].map some, 0xDEFB, 0x2104, 12,
      0x002) := by decide
theorem test_echoBuildV4_zero_checksum_v32 :
    seen (fun t => (bytesAt t.mem 0 8, t.csumRes.toNat, t.status.toWord.toNat))
      (exec .echoBuildV4 (atFrame 0 0 0xF7FF 0 [])) =
    some ([0x08, 0x00, 0x00, 0x00, 0xF7, 0xFF, 0x00, 0x00].map some, 0, 0x102) := by decide

theorem test_echoBuildV6_v30 :
    seen (fun t => (bytesAt t.mem 0x200 8, t.csumAcc.toNat, t.csumRes.toNat, t.frameLen.toNat,
        t.status.toWord.toNat))
      (exec .echoBuildV6 (atFrame 0x200 4 0x1234 1 (written 0x208 [0x61, 0x62, 0x63, 0x64]))) =
    some ([0x80, 0x00, 0xA9, 0x03, 0x12, 0x34, 0x00, 0x01].map some, 0x156FB, 0xA903, 12, 0x002) := by decide
theorem test_echoBuild_bounds_v35 :
    statusAfter .echoBuildV4 (atFrame 0xFFF9 0 0 0 []) = some 0x052 ∧
    statusAfter .echoBuildV6 (atFrame 0xFF00 0xF9 0 0 []) = some 0x052 ∧
    seen (fun t => (t.csumRes.toNat, t.frameLen.toNat)) (exec .echoBuildV4 (atFrame 0xFFF8 0 1 0 [])) =
      some (0xF7FE, 8) := by decide

theorem test_icmpDec_v26 :
    seen (fun t => (t.rx.type.toNat, t.rx.csum.toNat, t.rx.ident.toNat, t.rx.seq.toNat, t.rx.bodyAddr.toNat,
        t.rx.bodyLen.toNat))
      (exec .icmpDec (atSource 0x30 8 (written 0x30 [0x08, 0x00, 0xBE, 0xEF, 0xCA, 0xFE, 0x01, 0x02]))) =
    some (0x08, 0xBEEF, 0xCAFE, 0x0102, 0x38, 0) := by decide
theorem test_icmpDec_truncated_v27_edge_v36_unwritten_v53 :
    statusAfter .icmpDec (atSource 0x30 7 []) = some 0x012 ∧
    seen (fun t => t.rx.bodyAddr.toNat)
      (exec .icmpDec (atSource 0xFFF8 8 (written 0xFFF8 [0, 0, 0, 0, 0, 0, 0, 0]))) = some 0x10000 ∧
    faultOf (exec .icmpDec (atSource 0 8 [])) = some .uninitRead := by decide

/-! ### Header decoders -/

/-- The IPv4 header of V37. -/
def v37Header : List Byte :=
  [0x45, 0x00, 0x00, 0x20, 0x1C, 0x46, 0x40, 0x00, 0x40, 0x01, 0x9D, 0x3B, 0xC0, 0xA8, 0x00, 0x01, 0xC0, 0xA8,
    0x00, 0x0A]

/-- The ICMP message of V37. -/
def v37Message : List Byte :=
  [0x00, 0x00, 0x29, 0x04, 0x12, 0x34, 0x00, 0x01, 0x61, 0x62, 0x63, 0x64]

/-- The buffer of V37. -/
def v37Memory : Memory := written 0x400 (v37Header ++ v37Message)

/-- The IPv4 bank V37 gives. -/
def v37Bank : Ipv4Bank where
  version := 4
  ihl := 5
  tos := 0
  totalLen := 0x0020
  ident := 0x1C46
  flagsOff := 0x4000
  ttl := 0x40
  proto := 1
  hdrCsum := 0x9D3B
  src := 0xC0A80001
  dst := 0xC0A8000A
  hdrLen := 20
  optAddr := 0x0414
  optLen := 0
  payloadAddr := 0x0414
  payloadLen := 12

theorem test_ipv4Dec_v37 :
    seen (fun t => (t.v4, t.status.toWord.toNat)) (exec .ipv4Dec (atSource 0x400 32 v37Memory)) =
    some (v37Bank, 0x002) := by rfl

/-- V38 rows a, b, c, d, f and i, with only the first byte written where no other is read. -/
theorem test_ipv4Dec_errors_v38 :
    statusAfter .ipv4Dec (atSource 0 0 []) = some 0x012 ∧
    statusAfter .ipv4Dec (atSource 0 10 (written 0 [0x55])) = some 0x032 ∧
    statusAfter .ipv4Dec (atSource 0 10 (written 0 [0x45])) = some 0x012 ∧
    statusAfter .ipv4Dec (atSource 0 20 (written 0 [0x44])) = some 0x022 ∧
    statusAfter .ipv4Dec (atSource 0 20 (written 0 [0x46])) = some 0x012 ∧
    statusAfter .ipv4Dec (atSource 0 40 (written 0 [0x60])) = some 0x032 := by decide

/-- The IPv6 header of V41. -/
def v41Header : List Byte :=
  [0x6A, 0xBC, 0xDE, 0xF1, 0x00, 0x0C, 0x3A, 0x40] ++
  [0x20, 0x01, 0x0D, 0xB8, 0, 0, 0, 0, 0, 0, 0, 0, 0, 0, 0, 0x01] ++
  [0x20, 0x01, 0x0D, 0xB8, 0, 0, 0, 0, 0, 0, 0, 0, 0, 0, 0, 0x02]

/-- The IPv6 bank V41 gives. -/
def v41Bank : Ipv6Bank where
  version := 6
  tclass := 0xAB
  flow := 0xCDEF1
  plen := 0x000C
  nxt := 0x3A
  hoplim := 0x40
  payloadAddr := 0x0828
  payloadLen := 0
  src0 := 0x20010DB8
  src1 := 0
  src2 := 0
  src3 := 1
  dst0 := 0x20010DB8
  dst1 := 0
  dst2 := 0
  dst3 := 2

theorem test_ipv6Dec_v41 :
    seen (fun t => (t.v6, t.status.toWord.toNat)) (exec .ipv6Dec (atSource 0x800 40 (written 0x800 v41Header))) =
    some (v41Bank, 0x002) := by rfl
theorem test_ipv6Dec_errors_v42 :
    statusAfter .ipv6Dec (atSource 0x800 39 (written 0x800 [0x6A])) = some 0x012 ∧
    statusAfter .ipv6Dec (atSource 0 40 (written 0 [0x45])) = some 0x032 := by decide

/-! ### Receive chain -/

theorem test_rxParseV4_v43 :
    seen (fun t => (t.v4, t.rx, t.status.toWord.toNat)) (exec .rxParseV4 (atSource 0x400 32 v37Memory)) =
    some (v37Bank,
      { type := 0, code := 0, csum := 0x2904, ident := 0x1234, seq := 1, bodyAddr := 0x041C, bodyLen := 4 },
      0x002) := by rfl

/-- A span whose first byte is given and whose other bytes are zero. -/
def zerosAfter (b : Byte) (n : Nat) : Memory := written 0 (b :: List.replicate n 0)

theorem test_rxParseV4_errors_v44 :
    seen (fun t => (t.status.toWord.toNat, t.v4, t.rx)) (exec .rxParseV4 (atSource 0 27 (zerosAfter 0x45 26))) =
      some (0x412, Ipv4Bank.reset, IcmpBank.reset) ∧
    statusAfter .rxParseV4 (atSource 0 28 (zerosAfter 0x45 27)) = some 0x002 ∧
    statusAfter .rxParseV4 (atSource 0 28 (zerosAfter 0x65 27)) = some 0x032 := ⟨rfl, rfl, rfl⟩

theorem test_rxParseV6_v45 :
    seen (fun t => (t.rx, t.v4, t.v6, t.status.toWord.toNat))
      (exec .rxParseV6
        (atSource 0x10 12 (written 0x10 [0x81, 0x00, 0xA8, 0x03, 0x12, 0x34, 0x00, 0x01, 0x61, 0x62, 0x63, 0x64]))) =
    some ({ type := 0x81, code := 0, csum := 0xA803, ident := 0x1234, seq := 1, bodyAddr := 0x18, bodyLen := 4 },
      Ipv4Bank.reset, Ipv6Bank.reset, 0x002) := by rfl

/-! ### Host accesses -/

/-- V49. -/
theorem test_register_widths_v49 :
    seen (fun t => readOffset t 0x14#8) (hostAccess (.regWrite 0x14#8 32 0x1FFFF#32) State.reset) = some 0x1FFFF#32 ∧
    seen (fun t => readOffset t 0x2C#8) (hostAccess (.regWrite 0x2C#8 32 0x12345#32) State.reset) = some 0x2345#32 ∧
    seen (fun t => readOffset t 0x00#8) (hostAccess (.regWrite 0x00#8 32 0xFFFFFFFF#32) State.reset) = some 1#32 ∧
    readOffset State.reset 0x5C#8 = 0#32 ∧ readOffset State.reset 0xE0#8 = 0#32 := by decide

/-- V50. -/
theorem test_done_w1c_v50 :
    seen (fun t => t.status.toWord.toNat) (hostAccess (.regWrite 0x04#8 32 2#32)
      { State.reset with status := { Status.reset with done := true, err := 4#4 } }) = some 0x040 ∧
    seen (fun t => t.status.toWord.toNat) (hostAccess (.regWrite 0x04#8 32 0xFFFFFFFD#32)
      { State.reset with status := { Status.reset with done := true, err := 4#4 } }) = some 0x042 := by decide

/-- V53's model faults of the host. -/
theorem test_host_faults_v53 :
    faultOf (hostAccess (.regWrite 0x14#8 32 1#32) (State.reset.start 0#32)) = some .hostBusyViolation ∧
    faultOf (hostAccess (.regWrite 0x10#8 16 0#32) State.reset) = some .hostBadAccess ∧
    faultOf (hostAccess (.bufRead 0#16 8) State.reset) = some .uninitRead := by decide

/-! ### A host program: P4's first four statements -/

/-- Statements 1 to 4 of P4. -/
def p4Start : List HostLine :=
  [.stmt (.wr .ctrl 1#32), .stmt (.wr .cmd 0x200#32), .pseudo .wait, .stmt (.rd .status "t"), .stmt (.rd .cmd "w"),
    .pseudo .ack, .stmt .halt]

/-- The program run with one busy poll before the block moves. -/
def p4Run : Option (List Word × List Word × Nat × Bool) :=
  match assemble p4Start with
  | none => none
  | some ops =>
    match (HostRun.init ops State.reset).turns
      [true, true, true, true, true, false, true, true, true, true, true, true, true] with
    | .next h => some (varValues h.vars "t", varValues h.vars "w", h.block.status.toWord.toNat, h.final)
    | _ => none

theorem test_program_p4 : p4Run = some ([0x042#32], [0x200#32], 0x040, true) := by rfl

theorem test_assembler_rejects_bare_family : assemble [.stmt (.cmd "echo.build")] = none := by rfl

/-! ### Choices over what the spec leaves open (log 7, log 13, log 16) -/

/-- IHL 4, bytes 1 to 19 unwritten: `MALFORMED_HEADER` from the first byte alone (log 16). -/
theorem test_short_ihl_reads_one_byte : statusAfter .ipv4Dec (atSource 0 20 (written 0 [0x44])) = some 0x022 := by
  decide

/-- An ill-formed read while busy (log 7). -/
theorem test_ill_formed_busy_read :
    faultOf (hostAccess (.regRead 0x04#8 8) (State.reset.start 0#32)) = some .hostBadAccess := by decide

/-- A label defined twice stands first; a program without a `halt` halts at its end (log 13). -/
theorem test_program_corners :
    labelIndex (.named "a") [.halt, .label (.named "a"), .label (.named "a")] = some 1 ∧
    (match (HostRun.init [] State.reset).hostTurn with | .next h => h.halted | _ => false) = true := ⟨rfl, rfl⟩

/-! ### Witnesses: a state and operands that meet a statement's hypotheses, clause by clause, at the edges -/

/-- A state with a command pending and the block next to move. -/
def pendingOn (w : Nat) (s : State) : State := s.withFetchWord 32 w

/-- From a state: what the outside world does next. -/
def withAgenda (es : List Event) (s : State) : State := s.setAgenda es

theorem test_witness_illegalWord :
    (∀ w ∈ [0x06, 0x0F, 0x12, 0x1F, 0x24, 0xFF, 0x101, 0x122, 0x200, 0x80000000],
      Pending (pendingOn w State.reset) ∧ (pendingOn w State.reset).cmd.toNat = w ∧
        seen (fun t => t.status.err) (step (pendingOn w State.reset)) = some 4#4) ∧
    (∀ w ∈ [0x05, 0x10, 0x11, 0x111, 0x20, 0x23, 0x123], Pending (pendingOn w State.reset) ∧
      ∃ i, decode (pendingOn w State.reset).cmd = .ok i) := by
  refine ⟨?_, ?_⟩
  · simp only [List.forall_mem_cons]
    exact ⟨⟨⟨rfl, .inl rfl⟩, rfl, rfl⟩, ⟨⟨rfl, .inl rfl⟩, rfl, rfl⟩, ⟨⟨rfl, .inl rfl⟩, rfl, rfl⟩,
      ⟨⟨rfl, .inl rfl⟩, rfl, rfl⟩, ⟨⟨rfl, .inl rfl⟩, rfl, rfl⟩, ⟨⟨rfl, .inl rfl⟩, rfl, rfl⟩,
      ⟨⟨rfl, .inl rfl⟩, rfl, rfl⟩, ⟨⟨rfl, .inl rfl⟩, rfl, rfl⟩, ⟨⟨rfl, .inl rfl⟩, rfl, rfl⟩,
      ⟨⟨rfl, .inl rfl⟩, rfl, rfl⟩, by simp⟩
  · simp only [List.forall_mem_cons]
    exact ⟨⟨⟨rfl, .inl rfl⟩, _, rfl⟩, ⟨⟨rfl, .inl rfl⟩, _, rfl⟩, ⟨⟨rfl, .inl rfl⟩, _, rfl⟩,
      ⟨⟨rfl, .inl rfl⟩, _, rfl⟩, ⟨⟨rfl, .inl rfl⟩, _, rfl⟩, ⟨⟨rfl, .inl rfl⟩, _, rfl⟩,
      ⟨⟨rfl, .inl rfl⟩, _, rfl⟩, by simp⟩

theorem test_witness_stepRuns :
    Pending (pendingOn 0x123 (withAgenda [.reset] State.reset)) ∧
    decode (pendingOn 0x123 (withAgenda [.reset] State.reset)).cmd = .ok .rxParseV6 :=
  ⟨⟨rfl, .inr ⟨[.reset], rfl⟩⟩, rfl⟩

theorem test_witness_stepServes :
    (withAgenda [.host (.regRead 0x04#8 32)] State.reset).host.agenda = .host (.regRead 0x04#8 32) :: [] ∧
    (State.reset.status.busy = false ∧ State.reset.host.agenda = []) ∧
    ((withAgenda [.block, .reset] State.reset).status.busy = false ∧
      (withAgenda [.block, .reset] State.reset).host.agenda = .block :: [.reset]) :=
  ⟨rfl, ⟨rfl, rfl⟩, rfl, rfl⟩

theorem test_witness_resetAborts :
    (withAgenda [.reset] (State.reset.start 0x05#32)).host.agenda = .reset :: [] ∧
    (withAgenda [.reset] (State.reset.start 0x05#32)).status.busy = true :=
  ⟨rfl, rfl⟩

theorem test_witness_pendingCompletes :
    (State.reset.start 0x05#32).status.busy = true ∧
    (∀ e ∈ (withAgenda [.host (.regRead 0x04#8 32), .host (.regRead 0x08#8 32)]
        (State.reset.start 0x05#32)).host.agenda,
      e = .host (.regRead 0x04#8 32) ∨ e = .host (.regRead 0x08#8 32)) ∧
    seen (fun t => t.status.done) (core.run 3
      (withAgenda [.host (.regRead 0x04#8 32), .host (.regRead 0x08#8 32)] (State.reset.start 0x05#32))) =
      some true ∧
    faultOf (core.run 1 ((atSource 0 1 []).start 0x05#32)) = some .uninitRead := by
  refine ⟨rfl, ?_, rfl, rfl⟩
  decide

theorem test_witness_pendingWordStable :
    ∃ s t : State, step s = .next t ∧ s.status.busy = true ∧ t.status.busy = true :=
  ⟨withAgenda [.host (.regRead 0x04#8 32)] (State.reset.start 0x05#32), _, rfl, rfl, rfl⟩

/-- A state with a command pending that meets the invariant. -/
theorem test_witness_inv_pending (w : Nat) : Inv (pendingOn w State.reset) :=
  ⟨rfl, Nat.zero_le 5, fun _ => ⟨rfl, rfl, rfl⟩, fun h => (by cases h), fun h => (by cases h), Nat.zero_le 65536,
    Nat.zero_le 65536, .inl rfl, .inl rfl⟩

/-- The bank of V37 and the bank of V41 meet their invariants beside the reset banks. -/
theorem test_witness_banks_ok : v4BankOk v37Bank ∧ v6BankOk v41Bank :=
  ⟨.inr (by decide), .inr (by decide)⟩

theorem test_witness_stepKeepsInv :
    Inv (pendingOn 0x05 State.reset) ∧ ∃ t, step (pendingOn 0x05 State.reset) = .next t :=
  ⟨test_witness_inv_pending _, _, rfl⟩

/-- Spans of every length up to the whole buffer hold words. -/
theorem test_witness_accAdd_whole_buffer :
    ∃ ws, (65536 : Nat) ≤ 65536 ∧ words (written 0 (List.replicate 65536 0xFF#8)) 0 65536 = .ok ws := by
  have h := words_of_holds (written_holds 0 (List.replicate 65536 0xFF#8))
  rw [List.length_replicate] at h
  exact ⟨_, Nat.le_refl _, h⟩

theorem test_witness_neitherZero :
    2 ^ 32 > (([0#16, 0#16] : List Half).map BitVec.toNat).sum ∧
    2 ^ 32 > (([0xFFFF#16] : List Half).map BitVec.toNat).sum ∧
    cks 0x0000FFFF#32 = 0#16 ∧ twoPass 0xFFFF = 0xFFFF ∧ cks 0x0001FFFE#32 = 0#16 ∧ twoPass 0x1FFFE = 0xFFFF := by
  decide

/-- The three clauses of `CSUM_ADDB` and of `CSUM_BUF`: a span one byte too long, one that ends with the buffer, and an
unwritten byte. -/
theorem test_witness_csumSpans :
    (65536 < (atSource 0xFFFF 2 []).opnd.srcAddr.toNat + (atSource 0xFFFF 2 []).opnd.srcLen.toNat) ∧
    (∃ s : State, ∃ bytes : List Byte, s.opnd.srcAddr.toNat + s.opnd.srcLen.toNat = 65536 ∧
      bytes.length = s.opnd.srcLen.toNat ∧ spanHolds s.mem s.opnd.srcAddr.toNat bytes) ∧
    (∃ s : State, s.opnd.srcAddr.toNat + s.opnd.srcLen.toNat = 65536 ∧
      ¬spanWritten s.mem s.opnd.srcAddr.toNat s.opnd.srcLen.toNat) := by
  refine ⟨by decide, ⟨atSource 0xFFFF 1 (written 0xFFFF [0xAB]), [0xAB], rfl, rfl, written_holds _ _⟩,
    atSource 0xFFFF 1 [], rfl, fun h => ?_⟩
  have := h 0 (by decide)
  revert this
  decide

/-- Incremental sum: a body that ends with the buffer, an empty one, both forms of the header words. -/
theorem test_witness_incremental :
    (([0x61, 0x62, 0x63] : List Byte).length ≤ 65528 ∧
      (0xFFFD#16).toNat + ([0x61, 0x62, 0x63] : List Byte).length = 65536 ∧
      spanHolds (atSource 0 0 (written 0xFFFD [0x61, 0x62, 0x63])).mem (0xFFFD#16).toNat [0x61, 0x62, 0x63]) ∧
    spanHolds State.reset.mem 0 [] ∧
    [0x0001#16, 0x1234#16, 0#16, 0x0800#16].Perm [(0x08#8 ++ 0x00#8 : Half), 0#16, 0x1234#16, 0x0001#16] ∧
    [0x0800#16, 0x1234#16, 0x0001#16].Perm [(0x08#8 ++ 0x00#8 : Half), 0x1234#16, 0x0001#16] :=
  ⟨⟨by decide, rfl, written_holds _ _⟩, spanHolds_nil _ _, by decide, by decide⟩

/-- The message of V37, at the end of the buffer. -/
theorem test_witness_messageVerifies :
    ∃ s : State, ∃ body : List Byte,
      let c := checksumOf ((0x00#8).toNat * 256 + (0x00#8).toNat + (0x1234#16).toNat + (1#16).toNat + wordSum body)
      let msg := headerBytes 0x00 0x00 c 0x1234 1 ++ body
      body.length = 4 ∧ msg = v37Message ∧ s.opnd.srcAddr.toNat + msg.length = 65536 ∧
        s.opnd.srcLen.toNat = msg.length ∧ spanHolds s.mem s.opnd.srcAddr.toNat msg :=
  ⟨atSource 0xFFF4 12 (written 0xFFF4 v37Message), [0x61, 0x62, 0x63, 0x64], rfl, by decide, rfl, rfl,
    written_holds _ _⟩

/-- `ECHO_BUILD`: a frame that ends with the buffer, with a body and without, one byte too long, and an unwritten body. -/
theorem test_witness_echoBuild :
    (∃ s : State, s.opnd.dstAddr.toNat + 8 + s.opnd.bodyLen.toNat = 65536 ∧ s.opnd.bodyLen.toNat = 2 ∧
      spanWritten s.mem (s.opnd.dstAddr.toNat + 8) s.opnd.bodyLen.toNat ∧
      spanHolds s.mem (s.opnd.dstAddr.toNat + 8) [0x61, 0x62]) ∧
    (∃ s : State, s.opnd.dstAddr.toNat + 8 + s.opnd.bodyLen.toNat = 65536 ∧ s.opnd.bodyLen.toNat = 0 ∧
      spanWritten s.mem (s.opnd.dstAddr.toNat + 8) s.opnd.bodyLen.toNat) ∧
    65536 < (atFrame 0xFFF6 3 0 0 []).opnd.dstAddr.toNat + 8 + (atFrame 0xFFF6 3 0 0 []).opnd.bodyLen.toNat ∧
    (∃ s : State, s.opnd.dstAddr.toNat + 8 + s.opnd.bodyLen.toNat = 65536 ∧
      ¬spanWritten s.mem (s.opnd.dstAddr.toNat + 8) s.opnd.bodyLen.toNat) := by
  refine ⟨⟨atFrame 0xFFF6 2 0 0 (written 0xFFFE [0x61, 0x62]), rfl, rfl,
      spanWritten_of_holds_length rfl (written_holds 0xFFFE [0x61, 0x62]), written_holds _ _⟩,
    ⟨atFrame 0xFFF8 0 0 0 [], rfl, rfl, fun k hk => absurd hk (by decide +revert)⟩, by decide,
    atFrame 0xFFF6 2 0 0 [], rfl, fun h => ?_⟩
  have := h 0 (by decide)
  revert this
  decide

theorem test_witness_icmpEnc :
    65536 < (atFrame 0xFFF9 0 0 0 []).opnd.dstAddr.toNat + 8 ∧
    (atFrame 0xFFF8 0 0 0 []).opnd.dstAddr.toNat + 8 ≤ 65536 := by decide

/-- `ICMP_DEC` and `RX_PARSE` V6: out of bounds, 7 bytes, 8 written bytes at the end of the buffer, 8 unwritten ones. -/
theorem test_witness_icmpDecode :
    65536 < (atSource 0xFFF8 9 []).opnd.srcAddr.toNat + (atSource 0xFFF8 9 []).opnd.srcLen.toNat ∧
    ((atSource 0xFFF9 7 []).opnd.srcAddr.toNat + (atSource 0xFFF9 7 []).opnd.srcLen.toNat ≤ 65536 ∧
      (atSource 0xFFF9 7 []).opnd.srcLen.toNat < 8) ∧
    (∃ s : State, s.opnd.srcAddr.toNat + s.opnd.srcLen.toNat = 65536 ∧ s.opnd.srcLen.toNat = 8 ∧
      spanHolds s.mem s.opnd.srcAddr.toNat [0x08, 0x00, 0xBE, 0xEF, 0xCA, 0xFE, 0x01, 0x02]) ∧
    (∃ s : State, s.opnd.srcAddr.toNat + s.opnd.srcLen.toNat ≤ 65536 ∧ s.opnd.srcLen.toNat = 8 ∧
      ¬spanWritten s.mem s.opnd.srcAddr.toNat 8) := by
  refine ⟨by decide, by decide, ⟨atSource 0xFFF8 8 (written 0xFFF8 [0x08, 0x00, 0xBE, 0xEF, 0xCA, 0xFE, 0x01, 0x02]),
    rfl, rfl, written_holds _ _⟩, atSource 0 8 [], by decide, rfl, fun h => ?_⟩
  have := h 0 (by decide)
  revert this
  decide

theorem test_witness_roundTrip :
    (atFrame 0xFFF6 2 0 0 (written 0xFFFE [0x61, 0x62])).opnd.dstAddr.toNat + 8 + 2 = 65536 ∧
    (atFrame 0xFFF6 2 0 0 (written 0xFFFE [0x61, 0x62])).opnd.bodyLen.toNat = 2 ∧
    spanWritten (atFrame 0xFFF6 2 0 0 (written 0xFFFE [0x61, 0x62])).mem (0xFFF6 + 8) 2 :=
  ⟨rfl, rfl, spanWritten_of_holds_length rfl (written_holds 0xFFFE [0x61, 0x62])⟩

/-- `IPV4_DEC`: the header of V37 with the shortest IHL, and one with the longest IHL over a 60-byte span. -/
theorem test_witness_ipv4Decode :
    (spanHolds (atSource 0x400 32 v37Memory).mem 0x400 v37Header ∧ v37Header.length = 20 ∧
      field v37Header 0 1 / 16 = 4 ∧ field v37Header 0 1 % 16 = 5 ∧ 4 * 5 ≤ 32) ∧
    (∃ s : State, ∃ h : List Byte, s.opnd.srcAddr.toNat + s.opnd.srcLen.toNat = 65536 ∧ h.length = 20 ∧
      spanHolds s.mem s.opnd.srcAddr.toNat h ∧ field h 0 1 / 16 = 4 ∧ field h 0 1 % 16 = 15 ∧
      4 * 15 = s.opnd.srcLen.toNat) := by
  refine ⟨⟨?_, rfl, rfl, rfl, by decide⟩,
    ⟨atSource 0xFFC4 60 (written 0xFFC4 (0x4F :: List.replicate 19 0)), 0x4F :: List.replicate 19 0, rfl, rfl,
      written_holds _ _, rfl, rfl, rfl⟩⟩
  exact ((spanHolds_append v37Memory 0x400 v37Header v37Message).mp (written_holds _ _)).1

/-- The checks of the IPv4 header in their order, each met at its edge; the outcomes are those of V38 and V53. -/
theorem test_witness_ipv4First :
    [statusAfter .ipv4Dec (atSource 0xFFFF 2 []), statusAfter .ipv4Dec (atSource 0 0 []),
      statusAfter .ipv4Dec (atSource 0 1 []), statusAfter .ipv4Dec (atSource 0 1 (written 0 [0x5F])),
      statusAfter .ipv4Dec (atSource 0 19 (written 0 [0x40])), statusAfter .ipv4Dec (atSource 0 20 (written 0 [0x44])),
      statusAfter .ipv4Dec (atSource 0 59 (written 0 [0x4F]))] =
    [some 0x052, some 0x012, none, some 0x032, some 0x012, some 0x022, some 0x012] ∧
    faultOf (exec .ipv4Dec (atSource 0 1 [])) = some .uninitRead := by decide

theorem test_witness_malformed :
    ∃ t, exec .rxParseV4 (atSource 0 20 (written 0 [0x44])) = .next t ∧ t.status.err = 2#4 :=
  next_of_seen (f := fun t : State => t.status.err) (by decide)

theorem test_witness_ipv6Decode :
    ∃ s : State, ∃ h : List Byte, s.opnd.srcAddr.toNat + s.opnd.srcLen.toNat = 65536 ∧ h.length = 40 ∧
      spanHolds s.mem s.opnd.srcAddr.toNat h ∧ field h 0 1 / 16 = 6 ∧ s.opnd.srcLen.toNat = 40 :=
  ⟨atSource 0xFFD8 40 (written 0xFFD8 v41Header), v41Header, rfl, rfl, written_holds _ _, rfl, rfl⟩

theorem test_witness_ipv6First :
    [statusAfter .ipv6Dec (atSource 0xFFFF 2 []), statusAfter .ipv6Dec (atSource 0 0 []),
      statusAfter .ipv6Dec (atSource 0 1 []), statusAfter .ipv6Dec (atSource 0 1 (written 0 [0x45])),
      statusAfter .ipv6Dec (atSource 0 39 (written 0 [0x60]))] =
    [some 0x052, some 0x012, none, some 0x032, some 0x012] ∧
    faultOf (exec .ipv6Dec (atSource 0 1 [])) = some .uninitRead := by decide

/-- The V4 chain: an error of the first stage, 7 bytes after the header, 8 bytes after it, and 8 unwritten ones. -/
theorem test_witness_rxChain :
    seen (fun t => t.status.err) (exec .ipv4Dec (atSource 0 20 (written 0 [0x44]))) = some 2#4 ∧
    seen (fun t => (t.status.err, t.v4.ihl)) (exec .ipv4Dec (atSource 0 27 (zerosAfter 0x45 19))) = some (0#4, 5#4) ∧
    seen (fun t => (t.status.err, t.v4.ihl)) (exec .ipv4Dec (atSource 0 28 (zerosAfter 0x45 27))) = some (0#4, 5#4) ∧
    statusAfter .rxParseV4 (atSource 0 27 (zerosAfter 0x45 19)) = some 0x412 ∧
    statusAfter .rxParseV4 (atSource 0 28 (zerosAfter 0x45 27)) = some 0x002 ∧
    faultOf (exec .rxParseV4 (atSource 0 28 (zerosAfter 0x45 26))) = some .uninitRead := ⟨rfl, rfl, rfl, rfl, rfl, rfl⟩

theorem test_witness_rxGoodDatagram :
    (atSource 0x400 32 v37Memory).mem.byteAt 0x400 = some 0x45 ∧ (0x45#8).toNat / 16 = 4 ∧
    20 ≤ 4 * ((0x45#8).toNat % 16) ∧ 4 * ((0x45#8).toNat % 16) + 8 ≤ 32 ∧ spanWritten v37Memory 0x400 20 ∧
    spanHolds v37Memory (0x400 + 4 * ((0x45#8).toNat % 16)) [0x00, 0x00, 0x29, 0x04, 0x12, 0x34, 0x00, 0x01] := by
  have h := (spanHolds_append v37Memory 0x400 v37Header v37Message).mp (written_holds _ _)
  refine ⟨rfl, by decide, by decide, by decide, spanWritten_of_holds_length rfl h.1, ?_⟩
  exact ((spanHolds_append _ _ [0x00, 0x00, 0x29, 0x04, 0x12, 0x34, 0x00, 0x01] [0x61, 0x62, 0x63, 0x64]).mp h.2).1

/-- Commands that end with an error, in and out of the ICMP stage. -/
theorem test_witness_failed :
    (∃ t, exec .csumBuf (atSource 0xFFFF 2 []) = .next t ∧ t.status.err ≠ 0#4) ∧
    (∃ t, exec .rxParseV4 (atSource 0 27 (zerosAfter 0x45 19)) = .next t ∧ t.status.err ≠ 0#4) := by
  obtain ⟨t, h, he⟩ := next_of_seen (f := fun t : State => t.status.err) (v := 5#4)
    (o := exec .csumBuf (atSource 0xFFFF 2 [])) (by decide)
  obtain ⟨u, g, ge⟩ := next_of_seen (f := fun t : State => t.status.err) (v := 1#4)
    (o := exec .rxParseV4 (atSource 0 27 (zerosAfter 0x45 19))) (by rfl)
  exact ⟨⟨t, h, by rw [he]; decide⟩, u, g, by rw [ge]; decide⟩

/-- Every command has a state it completes in without error, each a next state of `exec`. -/
theorem test_witness_every_command_completes :
    [statusAfter .nop State.reset, statusAfter .csumClr State.reset, statusAfter .csumAddw State.reset,
      statusAfter .csumAddb State.reset, statusAfter .csumFin State.reset, statusAfter .csumBuf State.reset,
      statusAfter .icmpEnc State.reset, statusAfter .echoBuildV4 State.reset, statusAfter .echoBuildV6 State.reset,
      statusAfter .icmpDec (atSource 0 8 (zerosAfter 0 7)), statusAfter .ipv4Dec (atSource 0 20 (zerosAfter 0x45 19)),
      statusAfter .ipv6Dec (atSource 0 40 (zerosAfter 0x60 39)),
      statusAfter .rxParseV4 (atSource 0 28 (zerosAfter 0x45 27)),
      statusAfter .rxParseV6 (atSource 0 8 (zerosAfter 0 7))] = List.replicate 14 (some 0x002) := by rfl

/-- The three ways a span leaves the buffer, each by one byte, and a span that just fits. -/
theorem test_witness_bounds :
    65536 < (atSource 0xFFFF 2 []).opnd.srcAddr.toNat + (atSource 0xFFFF 2 []).opnd.srcLen.toNat ∧
    65536 < (atFrame 0xFFF9 0 0 0 []).opnd.dstAddr.toNat + 8 ∧
    65536 < (atFrame 0xFF00 0xF9 0 0 []).opnd.dstAddr.toNat + (8 + (atFrame 0xFF00 0xF9 0 0 []).opnd.bodyLen.toNat) ∧
    (¬65536 < (atFrame 0xFFF8 0 0 0 []).opnd.dstAddr.toNat + 8) ∧
    statusAfter .icmpEnc (atFrame 0xFFF8 0 0 0 []) = some 0x002 := by decide

theorem test_witness_cmdWrite :
    State.reset.status.busy = false ∧ (State.reset.start 0#32).status.busy = true := ⟨rfl, rfl⟩

/-- Each result register is changed by some command. -/
theorem test_witness_resultsChange :
    seen (fun t => (t.v4 == Ipv4Bank.reset, t.rx == IcmpBank.reset)) (exec .rxParseV4 (atSource 0x400 32 v37Memory)) =
      some (false, false) ∧
    seen (fun t => t.v6 == Ipv6Bank.reset) (exec .ipv6Dec (atSource 0x800 40 (written 0x800 v41Header))) =
      some false ∧
    seen (fun t => (t.csumRes == 0#16, t.frameLen == 0#17, t.csumAcc == 0#32)) (exec .echoBuildV4 State.reset) =
      some (false, false, false) := ⟨rfl, rfl, rfl⟩

/-- The zero flag set, cleared, and left by a command that does not write it; a host access that goes on. -/
theorem test_witness_zeroFlag :
    seen (fun t => t.status.cz) (exec .csumFin (atAcc 0xFFFF)) = some true ∧
    seen (fun t => t.status.cz)
      (exec .csumFin { atAcc 0 with status := { Status.reset with cz := true } }) = some false ∧
    seen (fun t => t.status.cz) (exec .nop { atAcc 0 with status := { Status.reset with cz := true } }) = some true ∧
    seen (fun t => t.status.cz) (hostAccess (.regWrite 0x04#8 32 0#32)
      { atAcc 0 with status := { Status.reset with cz := true } }) = some true := by decide

/-- The overflow flag: set by a word, set by a span, kept, cleared by `CSUM_BUF`, and kept by a failed one. -/
theorem test_witness_overflowFlag :
    seen (fun t => t.status.ovf) (exec .csumAddw { atAcc 0xFFFFFFFF with opnd := { OperandRegs.reset with opa := 1 } }) =
      some true ∧
    seen (fun t => t.status.ovf)
      (exec .csumAddb { atSource 0 2 (written 0 [0x00, 0x01]) with csumAcc := 0xFFFFFFFF#32 }) = some true ∧
    seen (fun t => t.status.ovf)
      (exec .csumBuf { State.reset with status := { Status.reset with ovf := true } }) = some false ∧
    seen (fun t => (t.status.ovf, t.status.err)) (exec .csumBuf
      { atSource 0xFFFF 2 [] with status := { Status.reset with ovf := true } }) = some (true, 5#4) := by decide

theorem test_witness_stageFlag :
    (atSource 0 27 (zerosAfter 0x45 19)).status.estg = false ∧
    seen (fun t => t.status.estg) (exec .rxParseV4 (atSource 0 27 (zerosAfter 0x45 19))) = some true ∧
    seen (fun t => t.status.err) (exec .ipv4Dec (atSource 0 27 (zerosAfter 0x45 19))) = some 0#4 ∧
    seen (fun t => t.status.estg) (exec .rxParseV4 (atSource 0 20 (written 0 [0x44]))) = some false ∧
    seen (fun t => t.status.estg) (hostAccess (.regWrite 0x08#8 32 0#32)
      { State.reset with status := { Status.reset with estg := true, err := 1#4 } }) = some false :=
  ⟨rfl, rfl, rfl, rfl, rfl⟩

/-- A byte a command writes and one beside it. -/
theorem test_witness_writesByte :
    writesByte .icmpEnc (atFrame 0xFFF8 0 0 0 []) 0xFFFF ∧ ¬writesByte .icmpEnc (atFrame 0xFFF8 0 0 0 []) 0xFFF7 := by
  simp only [writesByte, inSpan]
  decide

/-- A byte `CSUM_BUF` reads and one it does not, at the end of the buffer; and a byte no command that stops before it
reads. -/
theorem test_witness_readsByte :
    readsByte .csumBuf (atSource 0xFFFE 2 []) 0xFFFF ∧ ¬readsByte .csumBuf (atSource 0xFFFE 2 []) 0xFFFD ∧
    readsByte .ipv4Dec (atSource 0 20 (written 0 [0x44])) 0 ∧ ¬readsByte .icmpDec (atSource 0 7 []) 0 := by
  refine ⟨by simp only [readsByte, readsSource, inSpan]; decide, by simp only [readsByte, readsSource, inSpan]; decide,
    ⟨by decide, by decide, .inl rfl⟩, fun h => absurd h.2.1 (by decide)⟩

/-- Two different buffers that agree on the bytes `ICMP_DEC` reads. -/
theorem test_witness_otherBuffer :
    ∃ (s : State) (m : Memory), m ≠ s.mem ∧ (∀ x, readsByte .icmpDec s x → m.byteAt x = s.mem.byteAt x) ∧
      ∃ t, exec .icmpDec s = .next t := by
  refine ⟨atSource 0 8 (zerosAfter 0 7), (zerosAfter 0 7).write 8 1, by decide, ?_, _, rfl⟩
  rintro x ⟨_, _, h⟩
  exact Memory.byteAt_write_other _ _ _ (by change 0 ≤ x ∧ x < 0 + 8 at h; omega)

theorem test_witness_interrupt :
    ((State.reset.complete 0#4).status.busy = false ∧ (State.reset.complete 0#4).status.done = true ∧
      (1#32).toNat % 2 = 1) ∧
    (State.reset.status.busy = false ∧ (2#32).toNat / 2 % 2 = 1) := ⟨⟨rfl, rfl, rfl⟩, rfl, rfl⟩

theorem test_witness_accessTypes :
    State.reset.status.busy = false ∧ Reg.srcLen.access = .rw ∧ Reg.v6Dst3.access = .ro ∧
    Reg.status.access = .statusW1c := ⟨rfl, rfl, rfl, rfl⟩

/-- The first and the last of the 55 offsets, and the last RW field. -/
theorem test_witness_registerMap :
    State.reset.status.busy = false ∧ (0x00#8, 0) ∈ registerContents State.reset ∧
    (0xDC#8, 0) ∈ registerContents State.reset ∧
    (0x30#8, { State.reset with opnd := { OperandRegs.reset with txSeq := 0xFFFF#16 } }) ∈
      fieldWrites State.reset 0x1FFFF#32 := by decide

/-- A mnemonic of the table, and strings outside it. -/
theorem test_witness_mnemonics :
    ofSpelling "csum.addb" = some .csumAddb ∧ "echo.build" ∉ allInstr.map spelling ∧
    "NOP" ∉ allInstr.map spelling := by decide

theorem test_witness_reservedOffsets :
    ∀ off ∈ [0x5C#8, 0xE0#8, 0xFC#8], State.reset.status.busy = false ∧ (State.reset.start 0x05#32).status.busy = true ∧
      (off.toNat = 0x5C ∨ (0xE0 ≤ off.toNat ∧ off.toNat % 4 = 0)) := by decide

theorem test_witness_busyBlock :
    Inv (pendingOn 0x05 State.reset) ∧ (pendingOn 0x05 State.reset).status.busy = true ∧
    ∀ off ∈ [0x00#8, 0x0C#8, 0x5C#8, 0xFC#8], off.toNat % 4 = 0 ∧ off ≠ 0x04#8 ∧ off ≠ 0x08#8 :=
  ⟨test_witness_inv_pending _, rfl, by decide⟩

theorem test_witness_accessWidths :
    ((16 : Nat) ≠ 32 ∨ (0x10#8).toNat % 4 ≠ 0) ∧ ((32 : Nat) ≠ 32 ∨ (0x11#8).toNat % 4 ≠ 0) ∧ (16 : Nat) ≠ 8 ∧
    State.reset.status.busy = false := by decide

/-- An unwritten byte under a host read and under each command that reads a span. -/
theorem test_witness_unwrittenRead :
    State.reset.status.busy = false ∧ State.reset.mem.byteAt (0xFFFF#16).toNat = none ∧
    [Instr.csumAddb, .csumBuf, .icmpDec, .ipv4Dec, .ipv6Dec, .rxParseV4, .rxParseV6].map
      (fun i => faultOf (exec i (atSource 0xFFF8 8 []))) = List.replicate 7 (some .uninitRead) ∧
    [Instr.echoBuildV4, .echoBuildV6].map (fun i => faultOf (exec i (atFrame 0xFFF6 2 0 0 []))) =
      List.replicate 2 (some .uninitRead) := by decide

theorem test_witness_writtenStays :
    ∃ t, step (pendingOn 0x10 (atSource 0 0 (written 0 [1]))) = .next t ∧
      (∀ rest, (pendingOn 0x10 (atSource 0 0 (written 0 [1]))).host.agenda ≠ .reset :: rest) ∧
      ((pendingOn 0x10 (atSource 0 0 (written 0 [1]))).mem.byteAt 0).isSome = true :=
  ⟨_, rfl, fun _ h => (by cases h), rfl⟩

/-- Platforms whose spaces touch, in both orders. -/
theorem test_witness_platforms :
    ((0 : Nat) + 256 ≤ 256 ∨ (256 : Nat) + 65536 ≤ 0) ∧
    targetOf { regBase := 0, bufBase := 256 } 256 = some (.buf 0) ∧
    targetOf { regBase := 65536, bufBase := 0 } 65536 = some (.reg 0) ∧
    targetOf { regBase := 65536, bufBase := 0 } 65535 = some (.buf 0xFFFF) ∧
    targetOf { regBase := 0, bufBase := 256 } (256 + 65536) = none := by decide

end Sys2Proof.Tests
end

/-! The sum flags, the stage flag and the register access types (10_state.md R22, R29, R30, R31). -/

namespace Sys2Proof.Machine

open Sys2Proof.Safety

/-! ### Completions -/

/-- Everything a completed command can be: the commit of its rule, or a failure with one of its own errors. -/
theorem exec_cases {i : Instr} {s t : State} (h : exec i s = .next t) :
    (∃ u, ruleOf i s = .ok u ∧ Commit i s u ∧ t = u.complete 0#4) ∨
      ∃ e g, ruleOf i s = .error (.raised e g) ∧ t = s.fail e g ∧ e.toCode.toNat ∈ mayRaise i ∧
        (g = true → i = .rxParseV4 ∧ e = .truncatedInput ∧ ∃ u, ruleOf .ipv4Dec s = .ok u) := by
  rw [exec_eq_runCommand] at h
  cases ruleOutcome i s with
  | raises e g hr hm hg => rw [hr] at h; cases h; exact .inr ⟨e, g, hr, rfl, hm, hg⟩
  | faults hr => rw [hr] at h; cases h
  | commits u hr hc => rw [hr] at h; cases h; exact .inl ⟨u, hr, hc, rfl⟩

/-- ERR is `NONE` only after a commit. -/
theorem exec_success {i : Instr} {s t : State} (h : exec i s = .next t) (he : t.status.err = 0#4) :
    ∃ u, ruleOf i s = .ok u ∧ t = u.complete 0#4 := by
  rcases (exec_next_iff i s t).mp h with hu | ⟨e, g, _, rfl⟩
  · exact hu
  · exact absurd he (toCode_ne_zero e)

/-- An illegal word fails outside the ICMP stage (30_encoding.md R85). -/
theorem blockStep_of_illegal {s t : State} {e : DecodeReject} (hd : decode s.cmd = .error e)
    (h : blockStep s = .next t) : t = s.fail .illegalCommand false := by
  rcases blockStep_cases h with ⟨i, hi, _⟩ | ⟨_, _, ht⟩
  · rw [hd] at hi; cases hi
  · exact ht

/-! ### The sum flags -/

/-- No host access touches CZ or OVF. -/
theorem hostAccess_keeps_sumFlags {a : HostAccess} {s t : State} (h : hostAccess a s = .next t) :
    t.status.cz = s.status.cz ∧ t.status.ovf = s.status.ovf := by
  rcases hostAccess_cases h with ⟨_, _, _, _, ⟨_, _, rfl⟩ | ⟨_, rfl⟩⟩ | ⟨off, _, v, _, _, _, rfl⟩ |
    ⟨_, _, _, _, ⟨_, rfl⟩ | ⟨_, _, _, rfl⟩⟩ | ⟨_, _, _, _, _, _, rfl⟩
  case inr.inl => exact (writeOffset_keeps s off v).2
  all_goals exact ⟨rfl, rfl⟩

/-- Settles O44: a commit of one of the four commands writes CZ with CSUM_RES, everything else but reset keeps it. -/
theorem zeroFlagFollowsTheResult : Obligations.ZeroFlagFollowsTheResult := by
  refine ⟨fun i s t h => ?_, fun s t e hd h => ?_, fun a s t h => (hostAccess_keeps_sumFlags h).1, fun _ => rfl⟩
  · rcases exec_cases h with ⟨u, _, hc, rfl⟩ | ⟨e, g, _, rfl, _, _⟩
    · exact ⟨fun hi _ => hc.cz hi, fun hi => (hc.res (hi.resolve_right (fun hne => hne rfl))).2⟩
    · exact ⟨fun _ he => absurd he (toCode_ne_zero e), fun _ => rfl⟩
  · rw [blockStep_of_illegal hd h, State.fail_status]

/-- The wrap outcome of the words of a byte sequence. -/
theorem accAdd_wordsOf_snd (acc : Word) (bs : List Byte) :
    (accAdd acc (wordsOf bs)).2 = decide (2 ^ 32 ≤ acc.toNat + wordSum bs) := by
  rw [accAdd_snd, sum_wordsOf]

/-- A commit of `CSUM_BUF` sums the bytes the source span holds. -/
theorem csumBufRule_ok {s u : State} (h : csumBufRule s = .ok u) {bytes : List Byte}
    (hl : bytes.length = s.opnd.srcLen.toNat) (hb : spanHolds s.mem s.opnd.srcAddr.toNat bytes) :
    u = s.oneShot (wordsOf bytes) := by
  rcases csumBufRule_cases s with ⟨_, hr⟩ | ⟨_, ⟨_, hr⟩ | ⟨bs, hl', hb', hr⟩⟩
  · rw [hr] at h; cases h
  · rw [hr] at h; cases h
  · rw [hr, spanHolds_unique (hl'.trans hl.symm) hb' hb] at h; cases h; rfl

/-- A commit of `CSUM_ADDB` adds the bytes the source span holds. -/
theorem csumAddbRule_ok {s u : State} (h : csumAddbRule s = .ok u) {bytes : List Byte}
    (hl : bytes.length = s.opnd.srcLen.toNat) (hb : spanHolds s.mem s.opnd.srcAddr.toNat bytes) :
    u = s.addWords (wordsOf bytes) := by
  rcases csumAddbRule_cases s with ⟨_, hr⟩ | ⟨_, ⟨_, hr⟩ | ⟨bs, hl', hb', hr⟩⟩
  · rw [hr] at h; cases h
  · rw [hr] at h; cases h
  · rw [hr, spanHolds_unique (hl'.trans hl.symm) hb' hb] at h; cases h; rfl

/-- A commit of `ECHO_BUILD` sets OVF to whether the request's own sum, from 0, wraps. -/
theorem echoBuildRule_ok_ovf {fam : Family} {s u : State} (h : echoBuildRule fam s = .ok u) {bytes : List Byte}
    (hl : bytes.length = s.opnd.bodyLen.toNat) (hb : spanHolds s.mem (s.opnd.dstAddr.toNat + 8) bytes) :
    u.status.ovf = decide (2 ^ 32 ≤
      (requestType fam).toNat * 256 + s.opnd.txIdent.toNat + s.opnd.txSeq.toNat + wordSum bytes) := by
  rcases echoBuildRule_cases fam s with ⟨_, hr⟩ | ⟨_, ⟨_, hr⟩ | ⟨bs, hl', hb', hr⟩⟩
  · rw [hr] at h; cases h
  · rw [hr] at h; cases h
  · rw [hr, spanHolds_unique (hl'.trans hl.symm) hb' hb] at h
    cases h
    simp only [State.withFrameLen_status, State.oneShot_status, accAdd_snd, sum_requestWords,
      BitVec.toNat_ofNat, Nat.zero_mod, Nat.zero_add]

/-- Settles O45: each writer of OVF from what its rule commits, everything else from what a completion keeps. -/
theorem overflowFlagIsSticky : Obligations.OverflowFlagIsSticky := by
  refine ⟨fun i s t h => ⟨?clr, ?buf, ?echo, ?addw, ?addb, ?keep⟩, fun s t e hd h => ?_,
    fun a s t h => (hostAccess_keeps_sumFlags h).2, fun _ => rfl⟩
  case clr => rintro rfl; cases h; rfl
  case buf =>
    rintro rfl he bytes hl hb
    obtain ⟨u, hu, rfl⟩ := exec_success h he
    rw [csumBufRule_ok hu hl hb]
    simp only [State.complete_status, State.oneShot_status, accAdd_wordsOf_snd, BitVec.toNat_ofNat, Nat.zero_mod,
      Nat.zero_add]
  case echo =>
    intro ty hi he bytes hl hb
    obtain ⟨u, hu, rfl⟩ := exec_success h he
    rcases hi with ⟨rfl, rfl⟩ | ⟨rfl, rfl⟩
    · exact echoBuildRule_ok_ovf hu hl hb
    · exact echoBuildRule_ok_ovf hu hl hb
  case addw =>
    rintro rfl
    cases h
    simp [accAdd_snd]
  case addb =>
    rintro rfl he bytes hl hb
    obtain ⟨u, hu, rfl⟩ := exec_success h he
    rw [csumAddbRule_ok hu hl hb]
    simp only [State.complete_status, State.addWords_status, accAdd_wordsOf_snd]
  case keep =>
    intro hi
    rcases exec_cases h with ⟨u, _, hc, rfl⟩ | ⟨e, g, _, rfl, _, _⟩
    · exact (hc.acc (hi.resolve_right (fun hne => hne rfl))).2
    · rfl
  · rw [blockStep_of_illegal hd h, State.fail_status]

/-! ### The stage flag -/

/-- Where the IPv4 stage alone succeeds, only the ICMP stage of `RX_PARSE` V4 can raise (44_chain_and_nop.md R181). -/
theorem rxParseV4Rule_raises_icmpStage {s u : State} (hu : ipv4DecRule s = .ok u) {e : BlockError} {g : Bool}
    (hr : rxParseV4Rule s = .error (.raised e g)) : g = true := by
  rw [ipv4DecRule_eq] at hu
  rw [rxParseV4Rule_eq] at hr
  by_cases hb : s.opnd.srcAddr.toNat + s.opnd.srcLen.toNat ≤ 65536
  · rw [if_pos hb] at hu hr
    cases hv : v4Fields s.mem s.opnd.srcAddr.toNat s.opnd.srcLen.toNat with
    | error e => rw [hv] at hu; cases hu
    | ok v =>
      simp only [hv] at hr
      rcases icmpFields_cases s.mem (s.opnd.srcAddr.toNat + hdrBytes v.ihl) (s.opnd.srcLen.toNat - hdrBytes v.ihl)
        true with ⟨_, hf⟩ | ⟨_, _, hf⟩ | ⟨_, _, _, _, _, _, _, _, _, _, hf⟩
      · rw [hf] at hr; cases hr; rfl
      · rw [hf] at hr; cases hr
      · rw [hf] at hr; cases hr
  · rw [if_neg hb] at hu; cases hu

/-- A host write at the offset of CMD that goes on is a command start (10_state.md R32). -/
theorem hostAccess_writeCmd {s t : State} {w : Word} (h : hostAccess (.regWrite 0x08#8 32 w) s = .next t) :
    t = (s.start w).replied .nothing := by
  rcases hostAccess_cases h with ⟨_, _, ha, _⟩ | ⟨_, _, _, ha, _, _, rfl⟩ | ⟨_, _, ha, _⟩ | ⟨_, _, _, ha, _⟩
  case inr.inl => cases ha; rfl
  all_goals cases ha

/-- Settles O46: a completion from ESTG 0 has ESTG 1 exactly where its rule raised in the ICMP stage. -/
theorem stageFlagNamesTheIcmpStage : Obligations.StageFlagNamesTheIcmpStage := by
  refine ⟨fun i s t hs h => ?_, fun s t e hs hd h => ?_, fun s t w h => ?_, fun _ => rfl⟩
  · rcases exec_cases h with ⟨u, _, hc, rfl⟩ | ⟨e, g, hr, rfl, _, hg⟩
    · have ht : u.status.estg = false := hc.estg.trans hs
      simp [ht]
    · simp only [State.fail_status, hs, Bool.false_or]
      constructor
      · intro hgt
        obtain ⟨hi, rfl, u, hu⟩ := hg hgt
        exact ⟨hi, rfl, _, (exec_next_iff _ _ _).mpr (.inl ⟨u, hu, rfl⟩), rfl⟩
      · rintro ⟨rfl, _, u, hu, hue⟩
        obtain ⟨v, hv, _⟩ := exec_success hu hue
        exact rxParseV4Rule_raises_icmpStage hv hr
  · rw [blockStep_of_illegal hd h]
    simp [hs]
  · rw [hostAccess_writeCmd h]
    rfl

/-! ### Register accesses -/

/-- A bit of a word, as a number. -/
theorem getLsbD_eq_decide (v : Word) (i : Nat) : v.getLsbD i = decide (v.toNat / 2 ^ i % 2 = 1) :=
  Nat.testBit_eq_decide_div_mod_eq

/-- A value cut to a field and read back zero-extended (10_state.md R22). -/
theorem toNat_setWidth_cut (v : Word) {w : Nat} (hw : w ≤ 32) :
    ((v.setWidth w).setWidth 32).toNat = v.toNat % 2 ^ w := by
  rw [BitVec.toNat_setWidth_of_le hw, BitVec.toNat_setWidth]

/-- A field read zero-extended stays below its width's power of two. -/
theorem toNat_setWidth_lt {w : Nat} (x : BitVec w) (hw : w ≤ 32) : (x.setWidth 32).toNat < 2 ^ w := by
  rw [BitVec.toNat_setWidth_of_le hw]; exact x.isLt

theorem statusValue_lt (st : Status) : statusValue st < 2 ^ 11 := by
  have := st.err.isLt
  have := st.busy.toNat_lt
  have := st.done.toNat_lt
  have := st.cz.toNat_lt
  have := st.ovf.toNat_lt
  have := st.estg.toNat_lt
  simp only [statusValue]
  omega

/-- A register reads below its width's power of two. -/
theorem readReg_lt (s : State) (r : Reg) : (readReg s r).toNat < 2 ^ r.width := by
  cases r
  case status => exact s.status.toWord_toNat ▸ statusValue_lt s.status
  case cmd | csumAcc | v4Src | v4Dst | v6Src0 | v6Src1 | v6Src2 | v6Src3 | v6Dst0 | v6Dst1 | v6Dst2 | v6Dst3 =>
    exact BitVec.isLt _
  all_goals exact toNat_setWidth_lt _ (by decide)

/-- A write of an RW register changes only `CTRL` and the operand registers. -/
theorem writeReg_rw_frame {r : Reg} (hr : r.access = .rw) (s : State) (v : Word) :
    ∃ e o, writeReg s v r = { s with irqEn := e, opnd := o } := by
  cases r <;> cases hr <;> exact ⟨_, _, rfl⟩

/-- A register that is not RW reads neither `CTRL` nor an operand register. -/
theorem readReg_of_not_rw {q : Reg} (hq : q.access ≠ .rw) (s : State) (e : Bool) (o : OperandRegs) :
    readReg { s with irqEn := e, opnd := o } q = readReg s q := by
  cases q <;> simp [Reg.access, readReg] at hq ⊢

/-- A written RW register reads back the value cut to its width (10_state.md R22). -/
theorem readReg_writeReg_same {r : Reg} (hr : r.access = .rw) (s : State) (v : Word) :
    (readReg (writeReg s v r) r).toNat = v.toNat % 2 ^ r.width := by
  cases r <;> cases hr
  case ctrl =>
    change ((bitOf (v.getLsbD 0)).setWidth 32).toNat = v.toNat % 2
    rw [getLsbD_eq_decide]
    rcases Nat.mod_two_eq_zero_or_one v.toNat with h | h <;> simp [bitOf, h]
  all_goals exact toNat_setWidth_cut v (by decide)

/-- Among the RW registers a write reaches the one it names alone. -/
theorem readReg_writeReg_rw {r q : Reg} (hr : r.access = .rw) (hq : q.access = .rw) (s : State) (v : Word) :
    readReg (writeReg s v r) q = if q = r then readReg (writeReg s v r) r else readReg s q := by
  cases r <;> cases hr <;> cases q <;> cases hq <;> rfl

theorem readReg_writeReg_ne {r q : Reg} (hr : r.access = .rw) (hq : q ≠ r) (s : State) (v : Word) :
    readReg (writeReg s v r) q = readReg s q := by
  by_cases hrw : q.access = .rw
  · rw [readReg_writeReg_rw hr hrw, if_neg hq]
  · obtain ⟨e, o, hw⟩ := writeReg_rw_frame hr s v
    rw [hw, readReg_of_not_rw hrw]

/-- What a host access returned is held outside the registers (log 3). -/
@[simp] theorem readReg_replied (s : State) (x : Reply) (q : Reg) : readReg (s.replied x) q = readReg s q := by
  cases q <;> rfl

theorem writeReg_of_ro {r : Reg} (hr : r.access = .ro) (s : State) (v : Word) : writeReg s v r = s := by
  cases r <;> cases hr <;> rfl

/-- The written-out field writes are what the register map writes at the RW registers. -/
theorem fieldWrites_eq (s : State) (v : Word) :
    fieldWrites s v = (Reg.all.filter (·.access = .rw)).map fun r => (r.offset, writeReg s v r) := by
  have hctrl : decide (v.toNat % 2 = 1) = v.getLsbD 0 := by rw [getLsbD_eq_decide]; simp
  simp only [fieldWrites, BitVec.ofNat_toNat, hctrl]
  rfl

/-- A write of STATUS clears DONE when bit 1 of the word is set (10_state.md R22, R27). -/
theorem ackDone_eq (s : State) (v : Word) :
    s.ackDone v = { s with
      status := { s.status with done := if v.toNat / 2 % 2 = 1 then false else s.status.done } } := by
  have hbit : v.getLsbD 1 = decide (v.toNat / 2 % 2 = 1) := getLsbD_eq_decide v 1
  rw [State.ackDone, hbit]
  by_cases h : v.toNat / 2 % 2 = 1 <;> simp [h]

theorem access_statusW1c_iff (r : Reg) : r.access = .statusW1c ↔ r = .status := by
  cases r <;> decide

/-- Settles O52: each access type from what `writeReg` and `readReg` do at the registers of that type. -/
theorem registerAccessTypes : Obligations.RegisterAccessTypes := by
  refine ⟨fun s v hb p hp => ?_, fun s r v hb => ⟨fun hr => ?_, fun hr => ?_, fun hr => ?_, ?_, readReg_lt s r⟩⟩
  · rw [fieldWrites_eq] at hp
    obtain ⟨r, hr, rfl⟩ := List.mem_map.mp hp
    obtain ⟨e, o, hw⟩ := writeReg_rw_frame (by simpa using (List.mem_filter.mp hr).2) s v
    rw [hostRegWrite_idle s r v hb, hw]
    rfl
  · refine ⟨_, hostRegWrite_idle s r v hb, ?_, fun q hq => ?_, ?_⟩
    · rw [readReg_replied, readReg_writeReg_same hr]
    · rw [readReg_replied, readReg_writeReg_ne hr hq]
    · obtain ⟨e, o, hw⟩ := writeReg_rw_frame hr s v
      rw [hw]
      exact ⟨rfl, rfl⟩
  · rw [hostRegWrite_idle s r v hb, writeReg_of_ro hr]
    rfl
  · obtain rfl := (access_statusW1c_iff r).mp hr
    rw [hostRegWrite_idle s .status v hb, writeReg, ackDone_eq]
    rfl
  · exact hostRegRead_idle s r hb

end Sys2Proof.Machine

/-! The bounds check and the unwritten cell (20_memory.md R62, R68). -/

namespace Sys2Proof.Machine

open Sys2Proof.Safety

/-! ### The bounds check -/

theorem toCode_eq_five_iff (e : BlockError) : e.toCode = 5#4 ↔ e = .bounds := by cases e <;> decide

/-- A rule, or a part of one, ends with the error `BOUNDS`. -/
def RaisesBounds {α : Type} (r : Except Stop α) : Prop :=
  ∃ g, r = .error (.raised .bounds g)

theorem raisesBounds_raised {α : Type} (e : BlockError) (g : Bool) :
    RaisesBounds (.error (.raised e g) : Except Stop α) ↔ e = .bounds := by
  simp [RaisesBounds]

theorem not_raisesBounds_fault {α : Type} (f : Fault) :
    ¬RaisesBounds (.error (.fault f) : Except Stop α) := by
  simp [RaisesBounds]

theorem not_raisesBounds_ok {α : Type} (x : α) : ¬RaisesBounds (.ok x : Except Stop α) := by
  simp [RaisesBounds]

theorem raisesBounds_map {α β : Type} (f : α → β) (r : Except Stop α) :
    RaisesBounds (r.map f) ↔ RaisesBounds r := by
  cases r <;> simp [RaisesBounds, Except.map]

/-- The reads of an ICMP header check no span (41_icmp_codec.md R124). -/
theorem icmpFields_not_raisesBounds (m : Memory) (a n : Nat) (g : Bool) : ¬RaisesBounds (icmpFields m a n g) := by
  rcases icmpFields_outcomes m a n g with ⟨_, he⟩ | ⟨_, _, he⟩ | ⟨_, _, _, he, _⟩
  · rw [he, raisesBounds_raised]; decide
  · rw [he]; exact not_raisesBounds_fault _
  · rw [he]; exact not_raisesBounds_ok _

/-- The checks and reads of an IPv4 header check no span (42_ipv4_decoder.md R141). -/
theorem v4Fields_not_raisesBounds (m : Memory) (a n : Nat) : ¬RaisesBounds (v4Fields m a n) := by
  rcases v4Fields_outcomes m a n with ⟨e, he, hm, _⟩ | ⟨he, _⟩ | ⟨_, _, he, _⟩
  · rw [he, raisesBounds_raised]; rintro rfl; revert hm; decide
  · rw [he]; exact not_raisesBounds_fault _
  · rw [he]; exact not_raisesBounds_ok _

/-- The checks and reads of an IPv6 header check no span (43_ipv6_decoder.md R161). -/
theorem v6Fields_not_raisesBounds (m : Memory) (a n : Nat) : ¬RaisesBounds (v6Fields m a n) := by
  rcases v6Fields_outcomes m a n with ⟨e, he, hm, _⟩ | ⟨he, _⟩ | ⟨_, he, _⟩
  · rw [he, raisesBounds_raised]; rintro rfl; revert hm; decide
  · rw [he]; exact not_raisesBounds_fault _
  · rw [he]; exact not_raisesBounds_ok _

/-- The exact end of the span a command checks, 0 where it checks none (20_memory.md R68). -/
def checkedEnd (i : Instr) (s : State) : Nat :=
  match i with
  | .csumAddb | .csumBuf | .icmpDec | .ipv4Dec | .ipv6Dec | .rxParseV4 | .rxParseV6 =>
    s.opnd.srcAddr.toNat + s.opnd.srcLen.toNat
  | .icmpEnc => s.opnd.dstAddr.toNat + 8
  | .echoBuildV4 | .echoBuildV6 => s.opnd.dstAddr.toNat + (8 + s.opnd.bodyLen.toNat)
  | .nop | .csumClr | .csumAddw | .csumFin => 0

/-- A rule that raises `BOUNDS`, outside the ICMP stage, past an end of 65536 and nowhere else. -/
def ChecksEnd (e : Nat) (rule : Except Stop State) : Prop :=
  (65536 < e ∧ rule = .error (.raised .bounds false)) ∨ (e ≤ 65536 ∧ ¬RaisesBounds rule)

/-- A decoder's rule checks its span before it comes to its fields. -/
theorem checksEnd_ite {e : Nat} {body : Except Stop State} (h : ¬RaisesBounds body) :
    ChecksEnd e (if e ≤ 65536 then body else .error (.raised .bounds false)) := by
  by_cases he : e ≤ 65536
  · exact .inr ⟨he, by rwa [if_pos he]⟩
  · exact .inl ⟨by omega, if_neg he⟩

theorem not_spanWritten_of_unwritten {m : Memory} {a n x : Nat} (hs : inSpan a n x) (hx : m.byteAt x = none) :
    ¬spanWritten m a n := by
  intro h
  have := (spanWritten_iff m a n).mp h x hs
  rw [hx] at this
  cases this

section

/-! `CSUM_ADDB`, `CSUM_BUF` and `ECHO_BUILD` check a span and read all of it: what their rules can answer has one shape
(20_memory.md R67, R68). -/

variable {e a n : Nat} {m : Memory} {rule : Except Stop State} {commit : List Byte → State}
  (h : (65536 < e ∧ rule = .error (.raised .bounds false)) ∨
    (e ≤ 65536 ∧ ((¬spanWritten m a n ∧ rule = .error (.fault .uninitRead)) ∨
      ∃ bs : List Byte, bs.length = n ∧ spanHolds m a bs ∧ rule = .ok (commit bs))))

include h

theorem checksEnd_of_wholeSpan : ChecksEnd e rule := by
  rcases h with h | ⟨he, ⟨_, hr⟩ | ⟨_, _, _, hr⟩⟩
  · exact .inl h
  · exact .inr ⟨he, hr ▸ not_raisesBounds_fault _⟩
  · exact .inr ⟨he, hr ▸ not_raisesBounds_ok _⟩

theorem fault_of_wholeSpan_unwritten (he : e ≤ 65536) {x : Nat} (hs : inSpan a n x) (hx : m.byteAt x = none) :
    rule = .error (.fault .uninitRead) := by
  rcases h with ⟨_, _⟩ | ⟨_, ⟨_, hr⟩ | ⟨bs, hl, hb, _⟩⟩
  · omega
  · exact hr
  · exact absurd (spanWritten_of_holds_length hl hb) (not_spanWritten_of_unwritten hs hx)

end

theorem icmpEncRule_checksEnd (s : State) : ChecksEnd (s.opnd.dstAddr.toNat + 8) (icmpEncRule s) := by
  rcases icmpEncRule_cases s with h | ⟨he, hr⟩
  · exact .inl h
  · exact .inr ⟨he, hr ▸ not_raisesBounds_ok _⟩

theorem icmpDecRule_checksEnd (s : State) :
    ChecksEnd (s.opnd.srcAddr.toNat + s.opnd.srcLen.toNat) (icmpDecRule s) := by
  rw [icmpDecRule_eq]
  exact checksEnd_ite ((raisesBounds_map _ _).not.mpr (icmpFields_not_raisesBounds _ _ _ _))

theorem ipv4DecRule_checksEnd (s : State) :
    ChecksEnd (s.opnd.srcAddr.toNat + s.opnd.srcLen.toNat) (ipv4DecRule s) := by
  rw [ipv4DecRule_eq]
  exact checksEnd_ite ((raisesBounds_map _ _).not.mpr (v4Fields_not_raisesBounds _ _ _))

theorem ipv6DecRule_checksEnd (s : State) :
    ChecksEnd (s.opnd.srcAddr.toNat + s.opnd.srcLen.toNat) (ipv6DecRule s) := by
  rw [ipv6DecRule_eq]
  exact checksEnd_ite ((raisesBounds_map _ _).not.mpr (v6Fields_not_raisesBounds _ _ _))

theorem rxParseV4Rule_checksEnd (s : State) :
    ChecksEnd (s.opnd.srcAddr.toNat + s.opnd.srcLen.toNat) (rxParseV4Rule s) := by
  rw [rxParseV4Rule_eq]
  refine checksEnd_ite ?_
  have hv := v4Fields_not_raisesBounds s.mem s.opnd.srcAddr.toNat s.opnd.srcLen.toNat
  cases hr : v4Fields s.mem s.opnd.srcAddr.toNat s.opnd.srcLen.toNat with
  | error e =>
    rintro ⟨g, he⟩
    cases he
    exact hv ⟨g, hr⟩
  | ok v => exact (raisesBounds_map _ _).not.mpr (icmpFields_not_raisesBounds _ _ _ _)

/-- Every command's rule raises `BOUNDS` exactly where its checked span leaves the buffer (20_memory.md R68). -/
theorem ruleOf_checksEnd (i : Instr) (s : State) : ChecksEnd (checkedEnd i s) (ruleOf i s) := by
  cases i
  case nop | csumClr | csumAddw | csumFin => exact .inr ⟨Nat.zero_le _, not_raisesBounds_ok _⟩
  case csumAddb => exact checksEnd_of_wholeSpan (csumAddbRule_cases s)
  case csumBuf => exact checksEnd_of_wholeSpan (csumBufRule_cases s)
  case icmpEnc => exact icmpEncRule_checksEnd s
  case echoBuildV4 => exact checksEnd_of_wholeSpan (echoBuildRule_cases .v4 s)
  case echoBuildV6 => exact checksEnd_of_wholeSpan (echoBuildRule_cases .v6 s)
  case icmpDec | rxParseV6 => exact icmpDecRule_checksEnd s
  case ipv4Dec => exact ipv4DecRule_checksEnd s
  case ipv6Dec => exact ipv6DecRule_checksEnd s
  case rxParseV4 => exact rxParseV4Rule_checksEnd s

/-- A command whose checked span leaves the buffer completes with `BOUNDS` and nothing else. -/
theorem exec_of_checkedEnd_gt {i : Instr} {s : State} (h : 65536 < checkedEnd i s) :
    exec i s = .next { s with status := completed s.status 5#4 } := by
  rcases ruleOf_checksEnd i s with ⟨_, hr⟩ | ⟨he, _⟩
  · rw [exec_eq_runCommand, hr, runCommand_raised, fail_false_eq]; rfl
  · omega

/-- A command whose checked span lies in the buffer never completes with `BOUNDS`. -/
theorem err_ne_bounds_of_checkedEnd_le {i : Instr} {s t : State} (h : checkedEnd i s ≤ 65536)
    (ht : exec i s = .next t) : t.status.err ≠ 5#4 := by
  rcases ruleOf_checksEnd i s with ⟨he, _⟩ | ⟨_, hn⟩
  · omega
  · rcases (exec_next_iff i s t).mp ht with ⟨u, _, rfl⟩ | ⟨e, g, hr, rfl⟩
    · exact (by decide : (0#4 : BitVec 4) ≠ 5#4)
    · intro he
      obtain rfl := (toCode_eq_five_iff e).mp he
      exact hn ⟨g, hr⟩

/-- The three lists of commands R68 names, with their sums, are the commands that check a span. -/
theorem checkedEnd_gt_iff (i : Instr) (s : State) :
    65536 < checkedEnd i s ↔
      (i ∈ [Instr.csumAddb, .csumBuf, .icmpDec, .ipv4Dec, .ipv6Dec, .rxParseV4, .rxParseV6] ∧
        65536 < s.opnd.srcAddr.toNat + s.opnd.srcLen.toNat) ∨
      (i = .icmpEnc ∧ 65536 < s.opnd.dstAddr.toNat + 8) ∨
      (i ∈ [Instr.echoBuildV4, .echoBuildV6] ∧ 65536 < s.opnd.dstAddr.toNat + (8 + s.opnd.bodyLen.toNat)) := by
  cases i <;> simp [checkedEnd]

/-- Settles O40: the end each command checks decides whether its rule raises `BOUNDS`. -/
theorem boundsExactlyWhenASpanLeavesTheBuffer : Obligations.BoundsExactlyWhenASpanLeavesTheBuffer := by
  intro i s leaves
  have hl : 65536 < checkedEnd i s ↔ leaves := checkedEnd_gt_iff i s
  refine ⟨fun h => exec_of_checkedEnd_gt (hl.mpr h), fun h t ht => ?_⟩
  exact err_ne_bounds_of_checkedEnd_le (Nat.not_lt.mp (hl.not.mpr h)) ht

/-! ### Reads of unwritten cells -/

theorem hostBufRead_of_unwritten {s : State} {a : Half} (hb : s.status.busy = false)
    (hx : s.mem.byteAt a.toNat = none) : hostAccess (.bufRead a 8) s = .fault .uninitRead := by
  simp [hostAccess, hostBufRead, bufAccessOk, hb, hx]

/-- The IPv4 stage stops on an unwritten byte among those it reads: the first, and the fixed 20 its checks reach. -/
theorem v4Fields_of_unwritten {m : Memory} {a n x : Nat} (hn : 1 ≤ n)
    (hr : x = a ∨ (v4Reaches m a n ∧ inSpan a 20 x)) (hx : m.byteAt x = none) :
    v4Fields m a n = .error (.fault .uninitRead) := by
  rcases v4Fields_outcomes m a n with ⟨_, _, _, h0 | ⟨_, b, hb, hnr⟩, _⟩ | ⟨he, _⟩ | ⟨v, b, _, hv⟩
  · omega
  · rcases hr with rfl | ⟨hr, _⟩
    · rw [hx] at hb; cases hb
    · exact absurd hr hnr
  · exact he
  · have hs : inSpan a 20 x := by
      rcases hr with rfl | ⟨_, hs⟩
      · exact ⟨by omega, by omega⟩
      · exact hs
    exact absurd hv.written (not_spanWritten_of_unwritten hs hx)

/-- The IPv6 rule stops on an unwritten byte among those it reads: the first, and the fixed 40 its checks reach. -/
theorem v6Fields_of_unwritten {m : Memory} {a n x : Nat} (hn : 1 ≤ n)
    (hr : x = a ∨ (v6Reaches m a n ∧ inSpan a 40 x)) (hx : m.byteAt x = none) :
    v6Fields m a n = .error (.fault .uninitRead) := by
  rcases v6Fields_outcomes m a n with ⟨_, _, _, h0 | ⟨_, b, hb, hnr⟩⟩ | ⟨he, _⟩ | ⟨_, _, hw, _⟩
  · omega
  · rcases hr with rfl | ⟨hr, _⟩
    · rw [hx] at hb; cases hb
    · exact absurd hr hnr
  · exact he
  · have hs : inSpan a 40 x := by
      rcases hr with rfl | ⟨_, hs⟩
      · exact ⟨by omega, by omega⟩
      · exact hs
    exact absurd hw (not_spanWritten_of_unwritten hs hx)

/-- The V4 chain ends as its IPv4 stage does where that stage does not succeed (44_chain_and_nop.md R181). -/
theorem rxParseV4Rule_of_v4Fields_error {s : State} {e : Stop}
    (hb : s.opnd.srcAddr.toNat + s.opnd.srcLen.toNat ≤ 65536)
    (hv : v4Fields s.mem s.opnd.srcAddr.toNat s.opnd.srcLen.toNat = .error e) : rxParseV4Rule s = .error e := by
  rw [rxParseV4Rule_eq, if_pos hb, hv]

/-- The V4 chain past its IPv4 stage's checks stops on an unwritten byte of the ICMP header (44_chain_and_nop.md
R181). -/
theorem rxParseV4Rule_of_unwritten_icmp {s : State} {x : Nat}
    (hb : s.opnd.srcAddr.toNat + s.opnd.srcLen.toNat ≤ 65536)
    (hr : v4Reaches s.mem s.opnd.srcAddr.toNat s.opnd.srcLen.toNat)
    (hl : v4HdrLen s.mem s.opnd.srcAddr.toNat + 8 ≤ s.opnd.srcLen.toNat)
    (hs : inSpan (s.opnd.srcAddr.toNat + v4HdrLen s.mem s.opnd.srcAddr.toNat) 8 x)
    (hx : s.mem.byteAt x = none) : rxParseV4Rule s = .error (.fault .uninitRead) := by
  rcases v4Fields_outcomes s.mem s.opnd.srcAddr.toNat s.opnd.srcLen.toNat with
    ⟨_, _, _, h0 | ⟨_, _, _, hnr⟩, _⟩ | ⟨he, _⟩ | ⟨v, b, he, hv⟩
  · omega
  · exact absurd hr hnr
  · exact rxParseV4Rule_of_v4Fields_error hb he
  · have hlen : v4HdrLen s.mem s.opnd.srcAddr.toNat = hdrBytes v.ihl := (v4HdrLen_of_some hv.first).trans hv.hdr.symm
    rw [hlen] at hl hs
    have h8 : 8 ≤ s.opnd.srcLen.toNat - hdrBytes v.ihl := by omega
    rw [rxParseV4Rule_eq, if_pos hb]
    simp only [he, icmpFields_of_unwritten h8 true (not_spanWritten_of_unwritten hs hx), Except.map]

/-- `ICMP_DEC` and `RX_PARSE` V6 stop on an unwritten byte of the ICMP header. -/
theorem icmpDecRule_of_unwritten {s : State} {x : Nat} (hb : s.opnd.srcAddr.toNat + s.opnd.srcLen.toNat ≤ 65536)
    (h8 : 8 ≤ s.opnd.srcLen.toNat) (hs : inSpan s.opnd.srcAddr.toNat 8 x) (hx : s.mem.byteAt x = none) :
    icmpDecRule s = .error (.fault .uninitRead) := by
  rw [icmpDecRule_eq, if_pos hb, icmpFields_of_unwritten h8 false (not_spanWritten_of_unwritten hs hx)]
  rfl

/-- Every command's rule stops on an unwritten byte of the command's read set (20_memory.md R62, R67). -/
theorem ruleOf_of_unwritten {i : Instr} {s : State} {x : Nat} (hr : readsByte i s x) (hx : s.mem.byteAt x = none) :
    ruleOf i s = .error (.fault .uninitRead) := by
  cases i
  case nop | csumClr | csumAddw | csumFin | icmpEnc => exact hr.2.elim
  case csumAddb => exact fault_of_wholeSpan_unwritten (csumAddbRule_cases s) hr.1 hr.2 hx
  case csumBuf => exact fault_of_wholeSpan_unwritten (csumBufRule_cases s) hr.1 hr.2 hx
  case echoBuildV4 =>
    obtain ⟨hb, hs⟩ := hr
    exact fault_of_wholeSpan_unwritten (echoBuildRule_cases .v4 s) (by omega) hs hx
  case echoBuildV6 =>
    obtain ⟨hb, hs⟩ := hr
    exact fault_of_wholeSpan_unwritten (echoBuildRule_cases .v6 s) (by omega) hs hx
  case icmpDec | rxParseV6 =>
    obtain ⟨hb, h8, hs⟩ := hr
    exact icmpDecRule_of_unwritten hb h8 hs hx
  case ipv4Dec =>
    obtain ⟨hb, hn, hs⟩ := hr
    rw [ruleOf, ipv4DecRule_eq, if_pos hb, v4Fields_of_unwritten hn hs hx]
    rfl
  case ipv6Dec =>
    obtain ⟨hb, hn, hs⟩ := hr
    rw [ruleOf, ipv6DecRule_eq, if_pos hb, v6Fields_of_unwritten hn hs hx]
    rfl
  case rxParseV4 =>
    obtain ⟨hb, hn, rfl | ⟨hv, hs | ⟨hl, hs⟩⟩⟩ := hr
    · exact rxParseV4Rule_of_v4Fields_error hb (v4Fields_of_unwritten hn (.inl rfl) hx)
    · exact rxParseV4Rule_of_v4Fields_error hb (v4Fields_of_unwritten hn (.inr ⟨hv, hs⟩) hx)
    · exact rxParseV4Rule_of_unwritten_icmp hb hv hl hs hx

/-- Settles O58: the host's read by its own rule, a command's read by what its rule answers. -/
theorem unwrittenReadIsAFault : Obligations.UnwrittenReadIsAFault :=
  ⟨fun _ _ hb hx => hostBufRead_of_unwritten hb hx,
    fun s i _ hr hx => (exec_fault_iff i s _).mpr (ruleOf_of_unwritten hr hx)⟩

end Sys2Proof.Machine

/-! The checksum accumulator commands (40_checksum.md R101, R102, R103, R105, R106). -/

namespace Sys2Proof.Machine

open Sys2Proof.Safety

/-! ### Rules that read a whole span -/

section

/-! What a rule that checks a span and reads all of it answers in its two remaining cases: a span with an unwritten
byte, and a span that holds given bytes (20_memory.md R62, R68). The bounds case is `exec_of_checkedEnd_gt`. -/

variable {e a n : Nat} {m : Memory} {rule : Except Stop State} {commit : List Byte → State}
  (h : (65536 < e ∧ rule = .error (.raised .bounds false)) ∨
    (e ≤ 65536 ∧ ((¬spanWritten m a n ∧ rule = .error (.fault .uninitRead)) ∨
      ∃ bs : List Byte, bs.length = n ∧ spanHolds m a bs ∧ rule = .ok (commit bs))))
  (he : e ≤ 65536)

include h he

theorem wholeSpan_of_not_spanWritten (hw : ¬spanWritten m a n) : rule = .error (.fault .uninitRead) := by
  rcases h with ⟨_, _⟩ | ⟨_, ⟨_, hr⟩ | ⟨bs, hl, hb, _⟩⟩
  · omega
  · exact hr
  · exact absurd (spanWritten_of_holds_length hl hb) hw

theorem wholeSpan_of_holds {bytes : List Byte} (hl : bytes.length = n) (hb : spanHolds m a bytes) :
    rule = .ok (commit bytes) := by
  rcases h with ⟨_, _⟩ | ⟨_, ⟨hw, _⟩ | ⟨bs, hl', hb', hr⟩⟩
  · omega
  · exact absurd (spanWritten_of_holds_length hl hb) hw
  · rw [hr, spanHolds_unique (hl'.trans hl.symm) hb' hb]

end

/-! ### The accumulator commands -/

/-- Words added to the accumulator, in closed form (40_checksum.md R100). -/
theorem State.addWords_eq (s : State) {ws : List Half} {n : Nat} (hs : (ws.map BitVec.toNat).sum = n) :
    s.addWords ws = { s with
      csumAcc := BitVec.ofNat 32 (s.csumAcc.toNat + n)
      status := { s.status with ovf := s.status.ovf || decide (2 ^ 32 ≤ s.csumAcc.toNat + n) } } := by
  simp only [State.addWords, State.withAccumulator, accAdd_fst, accAdd_snd, hs]

/-- The word sum of bytes inside the buffer fits the accumulator. -/
theorem wordSum_lt_of_length_le {bs : List Byte} (h : bs.length ≤ 65536) : wordSum bs < 2 ^ 32 := by
  have := wordSum_le bs
  omega

/-- Settles O19: the bounds case from the checked end, the other two from what a rule that reads a whole span answers,
with the words added in closed form. -/
theorem csumAddbAddsTheSpan : Obligations.CsumAddbAddsTheSpan := by
  refine ⟨rfl, fun s => ?_⟩
  intro a n
  refine ⟨exec_of_checkedEnd_gt (i := .csumAddb), fun bytes he hl hb => ?_, fun he hw => ?_⟩
  · have hr : ruleOf .csumAddb s = .ok (s.addWords (wordsOf bytes)) :=
      wholeSpan_of_holds (csumAddbRule_cases s) he hl hb
    rw [exec_eq_runCommand, hr, runCommand_ok, State.addWords_eq s (sum_wordsOf bytes)]
    rfl
  · exact (exec_fault_iff .csumAddb s _).mpr (wholeSpan_of_not_spanWritten (csumAddbRule_cases s) he hw)

/-- Settles O20: the finished checksum of the accumulator is that of its value as a number. -/
theorem csumFinFinishesTheAccumulator : Obligations.CsumFinFinishesTheAccumulator := by
  refine ⟨rfl, fun s => ?_⟩
  have hr : ruleOf .csumFin s = .ok (s.withResult (checksumOf s.csumAcc.toNat)) := by
    rw [← cks_eq_checksumOf]; rfl
  rw [exec_eq_runCommand, hr, runCommand_ok, State.withResult, czOf_eq]
  rfl

/-- Settles O21: as for `CSUM_ADDB`, with the sum from 0 finished at once; it cannot wrap, since a span in the buffer sums
to less than 2^32. -/
theorem csumBufChecksumsTheSpan : Obligations.CsumBufChecksumsTheSpan := by
  refine ⟨rfl, fun s => ?_⟩
  intro a n
  refine ⟨exec_of_checkedEnd_gt (i := .csumBuf), fun bytes he hl hb => ?_, fun he hw => ?_⟩
  · have hr : ruleOf .csumBuf s = .ok (s.oneShot (wordsOf bytes)) :=
      wholeSpan_of_holds (csumBufRule_cases s) he hl hb
    have hlt : wordSum bytes < 2 ^ 32 := wordSum_lt_of_length_le (by omega)
    rw [exec_eq_runCommand, hr, runCommand_ok, State.oneShot_eq s (sum_wordsOf bytes) hlt]
    rfl
  · exact (exec_fault_iff .csumBuf s _).mpr (wholeSpan_of_not_spanWritten (csumBufRule_cases s) he hw)

/-- Settles O17: the cleared accumulator is committed from every state, and a completion writes ERR, DONE and BUSY alone. -/
theorem csumClrClearsTheAccumulator : Obligations.CsumClrClearsTheAccumulator := by
  refine ⟨rfl, fun s => ?_⟩
  rw [exec_eq_runCommand, ruleOf, runCommand_ok, complete_eq]
  rfl

/-- Settles O18: the operand is a list of one word, added in closed form. -/
theorem csumAddwAddsTheOperand : Obligations.CsumAddwAddsTheOperand := by
  refine ⟨rfl, fun s => ?_⟩
  have hsum : ([s.opnd.opa].map BitVec.toNat).sum = s.opnd.opa.toNat := by simp
  rw [exec_eq_runCommand, ruleOf, runCommand_ok, State.addWords_eq s hsum]
  rfl

end Sys2Proof.Machine

/-! The ICMP codec's encoders (41_icmp_codec.md R121, R122). -/

namespace Sys2Proof.Machine

open Sys2Proof.Safety

/-- A header written to the buffer: its eight bytes stand at the address, every byte outside them is as before. -/
theorem writeBytes_headerBytes (m : Memory) (d : Nat) (type code : Byte) (csum ident seq : Half) :
    spanHolds (m.writeBytes d (headerBytes type code csum ident seq)) d (headerBytes type code csum ident seq) ∧
      ∀ x, ¬inSpan d 8 x →
        (m.writeBytes d (headerBytes type code csum ident seq)).byteAt x = m.byteAt x :=
  ⟨spanHolds_writeBytes _ _ _, fun _ => Memory.byteAt_writeBytes_outside m d (headerBytes type code csum ident seq)⟩

/-- Settles O25: the bounds case from the checked end; in bounds the rule commits the header's bytes alone. -/
theorem icmpEncWritesTheHeader : Obligations.IcmpEncWritesTheHeader := by
  refine ⟨rfl, fun s => ?_⟩
  intro d
  refine ⟨exec_of_checkedEnd_gt (i := .icmpEnc), fun he => ?_⟩
  rcases icmpEncRule_cases s with ⟨hgt, _⟩ | ⟨_, hr⟩
  · omega
  · refine ⟨_, ?_, writeBytes_headerBytes s.mem d _ _ _ _ _⟩
    rw [exec_eq_runCommand, ruleOf, hr, runCommand_ok]
    rfl

/-- The two words of `ECHO_BUILD` run one rule, each for its own family and request type. -/
theorem echoBuild_family {i : Instr} {ty : Byte}
    (h : (i = .echoBuildV4 ∧ ty = 8#8) ∨ (i = .echoBuildV6 ∧ ty = 128#8)) :
    ∃ fam, ty = requestType fam ∧ ∀ s, ruleOf i s = echoBuildRule fam s ∧
      checkedEnd i s = s.opnd.dstAddr.toNat + (8 + s.opnd.bodyLen.toNat) := by
  rcases h with ⟨rfl, rfl⟩ | ⟨rfl, rfl⟩
  · exact ⟨.v4, rfl, fun _ => ⟨rfl, rfl⟩⟩
  · exact ⟨.v6, rfl, fun _ => ⟨rfl, rfl⟩⟩

/-- What `ECHO_BUILD` commits over a body that fits: the header with the checksum of the exact sum, which cannot wrap
(41_icmp_codec.md R122). -/
theorem echoBuildRule_of_holds {fam : Family} {s : State} {body : List Byte} {sum : Nat}
    (he : s.opnd.dstAddr.toNat + (8 + s.opnd.bodyLen.toNat) ≤ 65536) (hl : body.length = s.opnd.bodyLen.toNat)
    (hb : spanHolds s.mem (s.opnd.dstAddr.toNat + 8) body)
    (hs : sum = (requestType fam).toNat * 256 + s.opnd.txIdent.toNat + s.opnd.txSeq.toNat + wordSum body) :
    echoBuildRule fam s = .ok { s with
      mem := s.mem.writeBytes s.opnd.dstAddr.toNat
        (headerBytes (requestType fam) 0#8 (checksumOf sum) s.opnd.txIdent s.opnd.txSeq)
      csumAcc := BitVec.ofNat 32 sum
      csumRes := checksumOf sum
      frameLen := BitVec.ofNat 17 (8 + s.opnd.bodyLen.toNat)
      status := { s.status with ovf := false, cz := decide (checksumOf sum = 0#16) } } := by
  have hw := (sum_requestWords fam s body).trans hs.symm
  have hlt : sum < 2 ^ 32 := by
    have := wordSum_le body
    have := (requestType fam).isLt
    have := s.opnd.txIdent.isLt
    have := s.opnd.txSeq.isLt
    omega
  have hc : requestCsum fam s (wordsOf body) = checksumOf sum :=
    congrArg State.csumRes (State.oneShot_eq s hw hlt)
  rw [wholeSpan_of_holds (echoBuildRule_cases fam s) he hl hb, State.oneShot_eq _ hw hlt, hc]
  rfl

/-- Settles O26: the bounds case from the checked end, the other two from what a rule that reads a whole span answers,
once for both families. -/
theorem echoBuildWritesTheRequest : Obligations.EchoBuildWritesTheRequest := by
  refine ⟨⟨rfl, rfl⟩, fun s i ty hi => ?_⟩
  obtain ⟨fam, rfl, hfam⟩ := echoBuild_family hi
  obtain ⟨hrule, hend⟩ := hfam s
  intro d n
  refine ⟨fun hgt => exec_of_checkedEnd_gt (by omega), fun body he hl hb => ?_, fun he hw => ?_⟩
  · intro sum
    refine ⟨_, ?_, writeBytes_headerBytes s.mem d _ _ _ _ _⟩
    rw [exec_eq_runCommand, hrule, echoBuildRule_of_holds (by omega) hl hb rfl, runCommand_ok]
    rfl
  · rw [exec_fault_iff, hrule]
    exact wholeSpan_of_not_spanWritten (echoBuildRule_cases fam s) (by omega) hw

end Sys2Proof.Machine

/-! The IPv6 header decoder's errors (43_ipv6_decoder.md R161, R162). -/

namespace Sys2Proof.Machine

open Sys2Proof.Safety

theorem v6Fields_of_empty (m : Memory) (a : Nat) : v6Fields m a 0 = .error (.raised .truncatedInput false) := rfl

/-- A version other than 6 is rejected whatever the length: no length but the empty span's comes into the answer. -/
theorem v6Fields_of_version_ne_six {m : Memory} {a n : Nat} {b : Byte} (hn : 1 ≤ n) (hb : m.byteAt a = some b)
    (hv : b.toNat / 16 ≠ 6) : v6Fields m a n = .error (.raised .unsupportedVersion false) := by
  have hne : hiNibble b ≠ 6#4 := (hiNibble_eq_iff b 6#4).not.mpr hv
  rw [v6Fields, if_neg (Nat.not_lt.mpr hn), memByte_of_some hb]
  exact if_pos hne

/-- Version 6 leaves the 40-byte length check to decide. -/
theorem v6Fields_of_version_six_short {m : Memory} {a n : Nat} {b : Byte} (hn : 1 ≤ n) (hb : m.byteAt a = some b)
    (hv : b.toNat / 16 = 6) (hs : n < 40) : v6Fields m a n = .error (.raised .truncatedInput false) := by
  have hsix : hiNibble b = 6#4 := (hiNibble_eq_iff b 6#4).mpr hv
  rw [v6Fields, if_neg (Nat.not_lt.mpr hn), memByte_of_some hb]
  exact (if_neg (not_not_intro hsix)).trans (if_pos hs)

/-- Inside the buffer `IPV6_DEC` ends as its fields do where they do not succeed. -/
theorem ipv6DecRule_of_v6Fields_error {s : State} {e : Stop}
    (hb : s.opnd.srcAddr.toNat + s.opnd.srcLen.toNat ≤ 65536)
    (hv : v6Fields s.mem s.opnd.srcAddr.toNat s.opnd.srcLen.toNat = .error e) : ipv6DecRule s = .error e := by
  rw [ipv6DecRule_eq, if_pos hb, hv]
  rfl

/-- A command whose rule raises an error outside the ICMP stage changes `STATUS` alone (60_exceptions.md R203). -/
theorem exec_of_ruleOf_raised {i : Instr} {s : State} {e : BlockError} (hr : ruleOf i s = .error (.raised e false)) :
    exec i s = .next { s with status := completed s.status e.toCode } := by
  rw [exec_eq_runCommand, hr, runCommand_raised, fail_false_eq]

/-- Settles O33: the bounds case from the checked end; in bounds the fields answer at the first of their tests that
fails: empty span, unwritten first byte, version, length. -/
theorem ipv6VersionIsTestedFirst : Obligations.Ipv6VersionIsTestedFirst := by
  intro s a n
  have raised {e : BlockError} (he : a + n ≤ 65536) (hv : v6Fields s.mem a n = .error (.raised e false)) :
      exec .ipv6Dec s = .next { s with status := completed s.status e.toCode } :=
    exec_of_ruleOf_raised (ipv6DecRule_of_v6Fields_error he hv)
  refine ⟨exec_of_checkedEnd_gt (i := .ipv6Dec), fun he h0 => ?_, fun he hn hx => ?_,
    fun b he hn hb => ⟨fun hv => ?_, fun hv hs => ?_⟩⟩
  · exact raised he (h0 ▸ v6Fields_of_empty s.mem a)
  · exact (exec_fault_iff .ipv6Dec s _).mpr (ipv6DecRule_of_v6Fields_error he (v6Fields_of_unwritten hn (.inl rfl) hx))
  · exact raised he (v6Fields_of_version_ne_six hn hb hv)
  · exact raised he (v6Fields_of_version_six_short hn hb hv hs)

end Sys2Proof.Machine

/-! The null command (44_chain_and_nop.md R183). -/

namespace Sys2Proof.Machine

open Sys2Proof.Safety

/-- A command whose rule commits changes, beside what the rule changes, ERR, DONE and BUSY alone
(60_exceptions.md R203). -/
theorem exec_of_ruleOf_ok {i : Instr} {s u : State} (hr : ruleOf i s = .ok u) :
    exec i s = .next { u with status := completed u.status 0#4 } := by
  rw [exec_eq_runCommand, hr, runCommand_ok, complete_eq]

/-- Settles O36: the rule of `NOP` commits the state it was given, from every state. -/
theorem nopOnlyCompletes : Obligations.NopOnlyCompletes := by
  refine ⟨rfl, fun s => ?_⟩
  have hrule : ruleOf .nop s = .ok s := rfl
  exact exec_of_ruleOf_ok hrule

end Sys2Proof.Machine

/-! The interrupt level, command start and completion (60_exceptions.md R200, R204, R207). -/

namespace Sys2Proof.Machine

open Sys2Proof.Safety

/-! ### The interrupt level -/

/-- With DONE at 1 the level is IRQ_EN (10_state.md R49). -/
theorem irq_of_done {s : State} (h : s.status.done = true) : s.irq = s.irqEn := by
  rw [State.irq, h, Bool.and_true]

/-- With DONE at 0 the level is low (10_state.md R49). -/
theorem irq_of_not_done {s : State} (h : s.status.done = false) : s.irq = false := by
  rw [State.irq, h, Bool.and_false]

/-! ### Command start -/

/-- A whole-word write of CMD while the block is idle is a command start (60_exceptions.md R204). -/
theorem hostAccess_writeCmd_idle {s : State} (hb : s.status.busy = false) (w : Word) :
    hostAccess (.regWrite 0x08#8 32 w) s = .next ((s.start w).replied .nothing) :=
  hostRegWrite_idle s .cmd w hb

/-- A whole-word write of a register while a command is pending (70_reset_and_hazards.md R240). -/
theorem hostRegWrite_busy (s : State) (r : Reg) (v : Word) (hb : s.status.busy = true) :
    hostAccess (.regWrite r.offset 32 v) s = .fault .hostBusyViolation := by
  simp [hostAccess, hostRegWrite, regAccessOk_offset, hb]

/-- A command start lowers the level: it clears DONE. -/
theorem irq_start_replied (s : State) (w : Word) (r : Reply) : ((s.start w).replied r).irq = false :=
  irq_of_not_done rfl

/-- Settles O41: a write of CMD is the command start while idle, and a fault while busy. -/
theorem cmdWriteStartsACommand : Obligations.CmdWriteStartsACommand := by
  refine fun s w => ⟨fun hb => ?_, hostRegWrite_busy s .cmd w⟩
  exact ⟨_, hostAccess_writeCmd_idle hb w, rfl, irq_start_replied s w .nothing⟩

/-! ### Completion -/

/-- The block has ended a command and is idle, with an error code of R201's table or none. -/
def Ended (t : State) : Prop :=
  t.status.done = true ∧ t.status.busy = false ∧ t.status.err.toNat ≤ 5

theorem ended_complete (s : State) : Ended (s.complete 0#4) :=
  ⟨rfl, rfl, Nat.zero_le _⟩

theorem ended_fail (s : State) (e : BlockError) (g : Bool) : Ended (s.fail e g) :=
  ⟨rfl, rfl, toCode_le e⟩

/-- A command ended, or stopped on an unwritten byte (20_memory.md R62). -/
def EndsOrStops (o : Host.Outcome State Fault Refusal) : Prop :=
  (∃ t, o = .next t ∧ Ended t) ∨ o = .fault .uninitRead

theorem exec_endsOrStops (i : Instr) (s : State) : EndsOrStops (exec i s) := by
  rw [exec_eq_runCommand]
  cases ruleOutcome i s with
  | raises e g hr _ _ => rw [hr]; exact .inl ⟨_, rfl, ended_fail s e g⟩
  | faults hr => rw [hr]; exact .inr rfl
  | commits u hr _ => rw [hr]; exact .inl ⟨_, rfl, ended_complete u⟩

/-- The block's step on a word, legal or not: an illegal word ends with `ILLEGAL_COMMAND` (30_encoding.md R85). -/
theorem blockStep_endsOrStops (s : State) : EndsOrStops (blockStep s) := by
  unfold blockStep
  cases decode s.cmd with
  | ok i => exact exec_endsOrStops i s
  | error _ => exact .inl ⟨_, rfl, ended_fail s .illegalCommand false⟩

/-- Settles O37: every command ends with BUSY 0 or stops, and from BUSY 0 the CMD write starts the next one. -/
theorem everyCommandCompletes : Obligations.EveryCommandCompletes := by
  unfold Obligations.EveryCommandCompletes
  intro completes
  have accepts {o : Host.Outcome State Fault Refusal} (h : EndsOrStops o) : completes o := by
    rcases h with ⟨t, ho, hdone, hbusy, herr⟩ | ho
    · exact .inl ⟨t, ho, hdone, hbusy, herr, fun w => ⟨_, hostAccess_writeCmd_idle hbusy w, rfl, rfl⟩⟩
    · exact .inr ho
  exact ⟨fun i s => accepts (exec_endsOrStops i s), fun s => accepts (blockStep_endsOrStops s)⟩

/-- A completion sets DONE and leaves IRQ_EN, so it raises the level exactly where the host has enabled it. -/
theorem irq_of_exec {i : Instr} {s t : State} (h : exec i s = .next t) : t.irq = s.irqEn := by
  rcases exec_cases h with ⟨u, _, hc, rfl⟩ | ⟨e, g, _, rfl, _, _⟩
  · exact (irq_of_done rfl).trans hc.irqEn
  · exact irq_of_done rfl

/-- Settles O50: each clause from what the access or the completion does to DONE or to IRQ_EN. -/
theorem interruptFollowsEnableAndDone : Obligations.InterruptFollowsEnableAndDone := by
  refine ⟨fun _ => rfl, fun _ _ _ => irq_of_exec, fun s v hb hd hv => ?enable, fun s v hb hv => ?acknowledge,
    fun s w hb => ?start, fun _ => rfl⟩
  case enable =>
    have hen : v.getLsbD 0 = true := by rw [getLsbD_eq_decide]; simpa using hv
    exact ⟨_, hostRegWrite_idle s .ctrl v hb,
      (irq_of_done (s := (writeReg s v .ctrl).replied .nothing) hd).trans hen⟩
  case acknowledge =>
    refine ⟨_, hostRegWrite_idle s .status v hb, irq_of_not_done ?_⟩
    rw [writeReg, ackDone_eq, State.replied_status]
    exact if_pos hv
  case start => exact ⟨_, hostAccess_writeCmd_idle hb w, irq_start_replied s w .nothing⟩

end Sys2Proof.Machine

/-! The state after reset and the host's accesses while a command is pending (70_reset_and_hazards.md R230, R231,
R240). -/

namespace Sys2Proof.Machine

open Sys2Proof.Safety

/-! ### After reset -/

/-- Every register field is 0 after reset (70_reset_and_hazards.md R230). -/
theorem readReg_reset (r : Reg) : readReg State.reset r = 0#32 := by cases r <;> rfl

/-- Every offset reads 0 after reset, a reserved one as always (70_reset_and_hazards.md R230, 10_state.md R23). -/
theorem readOffset_reset (off : BitVec 8) : readOffset State.reset off = 0#32 := by
  unfold readOffset
  split
  · exact readReg_reset _
  · rfl

/-- Settles O11: every register's content is 0 and a reserved offset reads 0; the buffer is the empty list of cells, and an
idle host read of an unwritten cell is `UninitRead`. -/
theorem resetStateReadsZero : Obligations.ResetStateReadsZero := by
  refine ⟨readOffset_reset, irq_of_not_done rfl, rfl, fun a => ?unwritten, fun a => ?uninit⟩
  case unwritten => exact Memory.byteAt_nil a
  case uninit => exact hostBufRead_of_unwritten rfl (Memory.byteAt_nil a.toNat)

/-! ### While a command is pending -/

/-- A whole-word write of any offset while busy, of a reserved one too (70_reset_and_hazards.md R240). -/
theorem hostRegWrite_busy_of_aligned {s : State} {off : BitVec 8} (hb : s.status.busy = true)
    (ho : off.toNat % 4 = 0) (v : Word) : hostAccess (.regWrite off 32 v) s = .fault .hostBusyViolation := by
  simp [hostAccess, hostRegWrite, regAccessOk, ho, hb]

/-- A one-byte write of the buffer while busy (70_reset_and_hazards.md R240). -/
theorem hostBufWrite_busy {s : State} (hb : s.status.busy = true) (a : Half) (v : Word) :
    hostAccess (.bufWrite a 8 v) s = .fault .hostBusyViolation := by
  simp [hostAccess, hostBufWrite, bufAccessOk, hb]

/-- A register that is readable while busy reads its content, busy or not (70_reset_and_hazards.md R240). -/
theorem hostRegRead_of_readable {r : Reg} (hr : readableWhileBusy r.offset = true) (s : State) :
    hostAccess (.regRead r.offset 32) s = .next (s.replied (.word (readReg s r))) := by
  simp [hostAccess, hostRegRead, regAccessOk_offset, hr, readOffset, Reg.ofOffset_offset]

/-- While busy the invariant leaves only CZ and OVF of STATUS free. -/
theorem statusValue_of_busy {s : State} (hinv : Inv s) (hb : s.status.busy = true) :
    statusValue s.status = 1 + 256 * s.status.cz.toNat + 512 * s.status.ovf.toNat := by
  obtain ⟨hdone, herr, hestg⟩ := hinv.busyQuiet hb
  simp [statusValue, hb, hdone, herr, hestg]

/-- Settles O55: the writes by the busy block's refusal, the two reads by `readableWhileBusy`, the STATUS word by the
invariant. -/
theorem busyBlockAllowsOnlyStatusAndCmdReads : Obligations.BusyBlockAllowsOnlyStatusAndCmdReads := by
  refine fun s hinv hb => ⟨fun off v ho => hostRegWrite_busy_of_aligned hb ho v, hostBufWrite_busy hb,
    ⟨_, hostRegRead_of_readable (r := .status) rfl s, ?statusWord⟩, hostRegRead_of_readable (r := .cmd) rfl s⟩
  case statusWord => exact s.status.toWord_toNat.trans (statusValue_of_busy hinv hb)

end Sys2Proof.Machine

/-! The decoder and the encoder, and the mnemonics (30_encoding.md R81 to R88). -/

namespace Sys2Proof.Machine

open Sys2Proof.Safety

/-! ### Decoding and encoding -/

/-- A plain command's operation code is the one the encoder gives it, with `F` clear (30_encoding.md R84). -/
theorem opcodeOf_of_plainInstr {op : BitVec 8} {i : Instr} (h : plainInstr op = some i) :
    opcodeOf i = (op, 0#1) := by
  unfold plainInstr at h
  split at h <;> cases h
  all_goals exact Prod.ext (BitVec.eq_of_toNat_eq (Eq.symm ‹_›)) rfl

theorem familyOf_eq_v4_iff (f : BitVec 1) : familyOf f = .v4 ↔ f = 0#1 := by revert f; decide

theorem familyOf_eq_v6_iff (f : BitVec 1) : familyOf f = .v6 ↔ f = 1#1 := by revert f; decide

/-- A family command's operation code and `F` bit are those the encoder gives it (30_encoding.md R82, R84). -/
theorem opcodeOf_of_familyInstr {op : BitVec 8} {f : BitVec 1} {i : Instr} (h : familyInstr op (familyOf f) = some i) :
    opcodeOf i = (op, f) := by
  unfold familyInstr at h
  split at h <;> cases h
  case h_1 hop hf | h_3 hop hf =>
    exact Prod.ext (BitVec.eq_of_toNat_eq hop.symm) ((familyOf_eq_v4_iff f).mp hf).symm
  case h_2 hop hf | h_4 hop hf =>
    exact Prod.ext (BitVec.eq_of_toNat_eq hop.symm) ((familyOf_eq_v6_iff f).mp hf).symm

/-- Fields that decode have `RSV` 0 and the operation code and `F` bit of the command. -/
theorem fields_of_decodeFields {c : CmdFields} {i : Instr} (h : decodeFields c = .ok i) :
    c.rsv = 0#23 ∧ opcodeOf i = (c.op, c.f) := by
  unfold decodeFields at h
  split at h
  · cases h
  · refine ⟨not_not.mp ‹_›, ?_⟩
    split at h
    · cases h; exact opcodeOf_of_familyInstr ‹_›
    · split at h
      · cases h
      · split at h
        · cases h
          rw [opcodeOf_of_plainInstr ‹_›, ‹c.f = 0#1›]
        · cases h

/-- A word is its three fields side by side: no bit of it is dropped (30_encoding.md R81). -/
theorem append_fieldsOf (w : Word) : (fieldsOf w).rsv ++ (fieldsOf w).f ++ (fieldsOf w).op = w := by
  have hhigh : (fieldsOf w).rsv ++ (fieldsOf w).f = w.extractLsb' 8 24 :=
    BitVec.extractLsb'_append_extractLsb'_eq_extractLsb' rfl
  rw [hhigh]
  exact (BitVec.extractLsb'_append_extractLsb'_eq_extractLsb' rfl).trans BitVec.extractLsb'_eq_self

/-- Every command's word decodes to it (30_encoding.md R86). -/
theorem decode_encode (i : Instr) : decode (encode i) = .ok i := by cases i <;> rfl

/-- Settles O2: forwards the fields of a word that decodes are the command's and are the whole word, backwards each
encoded word decodes. -/
theorem decodeAndEncodeAreInverse : Obligations.DecodeAndEncodeAreInverse := by
  refine fun w i => ⟨fun h => ?_, fun h => h ▸ decode_encode i⟩
  obtain ⟨hrsv, hop⟩ := fields_of_decodeFields h
  rw [encode, hop, ← hrsv, append_fieldsOf]

theorem mem_allInstr (i : Instr) : i ∈ allInstr := by cases i <;> decide

/-- Settles O3: the table lists each command beside its encoded word, and decoding is the inverse of encoding. -/
theorem legalWordsAreTheFourteenOfTheTable : Obligations.LegalWordsAreTheFourteenOfTheTable := by
  intro w i
  change _ ↔ (w.toNat, i) ∈ allInstr.map fun j => ((encode j).toNat, j)
  rw [decodeAndEncodeAreInverse w i, ← BitVec.toNat_inj]
  simp [mem_allInstr]

/-- Settles O1: each listed word is its command's encoding. -/
theorem listedWordsDecodeToTheirCommands : Obligations.ListedWordsDecodeToTheirCommands :=
  ⟨decode_encode .nop, decode_encode .csumAddb, decode_encode .icmpEnc, decode_encode .echoBuildV4,
    decode_encode .echoBuildV6, decode_encode .ipv4Dec, decode_encode .ipv6Dec, decode_encode .rxParseV6⟩

/-! ### Illegal words -/

/-- The operation codes no family command has (30_encoding.md R84). -/
theorem familyInstr_eq_none_iff {op : BitVec 8} {f : Family} :
    familyInstr op f = none ↔ op.toNat ≠ 0x11 ∧ op.toNat ≠ 0x23 := by
  cases f <;> unfold familyInstr <;> split <;>
    simp only [reduceCtorEq, true_iff, false_iff, imp_false, not_true] at *
  all_goals omega

/-- The operation codes no plain command has (30_encoding.md R84). -/
theorem plainInstr_eq_none_iff {op : BitVec 8} :
    plainInstr op = none ↔ 5 < op.toNat ∧ op.toNat ≠ 0x10 ∧ ¬(0x20 ≤ op.toNat ∧ op.toNat ≤ 0x22) := by
  unfold plainInstr
  split <;> simp only [reduceCtorEq, true_iff, false_iff, imp_false] at *
  all_goals omega

theorem fieldsOf_op_toNat (w : Word) : (fieldsOf w).op.toNat = w.toNat % 256 := by
  simp [fieldsOf, BitVec.extractLsb'_toNat]

theorem fieldsOf_f_toNat (w : Word) : (fieldsOf w).f.toNat = w.toNat / 256 % 2 := by
  simp [fieldsOf, BitVec.extractLsb'_toNat, Nat.shiftRight_eq_div_pow]

theorem fieldsOf_rsv_toNat (w : Word) : (fieldsOf w).rsv.toNat = w.toNat / 512 := by
  have := w.isLt
  simp [fieldsOf, BitVec.extractLsb'_toNat, Nat.shiftRight_eq_div_pow]; omega

/-- R85's three clauses, with the unassigned operation codes as ranges. -/
theorem CmdFields.wf_iff (c : CmdFields) :
    c.wf = true ↔
      ¬(((0x06 ≤ c.op.toNat ∧ c.op.toNat ≤ 0x0F) ∨ (0x12 ≤ c.op.toNat ∧ c.op.toNat ≤ 0x1F) ∨
          0x24 ≤ c.op.toNat) ∨
        (c.f.toNat = 1 ∧ c.op.toNat ≠ 0x11 ∧ c.op.toNat ≠ 0x23) ∨ c.rsv.toNat ≠ 0) := by
  simp [CmdFields.wf, CmdFields.opAssigned, CmdFields.familyOk, CmdFields.rsvZero, ← BitVec.toNat_inj]
  omega

/-- Fields that do not decode break the clause of R85 the decoder names. -/
theorem not_wf_of_decodeFields_error {c : CmdFields} {e : DecodeReject} (h : decodeFields c = .error e) :
    ¬c.wf = true := by
  rw [CmdFields.wf_iff, not_not]
  unfold decodeFields at h
  split at h
  · rename_i hrsv
    exact .inr (.inr (fun h0 => hrsv (BitVec.eq_of_toNat_eq h0)))
  · split at h
    · cases h
    · have hf := familyInstr_eq_none_iff.mp ‹_›
      split at h
      · have hp := plainInstr_eq_none_iff.mp ‹_›
        omega
      · split at h
        · cases h
        · rename_i hbit
          have hone : c.f.toNat ≠ 0 := fun h0 => hbit (BitVec.eq_of_toNat_eq h0)
          have := c.f.isLt
          exact .inr (.inl ⟨by omega, by omega, by omega⟩)

/-- The words that decode are those whose fields meet R85's clauses. -/
theorem decode_isOk_iff_wf (w : Word) : (∃ i, decode w = .ok i) ↔ (fieldsOf w).wf = true := by
  constructor
  · rintro ⟨i, h⟩
    rw [← (decodeAndEncodeAreInverse w i).mp h]
    cases i <;> rfl
  · intro h
    cases hd : decode w with
    | ok i => exact ⟨i, rfl⟩
    | error e => exact absurd h (not_wf_of_decodeFields_error hd)

/-- Settles O4: the legal words are those whose fields are well-formed, and the block's step on any other fails. -/
theorem illegalWordCompletesWithErrorOnly : Obligations.IllegalWordCompletesWithErrorOnly := by
  intro s hp op f rsv illegal
  have hlegal : (∃ i, decode s.cmd = .ok i) ↔ ¬illegal := by
    rw [decode_isOk_iff_wf, CmdFields.wf_iff, fieldsOf_op_toNat, fieldsOf_f_toNat, fieldsOf_rsv_toNat]
  refine ⟨hlegal, fun hill => ?_⟩
  rw [step_of_pending hp, blockStep, State.setAgenda_cmd]
  cases hd : decode s.cmd with
  | ok i => exact absurd hill (hlegal.mp ⟨i, hd⟩)
  | error e => exact congrArg _ (fail_false_eq _ _)

/-! ### Mnemonics -/

theorem ofSpelling_spelling (i : Instr) : ofSpelling (spelling i) = some i := by cases i <;> rfl

/-- A string that is no command's spelling names no command (30_encoding.md R88, log 13). -/
theorem ofSpelling_eq_none {m : String} (h : ∀ i, spelling i ≠ m) : ofSpelling m = none := by
  simp [ofSpelling, List.find?_eq_none, h]

/-- A one-line program of a mnemonic: one CMD write of its word, or an assembly error. -/
theorem assemble_cmd (m : String) :
    assemble [.stmt (.cmd m)] = (ofSpelling m).map fun i => [.store (.regWrite 0x08#8 32 (encode i))] := by
  unfold assemble
  simp only [expandFrom, assembleStmts, assembleStmt]
  cases ofSpelling m <;> rfl

/-- Settles O5: the table lists each command's spelling beside its encoding, and a spelling names its own command
alone. -/
theorem mnemonicsNameTheirCommands : Obligations.MnemonicsNameTheirCommands := by
  unfold Obligations.MnemonicsNameTheirCommands
  intro table
  have htable : table = allInstr.map fun i => (spelling i, encode i, i) := rfl
  have hrows (i : Instr) : (spelling i, encode i, i) ∈ table := by
    rw [htable]; exact List.mem_map.mpr ⟨i, mem_allInstr i, rfl⟩
  have hother (m : String) (hm : m ∉ table.map Prod.fst) :
      ofSpelling m = none ∧ assemble [.stmt (.cmd m)] = none := by
    have hnone : ofSpelling m = none :=
      ofSpelling_eq_none fun i hi => hm (List.mem_map.mpr ⟨_, hrows i, hi⟩)
    exact ⟨hnone, by rw [assemble_cmd, hnone]; rfl⟩
  refine ⟨fun row hrow => ?_, fun m hm => hother m ?_, hother⟩
  · rw [htable] at hrow
    obtain ⟨i, _, rfl⟩ := List.mem_map.mp hrow
    refine ⟨ofSpelling_spelling i, rfl, ?_⟩
    rw [assemble_cmd, ofSpelling_spelling]
    rfl
  · revert m; decide

end Sys2Proof.Machine

/-! The step: who moves, progress of a pending command, and what every step keeps (60_exceptions.md R203,
70_reset_and_hazards.md R230 to R233, R248). -/

namespace Sys2Proof.Machine

open Sys2Proof.Safety

/-! ### One move -/

theorem step_of_host {s : State} {a : HostAccess} {rest : List Event} (h : s.host.agenda = .host a :: rest) :
    step s = hostAccess a (s.setAgenda rest) := by
  rw [step, advance, h]

theorem step_of_reset {s : State} {rest : List Event} (h : s.host.agenda = .reset :: rest) :
    step s = .next (s.setAgenda rest).resetBlock := by
  rw [step, advance, h]

theorem step_of_block_idle {s : State} {rest : List Event} (hb : s.status.busy = false)
    (h : s.host.agenda = .block :: rest) : step s = .next (s.setAgenda rest) := by
  simp [step, advance, h, blockTurn, hb]

theorem step_of_empty_idle {s : State} (hb : s.status.busy = false) (h : s.host.agenda = []) :
    step s = .next s := by
  simp [step, advance, h, blockTurn, hb]

/-- Settles O6: the block's step on a word that decodes is the command's `exec`. -/
theorem stepRunsTheDecodedCommand : Obligations.StepRunsTheDecodedCommand := by
  intro s i hp hd
  rw [step_of_pending hp, blockStep, State.setAgenda_cmd, hd]
  rfl

/-- Settles O7: one clause for each of the moves that runs no command. -/
theorem stepServesTheHostAndWaitsWhenIdle : Obligations.StepServesTheHostAndWaitsWhenIdle :=
  ⟨fun _ _ _ h => step_of_host h, fun _ hb h => step_of_empty_idle hb h, fun _ _ hb h => step_of_block_idle hb h⟩

/-- Settles O8: the reset move keeps nothing but the outside world's side. -/
theorem resetAbortsThePendingCommand : Obligations.ResetAbortsThePendingCommand :=
  fun _ _ h => step_of_reset h

/-! ### A pending command -/

/-- While a command is pending, a host access that goes on is a read, and changes the model's own fields alone
(70_reset_and_hazards.md R240, R241). -/
theorem hostAccess_busy {a : HostAccess} {s t : State} (hb : s.status.busy = true) (h : hostAccess a s = .next t) :
    ∃ host, t = s.withHost host := by
  rcases hostAccess_cases h with ⟨_, _, _, _, ⟨_, _, rfl⟩ | ⟨_, rfl⟩⟩ | ⟨_, _, _, _, _, hidle, _⟩ |
    ⟨_, _, _, _, ⟨_, rfl⟩ | ⟨_, _, _, rfl⟩⟩ | ⟨_, _, _, _, _, hidle, _⟩
  case inr.inl | inr.inr.inr => rw [hb] at hidle; cases hidle
  all_goals exact ⟨_, rfl⟩

/-- A completed block step leaves no command pending. -/
theorem blockStep_not_busy {s t : State} (h : blockStep s = .next t) : t.status.busy = false := by
  rcases blockStep_endsOrStops s with ⟨u, hu, _, hbusy, _⟩ | hf
  · rw [h] at hu; cases hu; exact hbusy
  · rw [h] at hf; cases hf

/-- Settles O10: of the moves from a busy state only a read leaves the block busy, and a read keeps CMD. -/
theorem pendingCommandWordIsStable : Obligations.PendingCommandWordIsStable := by
  intro s t h hs ht
  rcases step_cases h with ⟨_, hrun⟩ | ⟨hidle, _⟩ | ⟨a, rest, _, hacc⟩ | ⟨rest, _, rfl⟩
  · rw [blockStep_not_busy hrun] at ht; cases ht
  · rw [hs] at hidle; cases hidle
  · obtain ⟨host, rfl⟩ := hostAccess_busy (s := s.setAgenda rest) hs hacc
    rfl
  · cases ht

/-- A run of one step is the step. -/
theorem run_one (M : Host.Core) (s : M.State) : M.run 1 s = M.step s := by
  rw [Host.Core.run]
  cases M.step s <;> rfl

theorem run_succ_of_next {M : Host.Core} {s t : M.State} (h : M.step s = .next t) (k : Nat) :
    M.run (k + 1) s = M.run k t := by
  rw [Host.Core.run, h]

/-- The polls R240 defines while a command is pending: a whole-word read of STATUS or of CMD. -/
theorem hostAccess_poll {e : Event} (he : e = .host (.regRead 0x04#8 32) ∨ e = .host (.regRead 0x08#8 32)) :
    ∃ a, e = .host a ∧ ∀ s, ∃ r, hostAccess a s = .next (s.replied r) := by
  rcases he with rfl | rfl
  · exact ⟨_, rfl, fun s => ⟨_, hostRegRead_of_readable (r := .status) rfl s⟩⟩
  · exact ⟨_, rfl, fun s => ⟨_, hostRegRead_of_readable (r := .cmd) rfl s⟩⟩

/-- An agenda of polls runs down to the block's turn, and nothing of them is left but the last reply. -/
theorem run_polls (agenda : List Event) {s : State} (hb : s.status.busy = true) (ha : s.host.agenda = agenda)
    (hpoll : ∀ e ∈ agenda, e = .host (.regRead 0x04#8 32) ∨ e = .host (.regRead 0x08#8 32)) :
    ∃ r, Host.Core.run core (agenda.length + 1) s = blockStep ((s.setAgenda []).replied r) := by
  induction agenda generalizing s with
  | nil =>
    refine ⟨s.host.reply, (run_one core s).trans ?_⟩
    exact (step_of_pending ⟨hb, .inl ha⟩).trans (by rw [ha]; rfl)
  | cons e rest ih =>
    obtain ⟨a, rfl, hacc⟩ := hostAccess_poll (hpoll e List.mem_cons_self)
    obtain ⟨r, hr⟩ := hacc (s.setAgenda rest)
    obtain ⟨r', hrun⟩ := ih (s := (s.setAgenda rest).replied r) hb rfl
      fun e he => hpoll e (List.mem_cons_of_mem _ he)
    exact ⟨r', (run_succ_of_next (M := core) ((step_of_host ha).trans hr) _).trans hrun⟩

/-- Settles O9: the polls run down by induction on the agenda, and the block's step then ends or stops. -/
theorem pendingCommandCompletesAfterAnyReads : Obligations.PendingCommandCompletesAfterAnyReads := by
  intro s hb hpoll
  obtain ⟨r, hrun⟩ := run_polls s.host.agenda hb rfl hpoll
  refine ⟨r, hrun, ?_⟩
  rcases blockStep_endsOrStops ((s.setAgenda []).replied r) with ⟨t, ht, hdone, hbusy, _⟩ | hf
  · exact .inl ⟨t, ht, hbusy, hdone⟩
  · exact .inr hf

/-! ### The invariant -/

/-- Settles O12: every bank is at reset and every register 0. -/
theorem invariantHoldsAtReset : Obligations.InvariantHoldsAtReset where
  memCanonical := Memory.wf_reset
  errLegal := by decide
  busyQuiet h := by cases h
  stageError h := by cases h
  zeroFlag h := by cases h
  frameFits := by decide
  bodyFits := by decide
  v4Ok := .inl rfl
  v6Ok := .inl rfl

/-- The invariant speaks of the block alone: a state that differs only in what the host owns meets it too. -/
theorem inv_of_host_side {s : State} (h : Inv s) (irqEn : Bool) (cmd : Word) (opnd : OperandRegs) (host : HostSide) :
    Inv { s with irqEn := irqEn, cmd := cmd, opnd := opnd, host := host } where
  memCanonical := h.memCanonical
  errLegal := h.errLegal
  busyQuiet := h.busyQuiet
  stageError := h.stageError
  zeroFlag := h.zeroFlag
  frameFits := h.frameFits
  bodyFits := h.bodyFits
  v4Ok := h.v4Ok
  v6Ok := h.v6Ok

theorem inv_withHost {s : State} (h : Inv s) (host : HostSide) : Inv (s.withHost host) :=
  inv_of_host_side h s.irqEn s.cmd s.opnd host

/-- A commit of a command that was pending keeps the invariant. -/
theorem inv_complete {i : Instr} {s u : State} (hs : Inv s) (hb : s.status.busy = true) (hc : Commit i s u) :
    Inv (u.complete 0#4) where
  memCanonical := hc.memWf hs.memCanonical
  errLegal := Nat.zero_le _
  busyQuiet h := by cases h
  stageError h := by
    obtain ⟨_, _, hestg⟩ := hs.busyQuiet hb
    rw [State.complete_status, hc.estg, hestg] at h
    cases h
  zeroFlag h := by
    by_cases hi : i ∈ [Instr.csumFin, .csumBuf, .echoBuildV4, .echoBuildV6]
    · exact of_decide_eq_true ((hc.cz hi).symm.trans h)
    · obtain ⟨hres, hcz⟩ := hc.res hi
      exact hres.trans (hs.zeroFlag (hcz.symm.trans h))
  frameFits := hc.frameFits hs.frameFits
  bodyFits := hc.bodyFits hs.bodyFits
  v4Ok := hc.v4Ok hs.v4Ok
  v6Ok := hc.v6Ok hs.v6Ok

/-- A failure of a command that was pending keeps the invariant: only `TRUNCATED_INPUT` sets ESTG. -/
theorem inv_fail {s : State} {e : BlockError} {g : Bool} (hs : Inv s) (hb : s.status.busy = true)
    (hg : g = true → e = .truncatedInput) : Inv (s.fail e g) where
  memCanonical := hs.memCanonical
  errLegal := toCode_le e
  busyQuiet h := by cases h
  stageError h := by
    obtain ⟨_, _, hestg⟩ := hs.busyQuiet hb
    rw [State.fail_status, hestg] at h
    rw [hg h]
    rfl
  zeroFlag := hs.zeroFlag
  frameFits := hs.frameFits
  bodyFits := hs.bodyFits
  v4Ok := hs.v4Ok
  v6Ok := hs.v6Ok

theorem inv_blockStep {s t : State} (hs : Inv s) (hb : s.status.busy = true) (h : blockStep s = .next t) : Inv t := by
  rcases blockStep_cases h with ⟨i, _, hi⟩ | ⟨_, _, rfl⟩
  · rcases exec_cases hi with ⟨u, _, hc, rfl⟩ | ⟨e, g, _, rfl, _, hg⟩
    · exact inv_complete hs hb hc
    · exact inv_fail hs hb fun h => (hg h).2.1
  · exact inv_fail hs hb fun h => by cases h

theorem access_startsCommand_iff (r : Reg) : r.access = .startsCommand ↔ r = .cmd := by
  cases r <;> decide

/-- A write of a register keeps the invariant: an RW register and an RO one touch nothing it speaks of, STATUS and CMD
write flags it allows (10_state.md R22, R27, 60_exceptions.md R204). -/
theorem inv_writeReg {s : State} (hs : Inv s) (hb : s.status.busy = false) (v : Word) (r : Reg) :
    Inv (writeReg s v r) := by
  cases hr : r.access with
  | rw =>
    obtain ⟨e, o, hw⟩ := writeReg_rw_frame hr s v
    exact hw ▸ inv_of_host_side hs e s.cmd o s.host
  | ro => exact (writeReg_of_ro hr s v).symm ▸ hs
  | statusW1c =>
    obtain rfl := (access_statusW1c_iff r).mp hr
    exact { hs with busyQuiet := fun h => by rw [writeReg, State.ackDone_status, hb] at h; cases h }
  | startsCommand =>
    obtain rfl := (access_startsCommand_iff r).mp hr
    exact { hs with
      errLegal := Nat.zero_le _
      busyQuiet := fun _ => ⟨rfl, rfl, rfl⟩
      stageError := fun h => by cases h }

theorem inv_writeOffset {s : State} (hs : Inv s) (hb : s.status.busy = false) (off : BitVec 8) (v : Word) :
    Inv (writeOffset s off v) := by
  unfold writeOffset
  split
  · exact inv_writeReg hs hb v _
  · exact hs

theorem inv_withMem {s : State} (hs : Inv s) {m : Memory} (hm : m.wf = true) : Inv (s.withMem m) :=
  { hs with memCanonical := hm }

theorem inv_hostAccess {a : HostAccess} {s t : State} (hs : Inv s) (h : hostAccess a s = .next t) : Inv t := by
  have hm := hostAccess_keeps_wf hs.memCanonical h
  rcases hostAccess_cases h with ⟨_, _, _, _, ⟨_, _, rfl⟩ | ⟨_, rfl⟩⟩ | ⟨off, _, v, _, _, hb, rfl⟩ |
    ⟨_, _, _, _, ⟨_, rfl⟩ | ⟨_, _, _, rfl⟩⟩ | ⟨_, _, _, _, _, _, rfl⟩
  case inr.inl => exact inv_withHost (inv_writeOffset hs hb off v) _
  case inr.inr.inr => exact inv_withHost (inv_withMem hs hm) _
  all_goals exact inv_withHost hs _

/-- Settles O13: the block's step by what a completion leaves, a host access by what it writes, an idle turn and a reset
directly. -/
theorem stepKeepsTheInvariant : Obligations.StepKeepsTheInvariant := by
  intro s t hs h
  rcases step_cases h with ⟨⟨hb, _⟩, hrun⟩ | ⟨_, _, rfl⟩ | ⟨a, rest, _, hacc⟩ | ⟨rest, _, rfl⟩
  · exact inv_blockStep (s := s.setAgenda s.host.agenda.tail) (inv_withHost hs _) hb hrun
  · exact inv_withHost hs _
  · exact inv_hostAccess (inv_withHost hs _) hacc
  · exact inv_withHost invariantHoldsAtReset _

/-! ### Written cells -/

/-- A write of bytes leaves no cell unwritten that was written. -/
theorem Memory.written_writeBytes {m : Memory} {x : Nat} (h : (m.byteAt x).isSome = true) (a : Nat) (bs : List Byte) :
    ((m.writeBytes a bs).byteAt x).isSome = true := by
  rw [Memory.byteAt_writeBytes]
  split
  · rw [List.getElem?_eq_getElem (by omega)]; rfl
  · exact h

theorem icmpEncRule_ok_mem {s u : State} (h : icmpEncRule s = .ok u) :
    ∃ a bs, u.mem = s.mem.writeBytes a bs := by
  rcases icmpEncRule_cases s with ⟨_, hr⟩ | ⟨_, hr⟩ <;> rw [hr] at h <;> cases h
  exact ⟨_, _, rfl⟩

theorem echoBuildRule_ok_mem {fam : Family} {s u : State} (h : echoBuildRule fam s = .ok u) :
    ∃ a bs, u.mem = s.mem.writeBytes a bs := by
  rcases echoBuildRule_cases fam s with ⟨_, hr⟩ | ⟨_, ⟨_, hr⟩ | ⟨_, _, _, hr⟩⟩ <;>
    rw [hr] at h <;> cases h
  exact ⟨_, _, rfl⟩

/-- No commit leaves a cell unwritten that was written: the encoders write bytes, the others keep every cell. -/
theorem written_of_exec {i : Instr} {s t : State} (h : exec i s = .next t) {x : Nat}
    (hx : (s.mem.byteAt x).isSome = true) : (t.mem.byteAt x).isSome = true := by
  have hwrites {u : State} (hu : ∃ a bs, u.mem = s.mem.writeBytes a bs) : (u.mem.byteAt x).isSome = true := by
    obtain ⟨a, bs, hmem⟩ := hu
    rw [hmem]
    exact Memory.written_writeBytes hx a bs
  rcases exec_cases h with ⟨u, hu, hc, rfl⟩ | ⟨e, g, _, rfl, _, _⟩
  · cases i
    case icmpEnc => exact hwrites (u := u) (icmpEncRule_ok_mem hu)
    case echoBuildV4 | echoBuildV6 => exact hwrites (u := u) (echoBuildRule_ok_mem hu)
    all_goals rw [State.complete_mem, hc.bytes x id]; exact hx
  · exact hx

theorem written_of_hostAccess {a : HostAccess} {s t : State} (h : hostAccess a s = .next t) {x : Nat}
    (hx : (s.mem.byteAt x).isSome = true) : (t.mem.byteAt x).isSome = true := by
  rcases hostAccess_cases h with ⟨_, _, _, _, ⟨_, _, rfl⟩ | ⟨_, rfl⟩⟩ | ⟨off, _, v, _, _, _, rfl⟩ |
    ⟨_, _, _, _, ⟨_, rfl⟩ | ⟨_, _, _, rfl⟩⟩ | ⟨y, _, v, _, _, _, rfl⟩
  case inr.inl => rw [State.replied_mem, (writeOffset_keeps s off v).1]; exact hx
  case inr.inr.inr => exact Memory.written_writeBytes hx y.toNat [v.setWidth 8]
  all_goals exact hx

/-- Settles O59: the block's step and the host's access keep written cells written; the reset move is excluded. -/
theorem writtenCellsStayWritten : Obligations.WrittenCellsStayWritten := by
  intro s t h hreset x hx
  rcases step_cases h with ⟨_, hrun⟩ | ⟨_, _, rfl⟩ | ⟨a, rest, _, hacc⟩ | ⟨rest, ha, _⟩
  · rcases blockStep_cases hrun with ⟨i, _, hi⟩ | ⟨_, _, rfl⟩
    · exact written_of_exec hi hx
    · exact hx
  · exact hx
  · exact written_of_hostAccess hacc hx
  · exact absurd ha (hreset rest)

end Sys2Proof.Machine

/-! The laws of the checksum (00_scope.md R17, 40_checksum.md R100, R107 to R109, 70_reset_and_hazards.md R245). -/

namespace Sys2Proof.Machine

open Sys2Proof.Safety

/-! ### Fold -/

/-- A sum without a carry is left alone by another two passes. -/
theorem twoPass_of_le {n : Nat} (h : n ≤ 0xFFFF) : twoPass n = n := by
  simp only [twoPass]; omega

/-- Settles O14: `Fold` is the two-pass number, whose bound, residue and zero `twoPass_spec` gives. -/
theorem foldLeavesNoCarry : Obligations.FoldLeavesNoCarry := by
  intro s
  obtain ⟨hle, hmod, hzero⟩ := twoPass_spec s.isLt
  rw [← fold_eq_twoPass] at hle hmod hzero
  refine ⟨fold_eq_twoPass s, hle, twoPass_of_le hle, hmod, ?_, cks_toNat s⟩
  rw [hzero, ← BitVec.toNat_inj]
  rfl

/-- A finished checksum is 0 exactly where the sum folds to `0xFFFF` (40_checksum.md R109). -/
theorem checksumOf_eq_zero_iff {n : Nat} (h : n < 2 ^ 32) : checksumOf n = 0#16 ↔ twoPass n = 0xFFFF := by
  obtain ⟨hle, _⟩ := twoPass_spec h
  rw [← BitVec.toNat_inj, checksumOf_toNat h]
  simp only [BitVec.toNat_ofNat]
  omega

/-- A finished checksum is `0xFFFF` exactly where the sum is 0 (40_checksum.md R109). -/
theorem checksumOf_eq_ones_iff {n : Nat} (h : n < 2 ^ 32) : checksumOf n = 0xFFFF#16 ↔ n = 0 := by
  obtain ⟨hle, _, hzero⟩ := twoPass_spec h
  rw [← BitVec.toNat_inj, checksumOf_toNat h, ← hzero]
  simp only [BitVec.toNat_ofNat]
  omega

/-- A sum that takes in its own checksum finishes to 0 (40_checksum.md R108): modulo 65535 the two cancel, and the sum
is not 0. -/
theorem checksumOf_add_checksumOf {n : Nat} (h : n + 0xFFFF < 2 ^ 32) :
    checksumOf (n + (checksumOf n).toNat) = 0#16 := by
  have hn : n < 2 ^ 32 := by omega
  obtain ⟨hle, hmod, hzero⟩ := twoPass_spec hn
  rw [checksumOf_toNat hn]
  have hsum : n + (65535 - twoPass n) < 2 ^ 32 := by omega
  obtain ⟨hle', hmod', hzero'⟩ := twoPass_spec hsum
  rw [checksumOf_eq_zero_iff hsum]
  omega

/-! ### The accumulator -/

/-- The exact sum of a whole buffer's words (40_checksum.md R100). -/
theorem wordSum_le_of_length_le {bs : List Byte} (h : bs.length ≤ 65536) : wordSum bs ≤ 0x7FFF8000 := by
  have := wordSum_le bs
  omega

/-- The accumulator's value and flag depend on the sum of the words alone. -/
theorem accAdd_congr {acc : Word} {ws vs : List Half} (h : (ws.map BitVec.toNat).sum = (vs.map BitVec.toNat).sum) :
    accAdd acc ws = accAdd acc vs := by
  apply Prod.ext
  · rw [accAdd_fst, accAdd_fst, h]
  · rw [accAdd_snd, accAdd_snd, h]

/-- Settles O15: the loop in closed form; the sum of a permutation is the sum; a span's sum is that of its bytes. -/
theorem accAddIsTheWrappedSum : Obligations.AccAddIsTheWrappedSum := by
  refine ⟨fun acc ws => ⟨?value, ?flag, fun vs hp => ?order⟩, fun m a n ws hn hw => ?span⟩
  case value => rw [accAdd_fst, BitVec.toNat_ofNat]
  case flag => rw [accAdd_snd, decide_eq_true_eq]
  case order => exact accAdd_congr (hp.map _).sum_eq.symm
  case span =>
    rcases words_cases m a n with ⟨bs, hl, _, hbs⟩ | ⟨_, he⟩
    · rw [hw] at hbs
      cases hbs
      have hle : wordSum bs ≤ 0x7FFF8000 := wordSum_le_of_length_le (by omega)
      rw [accAdd_snd, accAdd_fst, sum_wordsOf]
      simp
      omega
    · rw [hw] at he; cases he

/-- `Cks` of the accumulator after words whose exact sum fits it. -/
theorem cks_accAdd {ws : List Half} {n : Nat} (hs : (ws.map BitVec.toNat).sum = n) (h : n < 2 ^ 32) :
    cks (accAdd 0#32 ws).1 = checksumOf n :=
  congrArg State.csumRes (State.oneShot_eq State.reset hs h)

/-- Settles O16: each zero is one value of the finished checksum of the exact sum. -/
theorem neitherZeroIsRemapped : Obligations.NeitherZeroIsRemapped := by
  refine ⟨fun ws hlt => ?ones, fun acc => ?zero⟩
  case ones =>
    rw [cks_accAdd rfl hlt, checksumOf_eq_ones_iff hlt, List.sum_eq_zero_iff]
    simp [← BitVec.toNat_inj]
  case zero => rw [cks_eq_checksumOf, checksumOf_eq_zero_iff acc.isLt]

/-! ### Incremental sums -/

/-- `CSUM_ADDW` for each of some words whose sum still fits: the accumulator has them all, no flag is raised and the
buffer is untouched (40_checksum.md R102, R107). -/
theorem addwAll_of_lt (ws : List Half) {s : State} (ho : s.status.ovf = false)
    (hlt : s.csumAcc.toNat + (ws.map BitVec.toNat).sum < 2 ^ 32) :
    ∃ t, addwAll ws s = .next t ∧ t.csumAcc.toNat = s.csumAcc.toNat + (ws.map BitVec.toNat).sum ∧
      t.status.ovf = false ∧ t.mem = s.mem := by
  induction ws generalizing s with
  | nil => exact ⟨s, rfl, rfl, ho, rfl⟩
  | cons w ws ih =>
    rw [List.map_cons, List.sum_cons] at hlt ⊢
    obtain ⟨t, ht, hacc, hovf, hmem⟩ := ih
      (s := { s with
        opnd := { s.opnd with opa := w }
        csumAcc := BitVec.ofNat 32 (s.csumAcc.toNat + w.toNat)
        status := { completed s.status 0#4 with
          ovf := s.status.ovf || decide (2 ^ 32 ≤ s.csumAcc.toNat + w.toNat) } })
      (by simp [ho]; omega) (by simp; omega)
    refine ⟨t, ?_, ?_, hovf, hmem⟩
    · rw [addwAll, csumAddwAddsTheOperand.2, andThen]
      exact ht
    · rw [hacc]; simp; omega

/-- The exact sum of a message: its header words, the zero checksum field among them, and its body. -/
theorem sum_headerWords_append (ty co : Byte) (ident seq : Half) (body : List Byte) :
    ((headerWords ty co ident seq ++ wordsOf body).map BitVec.toNat).sum =
      ty.toNat * 256 + co.toNat + ident.toNat + seq.toNat + wordSum body := by
  rw [List.map_append, List.sum_append, sum_wordsOf]
  simp [headerWords, append_toNat]
  omega

/-- The exact sum of a message of at most 65536 bytes fits the accumulator, with a checksum word to spare. -/
theorem message_sum_lt (ty co : Byte) (ident seq : Half) {body : List Byte} (hl : body.length ≤ 65528) :
    ty.toNat * 256 + co.toNat + ident.toNat + seq.toNat + wordSum body + 0xFFFF < 2 ^ 32 := by
  have := ty.isLt
  have := co.isLt
  have := ident.isLt
  have := seq.isLt
  have := wordSum_le body
  omega

theorem withSource_srcLen {s : State} {a : Half} {n : Nat} (h : n ≤ 65536) :
    (withSource s a n).opnd.srcLen.toNat = n := by
  simp [withSource]; omega

/-- `CSUM_ADDB` over a written body and `CSUM_FIN` after it, where the sum fits the accumulator
(40_checksum.md R103, R105). -/
theorem addb_then_fin_of_holds {s : State} {b : Half} {body : List Byte} (ho : s.status.ovf = false)
    (hfit : b.toNat + body.length ≤ 65536) (hbody : spanHolds s.mem b.toNat body)
    (hlt : s.csumAcc.toNat + wordSum body < 2 ^ 32) :
    ∃ t, andThen (exec .csumAddb (withSource s b body.length)) (exec .csumFin) = .next t ∧
      t.csumRes = checksumOf (s.csumAcc.toNat + wordSum body) ∧
      t.status.ovf = false ∧ t.status.err = 0#4 ∧ t.mem = s.mem := by
  have hn : (withSource s b body.length).opnd.srcLen.toNat = body.length := withSource_srcLen (by omega)
  have hadd := (csumAddbAddsTheSpan.2 (withSource s b body.length)).2.1 body (by rw [hn]; exact hfit) hn.symm hbody
  rw [hadd, andThen, csumFinFinishesTheAccumulator.2]
  refine ⟨_, rfl, ?res, ?flag, rfl, rfl⟩
  case res =>
    change checksumOf (BitVec.ofNat 32 (s.csumAcc.toNat + wordSum body)).toNat = _
    rw [BitVec.toNat_ofNat, Nat.mod_eq_of_lt hlt]
  case flag =>
    change (s.status.ovf || decide (2 ^ 32 ≤ s.csumAcc.toNat + wordSum body)) = false
    rw [ho, Bool.false_or, decide_eq_false_iff_not]
    omega

/-- Settles O22: the four header words and the body's words make up the message's exact sum, which fits the
accumulator, so no step of the run raises the flag. -/
theorem incrementalSumEqualsOneShot : Obligations.IncrementalSumEqualsOneShot := by
  intro s ty co ident seq b body hws hlen hfit hbody hperm
  have hlt := message_sum_lt ty co ident seq hlen
  have hsum : (0#32).toNat + (hws.map BitVec.toNat).sum =
      ty.toNat * 256 + co.toNat + ident.toNat + seq.toNat := by
    rcases hperm with hp | hp <;> rw [(hp.map _).sum_eq] <;> simp [append_toNat] <;> omega
  obtain ⟨t, hrun, hacc, hovf, hmem⟩ := addwAll_of_lt hws
    (s := { s with csumAcc := 0#32, status := { completed s.status 0#4 with ovf := false } }) rfl
    (by rw [hsum]; linarith)
  replace hacc := hacc.trans hsum
  obtain ⟨u, hu, hres, hovfu, herr, hmemu⟩ := addb_then_fin_of_holds (body := body) hovf hfit (hmem ▸ hbody)
    (by rw [hacc]; linarith)
  rw [hacc] at hres
  refine ⟨u, wordsOf body, ?run, words_of_holds hbody, ?oneShot, hres, hovfu, herr, hmemu.trans hmem⟩
  case run => rw [csumClrClearsTheAccumulator.2, andThen, hrun, andThen, hu]
  case oneShot => rw [hres, computeChecksum, cks_accAdd (sum_headerWords_append ty co ident seq body) (by linarith)]

/-! ### Self-check -/

/-- The exact sum of a message on the wire, with any word in its checksum field. -/
theorem wordSum_headerBytes_append (ty co : Byte) (c ident seq : Half) (body : List Byte) :
    wordSum (headerBytes ty co c ident seq ++ body) =
      ty.toNat * 256 + co.toNat + ident.toNat + seq.toNat + wordSum body + c.toNat := by
  have hc := hiByte_loByte c
  have hi := hiByte_loByte ident
  have hs := hiByte_loByte seq
  simp only [headerBytes, List.cons_append, List.nil_append, wordSum]
  linarith

/-- Settles O23: the span's exact sum is the message's with its own checksum added, which finishes to 0. -/
theorem messageWithItsChecksumVerifies : Obligations.MessageWithItsChecksumVerifies := by
  intro s ty co ident seq body c msg hlen hfit hsrc hholds
  have hsum : checksumOf (wordSum msg) = 0#16 := by
    rw [wordSum_headerBytes_append, checksumOf_add_checksumOf (message_sum_lt ty co ident seq hlen)]
  refine ⟨_, (csumBufChecksumsTheSpan.2 s).2.1 msg (hsrc ▸ hfit) hsrc.symm hholds, hsum, ?_, rfl⟩
  exact decide_eq_true hsum

/-- The frame `ECHO_BUILD` leaves: the header it wrote, with the checksum of the message, and the body it left
(41_icmp_codec.md R122). -/
theorem echoBuild_frame {s : State} {i : Instr} {ty : Byte}
    (hi : (i = .echoBuildV4 ∧ ty = 8#8) ∨ (i = .echoBuildV6 ∧ ty = 128#8))
    (hfit : s.opnd.dstAddr.toNat + 8 + s.opnd.bodyLen.toNat ≤ 65536)
    (hw : spanWritten s.mem (s.opnd.dstAddr.toNat + 8) s.opnd.bodyLen.toNat) :
    ∃ (t : State) (body : List Byte), exec i s = .next t ∧ body.length = s.opnd.bodyLen.toNat ∧
      t.frameLen = BitVec.ofNat 17 (8 + s.opnd.bodyLen.toNat) ∧
      t.csumRes = checksumOf (ty.toNat * 256 + s.opnd.txIdent.toNat + s.opnd.txSeq.toNat + wordSum body) ∧
      spanHolds t.mem s.opnd.dstAddr.toNat (headerBytes ty 0#8 t.csumRes s.opnd.txIdent s.opnd.txSeq ++ body) := by
  obtain ⟨body, hl, hbody⟩ := holds_of_spanWritten hw
  obtain ⟨m, hexec, hheader, hrest⟩ := (echoBuildWritesTheRequest.2 s i ty hi).2.1 body hfit hl hbody
  refine ⟨_, body, hexec, hl, rfl, rfl, (spanHolds_append _ _ _ _).mpr ⟨hheader, fun k hk => ?_⟩⟩
  rw [headerBytes_length]
  exact (hrest _ (by unfold inSpan; omega)).trans (hbody k hk)

/-- Settles O24: the frame just built is a message that carries its own checksum. -/
theorem builtEchoRequestVerifies : Obligations.BuiltEchoRequestVerifies := by
  intro s i hi hfit hw
  obtain ⟨ty, hty⟩ : ∃ ty : Byte, (i = .echoBuildV4 ∧ ty = 8#8) ∨ (i = .echoBuildV6 ∧ ty = 128#8) := by
    rcases hi with rfl | rfl
    · exact ⟨_, .inl ⟨rfl, rfl⟩⟩
    · exact ⟨_, .inr ⟨rfl, rfl⟩⟩
  obtain ⟨t, body, hexec, hl, hframe, hres, hholds⟩ := echoBuild_frame hty hfit hw
  have hcode : ty.toNat * 256 + s.opnd.txIdent.toNat + s.opnd.txSeq.toNat + wordSum body =
      ty.toNat * 256 + (0#8).toNat + s.opnd.txIdent.toNat + s.opnd.txSeq.toNat + wordSum body := by simp
  rw [hres, hcode] at hholds
  have hlen : t.frameLen.toNat = 8 + body.length := by rw [hframe, BitVec.toNat_ofNat, hl]; omega
  have hsrc : (withSource t s.opnd.dstAddr t.frameLen.toNat).opnd.srcLen.toNat = 8 + body.length := by
    rw [withSource_srcLen (by omega), hlen]
  obtain ⟨u, hu⟩ := messageWithItsChecksumVerifies (withSource t s.opnd.dstAddr t.frameLen.toNat) ty 0#8
    s.opnd.txIdent s.opnd.txSeq body (by omega)
    (by rw [List.length_append, headerBytes_length]; change s.opnd.dstAddr.toNat + _ ≤ _; omega)
    (by rw [hsrc, List.length_append, headerBytes_length]) hholds
  exact ⟨t, u, hexec, hu⟩

end Sys2Proof.Machine

/-! The decoders and the receive chain (41_icmp_codec.md R124, 42_ipv4_decoder.md R141 to R143, 43_ipv6_decoder.md R161,
R165, 44_chain_and_nop.md R180 to R182). -/

namespace Sys2Proof.Machine

open Sys2Proof.Safety

/-! ### The ICMP header -/

/-- `ICMP_DEC` and `RX_PARSE` V6 run one rule (44_chain_and_nop.md R182). -/
theorem ruleOf_icmpDecode {i : Instr} (hi : i = .icmpDec ∨ i = .rxParseV6) (s : State) :
    ruleOf i s = icmpDecRule s ∧ checkedEnd i s = s.opnd.srcAddr.toNat + s.opnd.srcLen.toNat := by
  rcases hi with rfl | rfl <;> exact ⟨rfl, rfl⟩

/-- Inside the buffer the ICMP decoder's rule answers what its fields answer. -/
theorem icmpDecRule_of_icmpFields {s : State} (hb : s.opnd.srcAddr.toNat + s.opnd.srcLen.toNat ≤ 65536)
    {r : Except Stop IcmpBank} (hr : icmpFields s.mem s.opnd.srcAddr.toNat s.opnd.srcLen.toNat false = r) :
    icmpDecRule s = r.map s.withRx := by
  rw [icmpDecRule_eq, if_pos hb, hr]

/-- Settles O27: the bounds case from the checked end, the other three from what the header's fields answer. -/
theorem icmpDecodeReadsTheHeader : Obligations.IcmpDecodeReadsTheHeader := by
  refine ⟨⟨rfl, rfl⟩, fun s i hi => ?_⟩
  obtain ⟨hrule, hend⟩ := ruleOf_icmpDecode hi s
  intro a n
  refine ⟨fun hgt => exec_of_checkedEnd_gt (hend ▸ hgt), fun hb hn => ?short,
    fun b0 b1 b2 b3 b4 b5 b6 b7 hb hn hh => ?holds, fun hb hn hw => ?unwritten⟩
  case short =>
    exact exec_of_ruleOf_raised (hrule.trans (icmpDecRule_of_icmpFields hb (icmpFields_of_short s.mem hn false)))
  case holds =>
    exact exec_of_ruleOf_ok (hrule.trans (icmpDecRule_of_icmpFields hb (icmpFields_of_holds hn false hh)))
  case unwritten =>
    exact (exec_fault_iff i s _).mpr
      (hrule.trans (icmpDecRule_of_icmpFields hb (icmpFields_of_unwritten hn false hw)))

/-- `ICMP_DEC` over a frame that starts with a header's wire bytes: the fields come back as they were written
(41_icmp_codec.md R123). -/
theorem icmpDec_of_headerBytes {t : State} {d : Half} {n : Nat} {ty co : Byte} {c ident seq : Half}
    (hfit : d.toNat + 8 + n ≤ 65536) (hh : spanHolds t.mem d.toNat (headerBytes ty co c ident seq)) :
    ∃ u, exec .icmpDec (withSource t d (8 + n)) = .next u ∧ u.status.err = 0#4 ∧
      u.rx = { type := ty, code := co, csum := c, ident := ident, seq := seq,
               bodyAddr := BitVec.ofNat 17 (d.toNat + 8), bodyLen := BitVec.ofNat 17 n } := by
  have hn : (withSource t d (8 + n)).opnd.srcLen.toNat = 8 + n := withSource_srcLen (by omega)
  have hb : (withSource t d (8 + n)).opnd.srcAddr.toNat + (withSource t d (8 + n)).opnd.srcLen.toNat ≤ 65536 := by
    rw [hn]; change d.toNat + (8 + n) ≤ 65536; omega
  refine ⟨_, (icmpDecodeReadsTheHeader.2 _ .icmpDec (.inl rfl)).2.2.1 _ _ _ _ _ _ _ _ hb (by omega) hh, rfl, ?_⟩
  simp only [hiByte_append_loByte, hn, Nat.add_sub_cancel_left]
  rfl

/-- Settles O28: each encoder leaves the wire bytes of a header at `DST_ADDR`, which decode back. -/
theorem encodedHeaderDecodesBack : Obligations.EncodedHeaderDecodesBack := by
  refine fun s n hfit => ⟨?enc, fun i ty hi hn hw => ?build⟩
  case enc =>
    obtain ⟨m, hexec, hheader, _⟩ := (icmpEncWritesTheHeader.2 s).2 (by omega)
    obtain ⟨u, hu⟩ := icmpDec_of_headerBytes
      (t := { s with mem := m, status := completed s.status 0#4 }) hfit hheader
    exact ⟨_, u, hexec, hu⟩
  case build =>
    subst hn
    obtain ⟨t, body, hexec, _, _, _, hholds⟩ := echoBuild_frame hi hfit hw
    obtain ⟨u, hu⟩ := icmpDec_of_headerBytes hfit ((spanHolds_append _ _ _ _).mp hholds).1
    exact ⟨t, u, hexec, hu⟩

/-! ### The IPv4 header -/

/-- The order of the IPv4 stage's tests once its first byte is read (42_ipv4_decoder.md R141 to R143). -/
theorem v4Fields_of_some {m : Memory} {a n : Nat} {b : Byte} (hn : 1 ≤ n) (hb : m.byteAt a = some b) :
    v4Fields m a n =
      if b.toNat / 16 ≠ 4 then .error (.raised .unsupportedVersion false)
      else if n < 20 then .error (.raised .truncatedInput false)
      else if b.toNat % 16 * 4 < 20 then .error (.raised .malformedHeader false)
      else if n < b.toNat % 16 * 4 then .error (.raised .truncatedInput false)
      else v4Bank m a n (loNibble b) := by
  rw [v4Fields, if_neg (Nat.not_lt.mpr hn), memByte_of_some hb]
  simp only [bind, Except.bind, ne_eq, hiNibble_eq_iff, hdrBytes_loNibble]
  rfl

/-- Where the IPv4 stage does not succeed, `IPV4_DEC` and `RX_PARSE` V4 end as it does (44_chain_and_nop.md R181). -/
theorem ruleOf_of_v4Fields_error {i : Instr} (hi : i = .ipv4Dec ∨ i = .rxParseV4) {s : State} {e : Stop}
    (hb : s.opnd.srcAddr.toNat + s.opnd.srcLen.toNat ≤ 65536)
    (hv : v4Fields s.mem s.opnd.srcAddr.toNat s.opnd.srcLen.toNat = .error e) : ruleOf i s = .error e := by
  rcases hi with rfl | rfl
  · rw [ruleOf, ipv4DecRule_eq, if_pos hb, hv]; rfl
  · exact rxParseV4Rule_of_v4Fields_error hb hv

/-- Settles O30: the bounds case from the checked end; in bounds the fields answer at the first of their tests that
fails. -/
theorem ipv4VersionIsTestedFirst : Obligations.Ipv4VersionIsTestedFirst := by
  intro s i hi a n
  have raised {e : BlockError} (he : a + n ≤ 65536) (hv : v4Fields s.mem a n = .error (.raised e false)) :
      exec i s = .next { s with status := completed s.status e.toCode } :=
    exec_of_ruleOf_raised (ruleOf_of_v4Fields_error hi he hv)
  refine ⟨fun hgt => ?bounds, fun he h0 => ?empty, fun he hn hx => ?unwritten,
    fun b he hn hb => ⟨fun hv => ?version, fun hv h20 => ?short, fun hv h20 hihl => ?malformed,
      fun hv h20 hihl hhl => ?options⟩⟩
  case bounds => exact exec_of_checkedEnd_gt (by rcases hi with rfl | rfl <;> exact hgt)
  case empty => exact raised he (by rw [h0]; rfl)
  case unwritten =>
    exact (exec_fault_iff i s _).mpr (ruleOf_of_v4Fields_error hi he (v4Fields_of_unwritten hn (.inl rfl) hx))
  case version => exact raised he (by rw [v4Fields_of_some hn hb, if_pos hv])
  case short => exact raised he (by rw [v4Fields_of_some hn hb, if_neg (not_not_intro hv), if_pos h20])
  case malformed =>
    exact raised he (by rw [v4Fields_of_some hn hb, if_neg (not_not_intro hv), if_neg (by omega), if_pos (by omega)])
  case options =>
    exact raised he (by
      rw [v4Fields_of_some hn hb, if_neg (not_not_intro hv), if_neg (by omega), if_neg (by omega), if_pos (by omega)])

/-- The first byte of a header, as its one-byte field. -/
theorem field_zero_one {m : Memory} {a : Nat} {h : List Byte} (hl : 0 < h.length) (hh : spanHolds m a h) :
    ∃ b, m.byteAt a = some b ∧ field h 0 1 = b.toNat := by
  cases h with
  | nil => cases hl
  | cons b rest => exact ⟨b, ((spanHolds_cons m a b rest).mp hh).1, by simp [field, beValue]⟩

/-- Settles O29: the tests leave the bank to be read, and each of its fields is the header's. -/
theorem ipv4DecodeFillsTheBank : Obligations.Ipv4DecodeFillsTheBank := by
  intro s h a n ihl hb hl hh hv hmin hfit
  obtain ⟨b, hx, hfirst⟩ := field_zero_one (by omega) hh
  have hihl : ihl = b.toNat % 16 := congrArg (· % 16) hfirst
  rw [hfirst] at hv
  have hread : v4Fields s.mem a n = v4Bank s.mem a n (loNibble b) := by
    rw [v4Fields_of_some (by omega) hx, if_neg (not_not_intro hv), if_neg (by omega), if_neg (by omega),
      if_neg (by omega)]
  have hrule : ruleOf .ipv4Dec s = (v4Bank s.mem a n (loNibble b)).map s.withV4 := by
    rw [ruleOf, ipv4DecRule_eq, if_pos hb, hread]
  have hnib : loNibble b = BitVec.ofNat 4 ihl := by
    rw [hihl, ← loNibble_toNat, BitVec.ofNat_toNat, BitVec.setWidth_eq]
  have hhdr : hdrBytes (BitVec.ofNat 4 ihl) = 4 * ihl := by
    rw [← hnib, hdrBytes_loNibble, hihl, Nat.mul_comm]
  rw [v4Bank_of_holds hl hh, hnib, hhdr] at hrule
  exact exec_of_ruleOf_ok hrule

theorem toCode_eq_two_iff (e : BlockError) : e.toCode = 2#4 ↔ e = .malformedHeader := by cases e <;> decide

theorem mayRaise_malformed_iff (i : Instr) : 2 ∈ mayRaise i ↔ i = .ipv4Dec ∨ i = .rxParseV4 := by
  cases i <;> decide

/-- A rule that raises `MALFORMED_HEADER` has passed its bounds check and raised it in the IPv4 stage. -/
theorem v4Fields_of_malformed {i : Instr} (hi : i = .ipv4Dec ∨ i = .rxParseV4) {s : State} {g : Bool}
    (hr : ruleOf i s = .error (.raised .malformedHeader g)) :
    s.opnd.srcAddr.toNat + s.opnd.srcLen.toNat ≤ 65536 ∧
      v4Fields s.mem s.opnd.srcAddr.toNat s.opnd.srcLen.toNat = .error (.raised .malformedHeader g) := by
  have hend : checkedEnd i s = s.opnd.srcAddr.toNat + s.opnd.srcLen.toNat := by rcases hi with rfl | rfl <;> rfl
  rcases ruleOf_checksEnd i s with ⟨_, hbounds⟩ | ⟨hb, _⟩
  · rw [hr] at hbounds; cases hbounds
  · rw [hend] at hb
    refine ⟨hb, ?_⟩
    cases hv : v4Fields s.mem s.opnd.srcAddr.toNat s.opnd.srcLen.toNat with
    | error e =>
      rw [ruleOf_of_v4Fields_error hi hb hv] at hr
      cases hr
      rfl
    | ok v =>
      rcases hi with rfl | rfl
      · rw [ruleOf, ipv4DecRule_eq, if_pos hb, hv] at hr; cases hr
      · rw [ruleOf, rxParseV4Rule_eq, if_pos hb] at hr
        simp only [hv] at hr
        rcases icmpFields_outcomes s.mem (s.opnd.srcAddr.toNat + hdrBytes v.ihl)
          (s.opnd.srcLen.toNat - hdrBytes v.ihl) true with ⟨_, hf⟩ | ⟨_, _, hf⟩ | ⟨_, _, _, hf, _⟩ <;>
          rw [hf] at hr <;> cases hr

/-- Settles O31: forwards the IPv4 stage raises it for a short IHL alone, backwards the order of the stage's tests. -/
theorem malformedHeaderOnlyForShortIhl : Obligations.MalformedHeaderOnlyForShortIhl := by
  intro i s t h
  constructor
  · intro herr
    rcases exec_cases h with ⟨u, _, _, rfl⟩ | ⟨e, g, hr, rfl, hm, _⟩
    · exact absurd herr (by decide : (0#4 : BitVec 4) ≠ 2#4)
    · obtain rfl := (toCode_eq_two_iff e).mp herr
      have hi := (mayRaise_malformed_iff i).mp hm
      obtain ⟨hb, hv⟩ := v4Fields_of_malformed hi hr
      rcases v4Fields_outcomes s.mem s.opnd.srcAddr.toNat s.opnd.srcLen.toNat with
        ⟨e, he, _, _, hiff⟩ | ⟨he, _⟩ | ⟨_, _, he, _⟩ <;> rw [hv] at he <;> cases he
      exact ⟨hi, hb, hiff.mp rfl⟩
  · rintro ⟨hi, hb, hn, b, hx, hv, hihl⟩
    have hexec := ((ipv4VersionIsTestedFirst s i hi).2.2.2 b hb (by omega) hx).2.2.1 hv hn hihl
    rw [h] at hexec
    cases hexec
    rfl

/-! ### The IPv6 header -/

/-- Two fields side by side, as a number. -/
theorem append_eq_ofNat {m n : Nat} (x : BitVec m) (y : BitVec n) :
    x ++ y = BitVec.ofNat (m + n) (x.toNat * 2 ^ n + y.toNat) := by
  have h : (x ++ y).toNat = x.toNat * 2 ^ n + y.toNat := by
    rw [BitVec.toNat_append, Nat.shiftLeft_eq, Nat.mul_comm, ← Nat.two_pow_add_eq_or_of_lt y.isLt]
  rw [← h, BitVec.ofNat_toNat, BitVec.setWidth_eq]

theorem field_lt (h : List Byte) (off n : Nat) : field h off n < 256 ^ n :=
  (beValue_lt _).trans_le (Nat.pow_le_pow_right (by decide) (List.length_take_le _ _))

/-- Version 6 over at least 40 bytes leaves the bank to be read. -/
theorem v6Fields_of_version_six {m : Memory} {a n : Nat} {b : Byte} (hb : m.byteAt a = some b)
    (hv : b.toNat / 16 = 6) (hn : 40 ≤ n) : v6Fields m a n = v6Bank m a n b := by
  have hsix : hiNibble b = 6#4 := (hiNibble_eq_iff b 6#4).mpr hv
  rw [v6Fields, if_neg (by omega), memByte_of_some hb]
  exact (if_neg (not_not_intro hsix)).trans (if_neg (by omega))

/-- Settles O32: the tests leave the bank to be read, and each of its fields is the header's; the two fields that share
a byte are its nibbles side by side with the next. -/
theorem ipv6DecodeFillsTheBank : Obligations.Ipv6DecodeFillsTheBank := by
  intro s h a n hb hl hh hv hn
  obtain ⟨b, hx, hfirst⟩ := field_zero_one (by omega) hh
  rw [hfirst] at hv
  obtain ⟨b1, _, hsecond, hbank⟩ := v6Bank_of_holds hl hh n b
  have htclass : loNibble b ++ hiNibble b1 = BitVec.ofNat 8 (field h 0 1 % 16 * 16 + field h 1 1 / 16) := by
    rw [append_eq_ofNat, loNibble_toNat, hiNibble_toNat, hfirst, hsecond]
    rfl
  have hlow : field h 2 2 < 2 ^ 16 := field_lt h 2 2
  have hflow : loNibble b1 ++ BitVec.ofNat 16 (field h 2 2) =
      BitVec.ofNat 20 (field h 1 1 % 16 * 65536 + field h 2 2) := by
    rw [append_eq_ofNat, loNibble_toNat, BitVec.toNat_ofNat, Nat.mod_eq_of_lt hlow, hsecond]
    rfl
  have hrule : ruleOf .ipv6Dec s = (v6Bank s.mem a n b).map s.withV6 := by
    rw [ruleOf, ipv6DecRule_eq, if_pos hb, v6Fields_of_version_six hx hv hn]
  rw [hbank, htclass, hflow] at hrule
  exact exec_of_ruleOf_ok hrule

/-! ### The receive chain -/

/-- A commit of `IPV4_DEC` is the bank its stage read. -/
theorem ipv4DecRule_ok {s u : State} (h : ipv4DecRule s = .ok u) :
    s.opnd.srcAddr.toNat + s.opnd.srcLen.toNat ≤ 65536 ∧
      ∃ v, v4Fields s.mem s.opnd.srcAddr.toNat s.opnd.srcLen.toNat = .ok v ∧ u = s.withV4 v := by
  rw [ipv4DecRule_eq] at h
  split at h
  · rename_i hb
    refine ⟨hb, ?_⟩
    cases hv : v4Fields s.mem s.opnd.srcAddr.toNat s.opnd.srcLen.toNat with
    | error e => rw [hv] at h; cases h
    | ok v => rw [hv] at h; cases h; exact ⟨v, rfl, rfl⟩
  · cases h

/-- Where the rule of `IPV4_DEC` does not commit, that of `RX_PARSE` V4 ends as it does. -/
theorem rxParseV4Rule_of_ipv4DecRule_error {s : State} {e : Stop} (h : ipv4DecRule s = .error e) :
    rxParseV4Rule s = .error e := by
  rw [ipv4DecRule_eq] at h
  rw [rxParseV4Rule_eq]
  split at h
  · rename_i hb
    rw [if_pos hb]
    cases hv : v4Fields s.mem s.opnd.srcAddr.toNat s.opnd.srcLen.toNat with
    | error e => rw [hv] at h; cases h; rfl
    | ok v => rw [hv] at h; cases h
  · rename_i hb
    rw [if_neg hb, h]

/-- After an IPv4 stage that succeeds, the chain's rule answers what the ICMP stage at the payload answers. -/
theorem rxParseV4Rule_of_v4Fields_ok {s : State} {v : Ipv4Bank} {hl : Nat} (hhl : hl = 4 * v.ihl.toNat)
    (hb : s.opnd.srcAddr.toNat + s.opnd.srcLen.toNat ≤ 65536)
    (hv : v4Fields s.mem s.opnd.srcAddr.toNat s.opnd.srcLen.toNat = .ok v) {r : Except Stop IcmpBank}
    (hr : icmpFields s.mem (s.opnd.srcAddr.toNat + hl) (s.opnd.srcLen.toNat - hl) true = r) :
    rxParseV4Rule s = r.map (s.withV4 v).withRx := by
  have hdr : hdrBytes v.ihl = hl := by rw [hdrBytes, hhl, Nat.mul_comm]
  rw [rxParseV4Rule_eq, if_pos hb]
  simp only [hv, hdr, hr]

/-- Settles O34: an IPv4 stage that does not succeed ends the chain; after one that does, the ICMP stage's three answers
are the three clauses. -/
theorem rxParseV4ChainsBothStages : Obligations.RxParseV4ChainsBothStages := by
  intro s a n
  refine ⟨fun t h herr => ?stageError, fun f h => ?stageFault, fun t h herr => ?stageOk⟩
  case stageError =>
    rcases exec_cases h with ⟨u, _, _, rfl⟩ | ⟨e, g, hr, rfl, _, hg⟩
    · exact absurd rfl herr
    · have hg : g = false := Bool.eq_false_iff.mpr fun h => by cases (hg h).1
      subst hg
      refine ⟨?_, Bool.or_false _⟩
      rw [exec_eq_runCommand, ruleOf, rxParseV4Rule_of_ipv4DecRule_error hr, runCommand_raised]
  case stageFault =>
    exact (exec_fault_iff .rxParseV4 s f).mpr (rxParseV4Rule_of_ipv4DecRule_error ((exec_fault_iff .ipv4Dec s f).mp h))
  case stageOk =>
    obtain ⟨u, hu, rfl⟩ := exec_success h herr
    obtain ⟨hb, v, hv, rfl⟩ := ipv4DecRule_ok hu
    intro hl
    have hrule {r : Except Stop IcmpBank} (hr : icmpFields s.mem (a + hl) (n - hl) true = r) :
        ruleOf .rxParseV4 s = r.map (s.withV4 v).withRx := rxParseV4Rule_of_v4Fields_ok rfl hb hv hr
    refine ⟨fun hn => ?short, fun b0 b1 b2 b3 b4 b5 b6 b7 hn hh => ?holds, fun hn hw => ?unwritten⟩
    case short =>
      rw [exec_eq_runCommand, hrule (icmpFields_of_short s.mem (by omega) true)]
      simp [Except.map, State.fail, completed, BlockError.toCode]
    case holds => exact exec_of_ruleOf_ok (hrule (icmpFields_of_holds (by omega) true hh))
    case unwritten =>
      exact (exec_fault_iff .rxParseV4 s _).mpr (hrule (icmpFields_of_unwritten (by omega) true hw))

/-- A written header that passes its checks is read (42_ipv4_decoder.md R141). -/
theorem v4Fields_of_reaches {m : Memory} {a n : Nat} (hr : v4Reaches m a n) (hw : spanWritten m a 20) :
    ∃ v b, v4Fields m a n = .ok v ∧ V4Read m a n v b := by
  rcases v4Fields_outcomes m a n with ⟨_, _, _, hn | ⟨_, _, _, hnr⟩, _⟩ | ⟨_, _, hx | ⟨_, hnw⟩⟩ | hv
  · obtain ⟨_, _, _, _, _⟩ := hr
    omega
  · exact absurd hr hnr
  · obtain ⟨b, hb, _⟩ := hr
    rw [hx] at hb
    cases hb
  · exact absurd hw hnw
  · exact hv

/-- Settles O35: the IPv4 stage succeeds on a written header that passes its checks, and the chain's clause for 8
written bytes after it applies. -/
theorem rxParseV4CompletesOnAGoodDatagram : Obligations.RxParseV4CompletesOnAGoodDatagram := by
  intro s b b0 b1 b2 b3 b4 b5 b6 b7 a n hl hb hx hv hmin hfit hw hh
  have hreaches : v4Reaches s.mem a n := ⟨b, hx, hv, by omega, by omega⟩
  obtain ⟨v, c, hfields, hread⟩ := v4Fields_of_reaches hreaches hw
  have hihl : v.ihl.toNat = b.toNat % 16 := by
    obtain rfl : b = c := Option.some.inj (hx.symm.trans hread.first)
    exact hread.ihl
  have hexec : exec .ipv4Dec s = .next { s with v4 := v, status := completed s.status 0#4 } := by
    refine exec_of_ruleOf_ok (u := s.withV4 v) ?_
    rw [ruleOf, ipv4DecRule_eq, if_pos hb, hfields]
    rfl
  have hchain := ((rxParseV4ChainsBothStages s).2.2 _ hexec rfl).2.1 b0 b1 b2 b3 b4 b5 b6 b7
  simp only [hihl] at hchain
  exact ⟨v, hexec, hchain hfit hh⟩

end Sys2Proof.Machine

/-! What a completion changes, and the bytes that decide it (10_state.md R20 to R48, 20_memory.md R62, R67,
60_exceptions.md R202, R203). -/

namespace Sys2Proof.Machine

open Sys2Proof.Safety

/-! ### Errors and frames -/

/-- Settles O38: a commit has no error, a failure one of the command's own list. -/
theorem commandsRaiseOnlyTheirErrors : Obligations.CommandsRaiseOnlyTheirErrors := by
  intro i s t h
  rcases exec_cases h with ⟨u, _, _, rfl⟩ | ⟨e, g, _, rfl, hm, _⟩
  · exact .inl rfl
  · exact .inr hm

/-- Settles O39: a failure discards every staged write; ESTG alone is set, by the ICMP stage of the chain. -/
theorem failedCommandChangesOnlyStatus : Obligations.FailedCommandChangesOnlyStatus := by
  intro i s t h herr
  rcases exec_cases h with ⟨u, _, _, rfl⟩ | ⟨e, g, _, rfl, _, hg⟩
  · exact absurd rfl herr
  · refine ⟨rfl, ?_⟩
    cases g with
    | false => exact .inl (Bool.or_false _)
    | true =>
      obtain ⟨hi, rfl, _⟩ := hg rfl
      exact .inr ⟨hi, rfl⟩

/-- Settles O42: neither a commit nor a failure writes them. -/
theorem commandsKeepTheHostsRegisters : Obligations.CommandsKeepTheHostsRegisters := by
  intro i s t h
  rcases exec_cases h with ⟨u, _, hc, rfl⟩ | ⟨e, g, _, rfl, _, _⟩
  · exact ⟨hc.irqEn, hc.cmd, hc.opnd, hc.host⟩
  · exact ⟨rfl, rfl, rfl, rfl⟩

/-- Settles O43: a failure changes no result, and a commit only those of the command's own row. -/
theorem resultsChangeOnlyByTheirCommands : Obligations.ResultsChangeOnlyByTheirCommands := by
  intro i s t h
  rcases exec_cases h with ⟨u, _, hc, rfl⟩ | ⟨e, g, _, rfl, _, _⟩
  · refine ⟨fun hne => ⟨rfl, ?rx⟩, fun hne => ⟨rfl, ?v4⟩, fun hne => ⟨rfl, ?v6⟩, fun hne => ⟨rfl, ?res⟩,
      fun hne => ⟨rfl, ?frameLen⟩, fun hne => ⟨rfl, ?acc⟩⟩
    case rx => exact not_imp_comm.mp hc.rx hne
    case v4 => exact not_imp_comm.mp hc.v4 hne
    case v6 => exact not_imp_comm.mp hc.v6 hne
    case res => exact not_imp_comm.mp (fun hi => (hc.res hi).1) hne
    case frameLen => exact not_imp_comm.mp hc.frameLen hne
    case acc => exact not_imp_comm.mp (fun hi => (hc.acc hi).1) hne
  · refine ⟨?_, ?_, ?_, ?_, ?_, ?_⟩
    all_goals exact fun hne => absurd rfl hne

/-- Settles O47: a commit keeps the bytes outside the command's written set, a failure all of them. -/
theorem commandsWriteOnlyTheirBytes : Obligations.CommandsWriteOnlyTheirBytes := by
  intro i s t h
  rcases exec_cases h with ⟨u, _, hc, rfl⟩ | ⟨e, g, _, rfl, _, _⟩
  · exact ⟨hc.bytes, fun herr => absurd rfl herr⟩
  · exact ⟨fun _ _ => rfl, fun _ => rfl⟩

/-! ### The bytes a command needs -/

theorem v4Read_of_ok {m : Memory} {a n : Nat} {v : Ipv4Bank} (h : v4Fields m a n = .ok v) :
    ∃ b, V4Read m a n v b := by
  rcases v4Fields_outcomes m a n with ⟨_, he, _⟩ | ⟨he, _⟩ | ⟨_, b, he, hv⟩ <;> rw [h] at he <;> cases he
  exact ⟨b, hv⟩

/-- The ICMP stage of the chain starts where the read set of `RX_PARSE` V4 puts it. -/
theorem v4HdrLen_of_ok {m : Memory} {a n : Nat} {v : Ipv4Bank} (h : v4Fields m a n = .ok v) :
    v4Reaches m a n ∧ v4HdrLen m a = hdrBytes v.ihl ∧ hdrBytes v.ihl ≤ n := by
  obtain ⟨b, hv⟩ := v4Read_of_ok h
  refine ⟨hv.reaches, (v4HdrLen_of_some hv.first).trans hv.hdr.symm, ?_⟩
  rw [hdrBytes, Nat.mul_comm]
  exact hv.fits

/-- A property of every address of a span, told by offsets. -/
theorem forall_offset_of_inSpan {P : Nat → Prop} {a n : Nat} (h : ∀ x, inSpan a n x → P x) :
    ∀ k, k < n → P (a + k) :=
  fun k hk => h (a + k) ⟨by omega, by omega⟩

section

/-! A property of every byte a command reads, told of the spans its rule reads (20_memory.md R67). -/

variable {i : Instr} {s : State} {P : Nat → Prop} (hall : ∀ x, readsByte i s x → P x)

include hall

theorem forall_read_echoBuild (hi : i = .echoBuildV4 ∨ i = .echoBuildV6)
    (hb : s.opnd.dstAddr.toNat + (8 + s.opnd.bodyLen.toNat) ≤ 65536) :
    ∀ k, k < s.opnd.bodyLen.toNat → P (s.opnd.dstAddr.toNat + 8 + k) := by
  rcases hi with rfl | rfl <;> exact forall_offset_of_inSpan fun x hx => hall x ⟨by omega, hx⟩

variable (hb : s.opnd.srcAddr.toNat + s.opnd.srcLen.toNat ≤ 65536)

include hb

theorem forall_read_csum (hi : i = .csumAddb ∨ i = .csumBuf) :
    ∀ k, k < s.opnd.srcLen.toNat → P (s.opnd.srcAddr.toNat + k) := by
  rcases hi with rfl | rfl <;> exact forall_offset_of_inSpan fun x hx => hall x ⟨hb, hx⟩

theorem forall_read_icmp (hi : i = .icmpDec ∨ i = .rxParseV6) (hn : 8 ≤ s.opnd.srcLen.toNat) :
    ∀ k, k < 8 → P (s.opnd.srcAddr.toNat + k) := by
  rcases hi with rfl | rfl <;> exact forall_offset_of_inSpan fun x hx => hall x ⟨hb, hn, hx⟩

theorem forall_read_ipv4 (hi : i = .ipv4Dec ∨ i = .rxParseV4) :
    (1 ≤ s.opnd.srcLen.toNat → P s.opnd.srcAddr.toNat) ∧
      (v4Reaches s.mem s.opnd.srcAddr.toNat s.opnd.srcLen.toNat → ∀ k, k < 20 → P (s.opnd.srcAddr.toNat + k)) := by
  refine ⟨fun hn => ?first, fun hr => forall_offset_of_inSpan fun x hx => ?header⟩
  case first => rcases hi with rfl | rfl <;> exact hall _ ⟨hb, hn, .inl rfl⟩
  case header =>
    have hn : 1 ≤ s.opnd.srcLen.toNat := by obtain ⟨_, _, _, _, _⟩ := hr; omega
    rcases hi with rfl | rfl
    · exact hall x ⟨hb, hn, .inr ⟨hr, hx⟩⟩
    · exact hall x ⟨hb, hn, .inr ⟨hr, .inl hx⟩⟩

theorem forall_read_ipv6 (hi : i = .ipv6Dec) :
    (1 ≤ s.opnd.srcLen.toNat → P s.opnd.srcAddr.toNat) ∧
      (v6Reaches s.mem s.opnd.srcAddr.toNat s.opnd.srcLen.toNat → ∀ k, k < 40 → P (s.opnd.srcAddr.toNat + k)) := by
  subst hi
  refine ⟨fun hn => hall _ ⟨hb, hn, .inl rfl⟩, fun hr => forall_offset_of_inSpan fun x hx => ?_⟩
  have hn : 1 ≤ s.opnd.srcLen.toNat := by obtain ⟨_, _, _, _⟩ := hr; omega
  exact hall x ⟨hb, hn, .inr ⟨hr, hx⟩⟩

theorem forall_read_chain (hi : i = .rxParseV4) {v : Ipv4Bank}
    (hv : v4Fields s.mem s.opnd.srcAddr.toNat s.opnd.srcLen.toNat = .ok v)
    (hn : 8 ≤ s.opnd.srcLen.toNat - hdrBytes v.ihl) :
    ∀ k, k < 8 → P (s.opnd.srcAddr.toNat + hdrBytes v.ihl + k) := by
  subst hi
  obtain ⟨hr, hlen, _⟩ := v4HdrLen_of_ok hv
  refine forall_offset_of_inSpan fun x hx => hall x ⟨hb, by omega, .inr ⟨hr, .inr ⟨by omega, ?_⟩⟩⟩
  rw [hlen]
  exact hx

end

/-- A rule that checks a span and reads all of it does not stop where the span is written (20_memory.md R62). -/
theorem wholeSpan_not_fault {e a n : Nat} {m : Memory} {rule : Except Stop State} {commit : List Byte → State}
    (h : (65536 < e ∧ rule = .error (.raised .bounds false)) ∨
      (e ≤ 65536 ∧ ((¬spanWritten m a n ∧ rule = .error (.fault .uninitRead)) ∨
        ∃ bs : List Byte, bs.length = n ∧ spanHolds m a bs ∧ rule = .ok (commit bs))))
    (hw : e ≤ 65536 → spanWritten m a n) (f : Fault) : rule ≠ .error (.fault f) := by
  rcases h with ⟨_, hr⟩ | ⟨he, ⟨hnw, _⟩ | ⟨_, _, _, hr⟩⟩
  · rw [hr]; simp
  · exact absurd (hw he) hnw
  · rw [hr]; simp

theorem map_not_fault {α β : Type} {r : Except Stop α} {f : Fault} (h : r ≠ .error (.fault f)) (g : α → β) :
    r.map g ≠ .error (.fault f) := by
  cases r with
  | error _ => simpa [Except.map] using h
  | ok _ => simp [Except.map]

/-- A rule past its bounds check is all that can stop. -/
theorem checked_not_fault {e : Nat} {body : Except Stop State} {f : Fault}
    (h : e ≤ 65536 → body ≠ .error (.fault f)) :
    (if e ≤ 65536 then body else .error (.raised .bounds false)) ≠ .error (.fault f) := by
  split
  · exact h ‹_›
  · simp

theorem icmpFields_not_fault {m : Memory} {a n : Nat} (hw : 8 ≤ n → spanWritten m a 8) (g : Bool) (f : Fault) :
    icmpFields m a n g ≠ .error (.fault f) := by
  rcases icmpFields_outcomes m a n g with ⟨_, he⟩ | ⟨hn, hnw, _⟩ | ⟨_, _, _, he, _⟩
  · rw [he]; simp
  · exact absurd (hw hn) hnw
  · rw [he]; simp

theorem v4Fields_not_fault {m : Memory} {a n : Nat} (h0 : 1 ≤ n → (m.byteAt a).isSome = true)
    (hw : v4Reaches m a n → spanWritten m a 20) (f : Fault) : v4Fields m a n ≠ .error (.fault f) := by
  rcases v4Fields_outcomes m a n with ⟨_, he, _⟩ | ⟨_, hn, hx | ⟨hr, hnw⟩⟩ | ⟨_, _, he, _⟩
  · rw [he]; simp
  · have := h0 hn
    rw [hx] at this
    cases this
  · exact absurd (hw hr) hnw
  · rw [he]; simp

theorem v6Fields_not_fault {m : Memory} {a n : Nat} (h0 : 1 ≤ n → (m.byteAt a).isSome = true)
    (hw : v6Reaches m a n → spanWritten m a 40) (f : Fault) : v6Fields m a n ≠ .error (.fault f) := by
  rcases v6Fields_outcomes m a n with ⟨_, he, _⟩ | ⟨_, hn, hx | ⟨hr, hnw⟩⟩ | ⟨_, he, _⟩
  · rw [he]; simp
  · have := h0 hn
    rw [hx] at this
    cases this
  · exact absurd (hw hr) hnw
  · rw [he]; simp

/-- A command whose read set is written does not stop (20_memory.md R62, R67). -/
theorem ruleOf_not_fault {i : Instr} {s : State} (hall : ∀ x, readsByte i s x → (s.mem.byteAt x).isSome = true)
    (f : Fault) : ruleOf i s ≠ .error (.fault f) := by
  cases i
  case nop | csumClr | csumAddw | csumFin => simp [ruleOf]
  case icmpEnc => rcases icmpEncRule_cases s with ⟨_, hr⟩ | ⟨_, hr⟩ <;> rw [ruleOf, hr] <;> simp
  case csumAddb => exact wholeSpan_not_fault (csumAddbRule_cases s) (fun hb => forall_read_csum hall hb (.inl rfl)) f
  case csumBuf => exact wholeSpan_not_fault (csumBufRule_cases s) (fun hb => forall_read_csum hall hb (.inr rfl)) f
  case echoBuildV4 =>
    exact wholeSpan_not_fault (echoBuildRule_cases .v4 s) (forall_read_echoBuild hall (.inl rfl)) f
  case echoBuildV6 =>
    exact wholeSpan_not_fault (echoBuildRule_cases .v6 s) (forall_read_echoBuild hall (.inr rfl)) f
  case icmpDec =>
    refine ne_of_eq_of_ne (icmpDecRule_eq s) (checked_not_fault fun hb => map_not_fault ?_ _)
    exact icmpFields_not_fault (forall_read_icmp hall hb (.inl rfl)) false f
  case rxParseV6 =>
    refine ne_of_eq_of_ne (icmpDecRule_eq s) (checked_not_fault fun hb => map_not_fault ?_ _)
    exact icmpFields_not_fault (forall_read_icmp hall hb (.inr rfl)) false f
  case ipv4Dec =>
    refine ne_of_eq_of_ne (ipv4DecRule_eq s) (checked_not_fault fun hb => map_not_fault ?_ _)
    obtain ⟨hfirst, hheader⟩ := forall_read_ipv4 hall hb (.inl rfl)
    exact v4Fields_not_fault hfirst hheader f
  case ipv6Dec =>
    refine ne_of_eq_of_ne (ipv6DecRule_eq s) (checked_not_fault fun hb => map_not_fault ?_ _)
    obtain ⟨hfirst, hheader⟩ := forall_read_ipv6 hall hb rfl
    exact v6Fields_not_fault hfirst hheader f
  case rxParseV4 =>
    refine ne_of_eq_of_ne (rxParseV4Rule_eq s) (checked_not_fault fun hb => ?_)
    obtain ⟨hfirst, hheader⟩ := forall_read_ipv4 hall hb (.inr rfl)
    have hv4 := v4Fields_not_fault hfirst hheader f
    cases hv : v4Fields s.mem s.opnd.srcAddr.toNat s.opnd.srcLen.toNat with
    | error e => rw [hv] at hv4; simpa using hv4
    | ok v => exact map_not_fault (icmpFields_not_fault (forall_read_chain hall hb rfl hv) true f) _

/-- Settles O48: a command either completes or stops on an unwritten byte of its read set. -/
theorem commandCompletesIffItsBytesAreWritten : Obligations.CommandCompletesIffItsBytesAreWritten := by
  intro i s
  constructor
  · rintro ⟨t, ht⟩ x hx
    by_contra hnone
    have hf := (exec_fault_iff i s _).mpr (ruleOf_of_unwritten hx (Option.not_isSome_iff_eq_none.mp hnone))
    rw [ht] at hf
    cases hf
  · intro hall
    rcases exec_endsOrStops i s with ⟨t, ht, _⟩ | hf
    · exact ⟨t, ht⟩
    · exact absurd ((exec_fault_iff i s _).mp hf) (ruleOf_not_fault hall _)

/-! ### Two buffers -/

/-- A rule that starts with a bounds check. -/
theorem checkSpan_bind {α : Type} (a n : Nat) (k : Span → Except Stop α) :
    (checkSpan a n >>= k) = if a + n ≤ 65536 then k ⟨a, n⟩ else .error (.raised .bounds false) := by
  rcases checkSpan_cases a n with ⟨h, he⟩ | ⟨h, he⟩
  · rw [he, if_pos h]; rfl
  · rw [he, if_neg (by omega)]; rfl

/-- A rule that ends with its commit. -/
theorem bind_commit {α : Type} (r : Except Stop α) (commit : α → State) :
    (r >>= fun x => pure (commit x)) = r.map commit := by
  cases r <;> rfl

theorem csumAddbRule_eq (s : State) :
    csumAddbRule s =
      if s.opnd.srcAddr.toNat + s.opnd.srcLen.toNat ≤ 65536 then
        (words s.mem s.opnd.srcAddr.toNat s.opnd.srcLen.toNat).map s.addWords
      else .error (.raised .bounds false) := by
  rw [csumAddbRule, srcSpan, checkSpan_bind, bind_commit]

theorem csumBufRule_eq (s : State) :
    csumBufRule s =
      if s.opnd.srcAddr.toNat + s.opnd.srcLen.toNat ≤ 65536 then
        (words s.mem s.opnd.srcAddr.toNat s.opnd.srcLen.toNat).map s.oneShot
      else .error (.raised .bounds false) := by
  rw [csumBufRule, srcSpan, checkSpan_bind, bind_commit]

theorem icmpEncRule_eq (s : State) :
    icmpEncRule s =
      if s.opnd.dstAddr.toNat + 8 ≤ 65536 then
        .ok (s.withMem (s.mem.writeBytes s.opnd.dstAddr.toNat
          (icmpHeader s.opnd.txType s.opnd.txCode s.opnd.txCsum s.opnd.txIdent s.opnd.txSeq)))
      else .error (.raised .bounds false) := by
  rw [icmpEncRule, hdrSpan, checkSpan_bind]
  rfl

/-- What `ECHO_BUILD` commits, from the checksum words of the body (41_icmp_codec.md R122). -/
def echoCommit (fam : Family) (s : State) (body : List Half) : State :=
  ((s.withMem (s.mem.writeBytes s.opnd.dstAddr.toNat
    (icmpHeader (requestType fam) 0#8 (requestCsum fam s body) s.opnd.txIdent s.opnd.txSeq))).oneShot
      (requestWords fam s body)).withFrameLen (8 + s.opnd.bodyLen.toNat)

theorem echoBuildRule_eq (fam : Family) (s : State) :
    echoBuildRule fam s =
      if s.opnd.dstAddr.toNat + (8 + s.opnd.bodyLen.toNat) ≤ 65536 then
        (words s.mem (s.opnd.dstAddr.toNat + 8) s.opnd.bodyLen.toNat).map (echoCommit fam s)
      else .error (.raised .bounds false) := by
  rw [echoBuildRule, frameSpan, checkSpan_bind, bind_commit]
  rfl

/-- Two runs of a rule come to the same: the same stop, or commits that agree on the registers and on the bytes the
command writes. -/
inductive SameRun (i : Instr) (s : State) : Except Stop State → Except Stop State → Prop where
  | stops (e : Stop) : SameRun i s (.error e) (.error e)
  | commits (u v : State) (hregs : v.withMem u.mem = u)
      (hbytes : ∀ x, writesByte i s x → v.mem.byteAt x = u.mem.byteAt x) : SameRun i s (.ok u) (.ok v)

theorem sameRun_checked {i : Instr} {s : State} {e : Nat} {r r' : Except Stop State}
    (h : e ≤ 65536 → SameRun i s r r') :
    SameRun i s (if e ≤ 65536 then r else .error (.raised .bounds false))
      (if e ≤ 65536 then r' else .error (.raised .bounds false)) := by
  split
  · exact h ‹_›
  · exact .stops _

/-- The same answer of a rule's reads, committed over two buffers. -/
theorem sameRun_map {α : Type} {i : Instr} {s : State} {r r' : Except Stop α} {commit commit' : α → State}
    (hr : r' = r)
    (hregs : ∀ x, (commit' x).withMem (commit x).mem = commit x)
    (hbytes : ∀ x y, writesByte i s y → (commit' x).mem.byteAt y = (commit x).mem.byteAt y) :
    SameRun i s (r.map commit) (r'.map commit') := by
  subst hr
  cases r' with
  | error e => exact .stops e
  | ok x => exact .commits _ _ (hregs x) (hbytes x)

/-- The 8 bytes of a header written at an address do not depend on the buffer they are written to. -/
theorem byteAt_writeBytes_icmpHeader {a x : Nat} (hx : inSpan a 8 x) (m m' : Memory) (ty co : Byte)
    (c ident seq : Half) :
    (m'.writeBytes a (icmpHeader ty co c ident seq)).byteAt x =
      (m.writeBytes a (icmpHeader ty co c ident seq)).byteAt x := by
  have hl : (icmpHeader ty co c ident seq).length = 8 := by rw [icmpHeader_eq, headerBytes_length]
  rw [Memory.byteAt_writeBytes, Memory.byteAt_writeBytes, hl]
  exact (if_pos hx).trans (if_pos hx).symm

section

/-! One rule over two buffers that agree on the bytes the command reads. -/

variable {i : Instr} {s : State} {m : Memory} (hall : ∀ x, readsByte i s x → m.byteAt x = s.mem.byteAt x)

include hall

theorem echoBuildRule_sameRun (fam : Family) (hi : i = .echoBuildV4 ∨ i = .echoBuildV6) :
    SameRun i s (echoBuildRule fam s) (echoBuildRule fam (s.withMem m)) := by
  rw [echoBuildRule_eq, echoBuildRule_eq]
  refine sameRun_checked fun hb => sameRun_map (words_agree (forall_read_echoBuild hall hi hb)) (fun _ => rfl) ?_
  intro ws x hx
  refine byteAt_writeBytes_icmpHeader ?_ s.mem m _ _ _ _ _
  rcases hi with rfl | rfl <;> exact hx

theorem icmpDecRule_sameRun (hi : i = .icmpDec ∨ i = .rxParseV6) :
    SameRun i s (icmpDecRule s) (icmpDecRule (s.withMem m)) := by
  rw [icmpDecRule_eq, icmpDecRule_eq]
  refine sameRun_checked fun hb => sameRun_map (icmpFields_agree (forall_read_icmp hall hb hi)) (fun _ => rfl) ?_
  rcases hi with rfl | rfl <;> exact fun _ _ h => h.elim

end

theorem rxParseV4Rule_sameRun {s : State} {m : Memory}
    (hall : ∀ x, readsByte .rxParseV4 s x → m.byteAt x = s.mem.byteAt x) :
    SameRun .rxParseV4 s (rxParseV4Rule s) (rxParseV4Rule (s.withMem m)) := by
  rw [rxParseV4Rule_eq, rxParseV4Rule_eq]
  refine sameRun_checked fun hb => ?_
  obtain ⟨hfirst, hheader⟩ := forall_read_ipv4 hall hb (.inr rfl)
  simp only [State.withMem_opnd, State.withMem_mem, v4Fields_agree hfirst hheader]
  cases hv : v4Fields s.mem s.opnd.srcAddr.toNat s.opnd.srcLen.toNat with
  | error e => exact .stops e
  | ok v =>
    exact sameRun_map (icmpFields_agree (forall_read_chain hall hb rfl hv)) (fun _ => rfl) (fun _ _ h => h.elim)

/-- Every command's rule comes to the same over buffers that agree on the command's read set. -/
theorem ruleOf_sameRun {i : Instr} {s : State} {m : Memory}
    (hall : ∀ x, readsByte i s x → m.byteAt x = s.mem.byteAt x) :
    SameRun i s (ruleOf i s) (ruleOf i (s.withMem m)) := by
  cases i
  case nop | csumClr | csumAddw | csumFin => exact .commits _ _ rfl (fun _ h => h.elim)
  case csumAddb =>
    rw [ruleOf, ruleOf, csumAddbRule_eq, csumAddbRule_eq]
    exact sameRun_checked fun hb =>
      sameRun_map (words_agree (forall_read_csum hall hb (.inl rfl))) (fun _ => rfl) (fun _ _ h => h.elim)
  case csumBuf =>
    rw [ruleOf, ruleOf, csumBufRule_eq, csumBufRule_eq]
    exact sameRun_checked fun hb =>
      sameRun_map (words_agree (forall_read_csum hall hb (.inr rfl))) (fun _ => rfl) (fun _ _ h => h.elim)
  case icmpEnc =>
    rw [ruleOf, ruleOf, icmpEncRule_eq, icmpEncRule_eq]
    exact sameRun_checked fun _ =>
      .commits _ _ rfl (fun x hx => byteAt_writeBytes_icmpHeader hx s.mem m _ _ _ _ _)
  case echoBuildV4 => exact echoBuildRule_sameRun hall .v4 (.inl rfl)
  case echoBuildV6 => exact echoBuildRule_sameRun hall .v6 (.inr rfl)
  case icmpDec => exact icmpDecRule_sameRun hall (.inl rfl)
  case rxParseV6 => exact icmpDecRule_sameRun hall (.inr rfl)
  case ipv4Dec =>
    rw [ruleOf, ruleOf, ipv4DecRule_eq, ipv4DecRule_eq]
    refine sameRun_checked fun hb => ?_
    obtain ⟨hfirst, hheader⟩ := forall_read_ipv4 hall hb (.inl rfl)
    exact sameRun_map (v4Fields_agree hfirst hheader) (fun _ => rfl) (fun _ _ h => h.elim)
  case ipv6Dec =>
    rw [ruleOf, ruleOf, ipv6DecRule_eq, ipv6DecRule_eq]
    refine sameRun_checked fun hb => ?_
    obtain ⟨hfirst, hheader⟩ := forall_read_ipv6 hall hb rfl
    exact sameRun_map (v6Fields_agree hfirst hheader) (fun _ => rfl) (fun _ _ h => h.elim)
  case rxParseV4 => exact rxParseV4Rule_sameRun hall

/-- Completion adds the same flags to two runs that come to the same. -/
theorem runCommand_of_sameRun {i : Instr} {s : State} {r r' : Except Stop State} (h : SameRun i s r r') (m : Memory) :
    (∀ f, runCommand s r = .fault f → runCommand (s.withMem m) r' = .fault f) ∧
      ∀ t, runCommand s r = .next t → ∃ u, runCommand (s.withMem m) r' = .next u ∧ u.withMem t.mem = t ∧
        (t.status.err = 0#4 → ∀ x, writesByte i s x → u.mem.byteAt x = t.mem.byteAt x) := by
  cases h with
  | stops e =>
    cases e with
    | raised e g =>
      refine ⟨fun f h => (by cases h), fun t h => ?_⟩
      cases h
      exact ⟨_, rfl, rfl, fun herr => absurd herr (toCode_ne_zero e)⟩
    | fault f => exact ⟨fun _ h => h, fun t h => by cases h⟩
  | commits u v hregs hbytes =>
    refine ⟨fun f h => (by cases h), fun t h => ?_⟩
    cases h
    exact ⟨_, rfl, congrArg (State.complete · 0#4) hregs, fun _ => hbytes⟩

/-- Settles O49: the two runs of the rule come to the same, and so do the completions around them. -/
theorem onlyTheReadBytesMatter : Obligations.OnlyTheReadBytesMatter := by
  intro i s m hall
  have hrun := runCommand_of_sameRun (ruleOf_sameRun hall) m
  rw [← exec_eq_runCommand, ← exec_eq_runCommand] at hrun
  exact hrun

end Sys2Proof.Machine

/-! The register map and the host's port (10_state.md R21 to R25, 20_memory.md R60 to R64, 70_reset_and_hazards.md
R241). -/

namespace Sys2Proof.Machine

open Sys2Proof.Safety

/-! ### The register map -/

theorem readOffset_offset (s : State) (r : Reg) : readOffset s r.offset = readReg s r := by
  rw [readOffset, Reg.ofOffset_offset]

/-- Settles O51: each written-out entry is a register's offset and content, and a read at the offset of a register is a
read of it. -/
theorem registerMapIsTheTable : Obligations.RegisterMapIsTheTable := by
  have hentry {s : State} {p : BitVec 8 × Nat} (hp : p ∈ registerContents s) :
      ∃ r : Reg, (r.offset, (readReg s r).toNat) = p := by
    rw [registerContents_eq] at hp
    obtain ⟨r, _, hr⟩ := List.mem_map.mp hp
    exact ⟨r, hr⟩
  refine ⟨rfl, Reg.ofOffset_offset, fun s => ?offsets, fun s p hp => ?contents, fun s hb p hp => ?hostRead,
    fun r => ?statusW1c, fun r => ?startsCommand, fun r => ?rw⟩
  case offsets => rw [registerContents_eq, List.map_map]; rfl
  case contents =>
    obtain ⟨r, rfl⟩ := hentry hp
    exact congrArg BitVec.toNat (readOffset_offset s r)
  case hostRead =>
    obtain ⟨r, rfl⟩ := hentry hp
    rw [hostRegRead_idle s r hb, BitVec.ofNat_toNat, BitVec.setWidth_eq]
    rfl
  all_goals cases r <;> decide

/-- Settles O53: the STATUS word as a number. -/
theorem statusWordLayout : Obligations.StatusWordLayout :=
  fun s => (congrArg BitVec.toNat (readOffset_offset s .status)).trans s.status.toWord_toNat

/-! ### Reserved offsets -/

/-- The nine reserved slots hold no register and are aligned (10_state.md R23). -/
theorem ofOffset_of_reserved {off : BitVec 8} (h : off.toNat = 0x5C ∨ (0xE0 ≤ off.toNat ∧ off.toNat % 4 = 0)) :
    Reg.ofOffset off = none ∧ off.toNat % 4 = 0 := by
  revert off; decide

/-- A whole-word read of any aligned offset while the block is idle, of a reserved one too. -/
theorem hostRegRead_idle_of_aligned {s : State} (hb : s.status.busy = false) {off : BitVec 8} (ho : off.toNat % 4 = 0) :
    hostAccess (.regRead off 32) s = .next (s.replied (.word (readOffset s off))) := by
  simp [hostAccess, hostRegRead, regAccessOk, ho, hb]

/-- A whole-word write of any aligned offset while the block is idle, of a reserved one too. -/
theorem hostRegWrite_idle_of_aligned {s : State} (hb : s.status.busy = false) {off : BitVec 8} (ho : off.toNat % 4 = 0)
    (v : Word) : hostAccess (.regWrite off 32 v) s = .next ((writeOffset s off v).replied .nothing) := by
  simp [hostAccess, hostRegWrite, regAccessOk, ho, hb]

/-- A read of an aligned offset other than those of STATUS and CMD while a command is pending (70_reset_and_hazards.md
R241, log 4, log 5). -/
theorem hostRegRead_busy_free {s : State} (hb : s.status.busy = true) {off : BitVec 8} (ho : off.toNat % 4 = 0)
    (hr : readableWhileBusy off = false) :
    hostAccess (.regRead off 32) s = .next (s.repliedFree (.word (Config.freeWord s.host.freeIndex))) := by
  simp [hostAccess, hostRegRead, regAccessOk, ho, hb, hr]

/-- Settles O54: no register stands at a reserved offset, so an idle read is 0 and an idle write keeps the state; while
busy the offset is as any other that is not readable. -/
theorem reservedOffsetsHoldNothing : Obligations.ReservedOffsetsHoldNothing := by
  intro s off v hoff
  obtain ⟨hnone, hal⟩ := ofOffset_of_reserved hoff
  refine ⟨fun hb => ⟨?idleRead, ?idleWrite⟩, fun hb =>
    ⟨⟨Config.freeWord s.host.freeIndex, ?busyRead⟩, ?busyWrite⟩⟩
  case idleRead => rw [hostRegRead_idle_of_aligned hb hal, readOffset, hnone]; rfl
  case idleWrite => rw [hostRegWrite_idle_of_aligned hb hal, writeOffset, hnone]; rfl
  case busyRead => exact hostRegRead_busy_free hb hal (by rw [readableWhileBusy, hnone])
  case busyWrite => exact hostRegWrite_busy_of_aligned hb hal v

/-! ### Free values -/

/-- Settles O56: the two functions are the model's free values. -/
theorem busyReadsReturnUnspecifiedValues : Obligations.BusyReadsReturnUnspecifiedValues := by
  refine ⟨Config.freeWord, Config.freeByte, fun s hb => ⟨fun off ho h04 h08 => ?word, fun a => ?byte⟩⟩
  case word =>
    have hr : readableWhileBusy off = false :=
      Bool.eq_false_iff.mpr fun h => ((readableWhileBusy_iff off).mp h).elim h04 h08
    exact hostRegRead_busy_free hb ho hr
  case byte =>
    simp [hostAccess, hostBufRead, bufAccessOk, hb, State.repliedFree, State.withHost]

/-! ### Widths -/

theorem regAccessOk_of_illFormed {off : BitVec 8} {width : Nat} (h : width ≠ 32 ∨ off.toNat % 4 ≠ 0) :
    regAccessOk off width = false := by
  rcases h with h | h <;> simp [regAccessOk, h]

/-- A one-byte write carries its byte in the low 8 bits of the value (log 12). -/
theorem hostBufWrite_idle {s : State} (hb : s.status.busy = false) (a : Half) (b : Byte) :
    hostAccess (.bufWrite a 8 (b.setWidth 32)) s =
      .next ((s.withMem (s.mem.write a.toNat b)).replied .nothing) := by
  simp [hostAccess, hostBufWrite, bufAccessOk, hb]

theorem hostBufRead_of_written {s : State} {a : Half} {b : Byte} (hb : s.status.busy = false)
    (hx : s.mem.byteAt a.toNat = some b) : hostAccess (.bufRead a 8) s = .next (s.replied (.byte b)) := by
  simp [hostAccess, hostBufRead, bufAccessOk, hb, hx]

/-- Settles O57: the width is asked for before everything else; a one-byte write is read back by the buffer's
read-after-write law. -/
theorem hostAccessWidthsAreChecked : Obligations.HostAccessWidthsAreChecked := by
  refine ⟨fun s off width v h => ?register, fun s a width v h => ?buffer, fun s a b hb => ?byte⟩
  case register =>
    have hok := regAccessOk_of_illFormed h
    have hw : hostAccess (.regWrite off width v) s = .fault .hostBadAccess := by
      simp [hostAccess, hostRegWrite, hok]
    exact ⟨by simp [hostAccess, hostRegRead, hok], fun _ => hw, .inl hw⟩
  case buffer =>
    have hok : bufAccessOk width = false := by simp [bufAccessOk, h]
    have hw : hostAccess (.bufWrite a width v) s = .fault .hostBadAccess := by
      simp [hostAccess, hostBufWrite, hok]
    exact ⟨by simp [hostAccess, hostBufRead, hok], fun _ => hw, .inl hw⟩
  case byte =>
    refine ⟨s.mem.write a.toNat b, hostBufWrite_idle hb a b, Memory.byteAt_write_same _ _ _,
      fun x hx => Memory.byteAt_write_other _ _ _ hx, ?_⟩
    exact hostBufRead_of_written (s := s.withMem (s.mem.write a.toNat b)) hb (Memory.byteAt_write_same _ _ _)

/-! ### The address map -/

/-- Settles O60: each space is an interval of host addresses, and the two intervals are apart. -/
theorem hostAddressesNameTheirPlaces : Obligations.HostAddressesNameTheirPlaces := by
  intro pl hapart
  refine ⟨fun p => ?_, fun x p h => ?_⟩
  · cases p with
    | reg off =>
      have := off.isLt
      rw [hostAddress, targetOf, if_pos (by omega), Nat.add_sub_cancel_left, BitVec.ofNat_toNat, BitVec.setWidth_eq]
    | buf a =>
      have := a.isLt
      rw [hostAddress, targetOf, if_neg (by omega), if_pos (by simp only [Config.bufSize]; omega),
        Nat.add_sub_cancel_left, BitVec.ofNat_toNat, BitVec.setWidth_eq]
  · unfold targetOf at h
    split at h
    · cases h
      rw [hostAddress, BitVec.toNat_ofNat]
      omega
    · split at h
      · simp only [Config.bufSize] at *
        cases h
        rw [hostAddress, BitVec.toNat_ofNat]
        omega
      · cases h

end Sys2Proof.Machine
